-- ==== Sys2Proof/Word.lean ====
section
/-! DEFINITION. The two data widths of the TS-16 (00_scope R5): bytes and 16-bit words, both read
as unsigned integers. -/

namespace Sys2Proof

/-- `u8`, the addressable unit. -/
abbrev Byte := BitVec 8

/-- `u16`, a register or a data word. -/
abbrev Word := BitVec 16

end Sys2Proof
end

