-- ==== Sys2Proof/Syntax.lean ====
section
/-! DEFINITION. The syntax of the TS-16: operand kinds and formats (30_encoding R61, R64), the fifty
opcodes (R67) and the fifty instructions with their operands, one constructor per row of the
opcode table. -/

namespace Sys2Proof

/-- The five operand kinds (30_encoding R61). `addr8` is used by no instruction (D20). -/
inductive OperandKind where
  | reg | lit8 | lit16 | addr8 | addr16
  deriving DecidableEq, Repr

/-- The thirteen instruction formats (30_encoding R64), each named by its operand schema. -/
inductive Format where
  /-- Format `N`: no operand. -/
  | none
  /-- Format `R`: `REG`. -/
  | reg
  /-- Format `L`: `LIT16`. -/
  | lit
  /-- Format `A`: `ADDR16`. -/
  | addr
  /-- Format `RR`: `REG, REG`. -/
  | regReg
  /-- Format `Rl`: `REG, LIT8`. -/
  | regLit8
  /-- Format `LR`: `LIT16, REG`. -/
  | litReg
  /-- Format `RL`: `REG, LIT16`. -/
  | regLit
  /-- Format `RA`: `REG, ADDR16`. -/
  | regAddr
  /-- Format `AR`: `ADDR16, REG`. -/
  | addrReg
  /-- Format `lA`: `LIT8, ADDR16`. -/
  | lit8Addr
  /-- Format `LA`: `LIT16, ADDR16`. -/
  | litAddr
  /-- Format `ARR`: `ADDR16, REG, REG`. -/
  | addrRegReg
  deriving DecidableEq, Repr

/-- The fifty opcodes, in the order of the opcode table (30_encoding R67). -/
inductive Opcode where
  | nop | movLitReg | movRegReg | movRegMem | movMemReg
  | addRegReg | jmpNotEq | subLitReg | pshLit | pshReg
  | pop | movLitMem | movRegPtrReg | movLitOffReg | subRegLit
  | subRegReg | mulLitReg | mulRegReg | lshRegLit | lshRegReg
  | rshRegLit | rshRegReg | andRegLit | andRegReg | orRegLit
  | orRegReg | xorRegLit | xorRegReg | notReg | incReg
  | decReg | jeqReg | addLitReg | jneReg | jeqLit
  | jltReg | jltLit | jgtReg | jgtLit | jleReg
  | jleLit | jgeReg | jgeLit | mov8LitMem | mov8RegMem
  | mov8MemReg | calLit | calReg | ret | hlt
  deriving DecidableEq, Repr

/-- The fifty opcodes as a list, in table order. -/
def Opcode.all : List Opcode :=
  [.nop, .movLitReg, .movRegReg, .movRegMem, .movMemReg,
   .addRegReg, .jmpNotEq, .subLitReg, .pshLit, .pshReg,
   .pop, .movLitMem, .movRegPtrReg, .movLitOffReg, .subRegLit,
   .subRegReg, .mulLitReg, .mulRegReg, .lshRegLit, .lshRegReg,
   .rshRegLit, .rshRegReg, .andRegLit, .andRegReg, .orRegLit,
   .orRegReg, .xorRegLit, .xorRegReg, .notReg, .incReg,
   .decReg, .jeqReg, .addLitReg, .jneReg, .jeqLit,
   .jltReg, .jltLit, .jgtReg, .jgtLit, .jleReg,
   .jleLit, .jgeReg, .jgeLit, .mov8LitMem, .mov8RegMem,
   .mov8MemReg, .calLit, .calReg, .ret, .hlt]

/-- An opcode's row in the opcode table, counted from 0. -/
def Opcode.index : Opcode → Fin 50
  | .nop => 0
  | .movLitReg => 1
  | .movRegReg => 2
  | .movRegMem => 3
  | .movMemReg => 4
  | .addRegReg => 5
  | .jmpNotEq => 6
  | .subLitReg => 7
  | .pshLit => 8
  | .pshReg => 9
  | .pop => 10
  | .movLitMem => 11
  | .movRegPtrReg => 12
  | .movLitOffReg => 13
  | .subRegLit => 14
  | .subRegReg => 15
  | .mulLitReg => 16
  | .mulRegReg => 17
  | .lshRegLit => 18
  | .lshRegReg => 19
  | .rshRegLit => 20
  | .rshRegReg => 21
  | .andRegLit => 22
  | .andRegReg => 23
  | .orRegLit => 24
  | .orRegReg => 25
  | .xorRegLit => 26
  | .xorRegReg => 27
  | .notReg => 28
  | .incReg => 29
  | .decReg => 30
  | .jeqReg => 31
  | .addLitReg => 32
  | .jneReg => 33
  | .jeqLit => 34
  | .jltReg => 35
  | .jltLit => 36
  | .jgtReg => 37
  | .jgtLit => 38
  | .jleReg => 39
  | .jleLit => 40
  | .jgeReg => 41
  | .jgeLit => 42
  | .mov8LitMem => 43
  | .mov8RegMem => 44
  | .mov8MemReg => 45
  | .calLit => 46
  | .calReg => 47
  | .ret => 48
  | .hlt => 49

/-- The fifty instructions with their operands in schema order. A register operand is an index as the
register file sees it, a natural number of any size (10_state R11): `Instr.wellFormed` says it is one
of `0..11`, and the register file validates it all the same. A literal or address operand is the value
delivered to the handler (30_encoding R61). -/
inductive Instr where
  /-- `NOP`, R175. -/
  | nop
  /-- `MOV_LIT_REG`, R81. -/
  | movLitReg (lit : Word) (reg : Nat)
  /-- `MOV_REG_REG`, R82. -/
  | movRegReg (src : Nat) (dst : Nat)
  /-- `MOV_REG_MEM`, R83. -/
  | movRegMem (reg : Nat) (addr : Word)
  /-- `MOV_MEM_REG`, R84. -/
  | movMemReg (addr : Word) (reg : Nat)
  /-- `ADD_REG_REG`, R111. -/
  | addRegReg (ra : Nat) (rb : Nat)
  /-- `JMP_NOT_EQ`, R146. -/
  | jmpNotEq (lit : Word) (addr : Word)
  /-- `SUB_LIT_REG`, R113. -/
  | subLitReg (lit : Word) (reg : Nat)
  /-- `PSH_LIT`, R102. -/
  | pshLit (lit : Word)
  /-- `PSH_REG`, R103. -/
  | pshReg (reg : Nat)
  /-- `POP`, R104. -/
  | pop (reg : Nat)
  /-- `MOV_LIT_MEM`, R85. -/
  | movLitMem (lit : Word) (addr : Word)
  /-- `MOV_REG_PTR_REG`, R86. -/
  | movRegPtrReg (ptr : Nat) (dst : Nat)
  /-- `MOV_LIT_OFF_REG`, R87. -/
  | movLitOffReg (base : Word) (off : Nat) (dst : Nat)
  /-- `SUB_REG_LIT`, R114. -/
  | subRegLit (reg : Nat) (lit : Word)
  /-- `SUB_REG_REG`, R115. -/
  | subRegReg (ra : Nat) (rb : Nat)
  /-- `MUL_LIT_REG`, R116. -/
  | mulLitReg (lit : Word) (reg : Nat)
  /-- `MUL_REG_REG`, R117. -/
  | mulRegReg (ra : Nat) (rb : Nat)
  /-- `LSH_REG_LIT`, R129. -/
  | lshRegLit (reg : Nat) (lit8 : Byte)
  /-- `LSH_REG_REG`, R130. -/
  | lshRegReg (ra : Nat) (rb : Nat)
  /-- `RSH_REG_LIT`, R131. -/
  | rshRegLit (reg : Nat) (lit8 : Byte)
  /-- `RSH_REG_REG`, R132. -/
  | rshRegReg (ra : Nat) (rb : Nat)
  /-- `AND_REG_LIT`, R121. -/
  | andRegLit (reg : Nat) (lit : Word)
  /-- `AND_REG_REG`, R122. -/
  | andRegReg (ra : Nat) (rb : Nat)
  /-- `OR_REG_LIT`, R123. -/
  | orRegLit (reg : Nat) (lit : Word)
  /-- `OR_REG_REG`, R124. -/
  | orRegReg (ra : Nat) (rb : Nat)
  /-- `XOR_REG_LIT`, R125. -/
  | xorRegLit (reg : Nat) (lit : Word)
  /-- `XOR_REG_REG`, R126. -/
  | xorRegReg (ra : Nat) (rb : Nat)
  /-- `NOT`, R127. -/
  | notReg (reg : Nat)
  /-- `INC_REG`, R140. -/
  | incReg (reg : Nat)
  /-- `DEC_REG`, R141. -/
  | decReg (reg : Nat)
  /-- `JEQ_REG`, R148. -/
  | jeqReg (reg : Nat) (addr : Word)
  /-- `ADD_LIT_REG`, R112. -/
  | addLitReg (lit : Word) (reg : Nat)
  /-- `JNE_REG`, R147. -/
  | jneReg (reg : Nat) (addr : Word)
  /-- `JEQ_LIT`, R149. -/
  | jeqLit (lit : Word) (addr : Word)
  /-- `JLT_REG`, R150. -/
  | jltReg (reg : Nat) (addr : Word)
  /-- `JLT_LIT`, R151. -/
  | jltLit (lit : Word) (addr : Word)
  /-- `JGT_REG`, R152. -/
  | jgtReg (reg : Nat) (addr : Word)
  /-- `JGT_LIT`, R153. -/
  | jgtLit (lit : Word) (addr : Word)
  /-- `JLE_REG`, R154. -/
  | jleReg (reg : Nat) (addr : Word)
  /-- `JLE_LIT`, R155. -/
  | jleLit (lit : Word) (addr : Word)
  /-- `JGE_REG`, R156. -/
  | jgeReg (reg : Nat) (addr : Word)
  /-- `JGE_LIT`, R157. -/
  | jgeLit (lit : Word) (addr : Word)
  /-- `MOV8_LIT_MEM`, R88. -/
  | mov8LitMem (lit8 : Byte) (addr : Word)
  /-- `MOV8_REG_MEM`, R89. -/
  | mov8RegMem (reg : Nat) (addr : Word)
  /-- `MOV8_MEM_REG`, R90. -/
  | mov8MemReg (addr : Word) (reg : Nat)
  /-- `CAL_LIT`, R167. -/
  | calLit (addr : Word)
  /-- `CAL_REG`, R168. -/
  | calReg (reg : Nat)
  /-- `RET`, R169. -/
  | ret
  /-- `HLT`, R176. -/
  | hlt
  deriving DecidableEq, Repr

end Sys2Proof
end

