-- ==== Sys2Proof/Config.lean ====
section
/-! DEFINITION. What an implementation fixes: the parameters of 00_scope R4 that the spec leaves
OPEN, and the answers of peripheral devices, which the spec leaves free (20_memory R54). The region
list and the devices, OPEN parameters too, are the mapper's and the devices' own types in
Machine/Mapper.lean and Machine/Memory.lean. All of these are plain data held in `State`, so that a
statement about every state holds for every configuration. -/

namespace Sys2Proof

/-- `OPCODE_MAP` (30_encoding R67): the opcode byte of each of the fifty opcodes, in table order. -/
structure OpcodeMap where
  codes : Vector Byte 50
  deriving DecidableEq, Repr

/-- Two opcodes have two bytes: the one constraint on an opcode map (30_encoding R67). -/
abbrev OpcodeMap.wf (m : OpcodeMap) : Prop := m.codes.toList.Nodup

/-- The scalar parameters left open by 00_scope R4. -/
structure Params where
  /-- `OPCODE_MAP`. -/
  opcodeMap : OpcodeMap
  /-- `IP_RESET`, the value `ip` takes at reset. -/
  ipReset : Word
  /-- `INIT_GPR`, the values `acc`, `r1`, …, `r8` take at reset, in that order. -/
  initGpr : Vector Word 9
  deriving DecidableEq, Repr

/-- What a read of a peripheral answers (20_memory R54): the value, or `none` where the device
refuses the access. FREE VALUE: nothing constrains it (log entry 7). `access` counts the peripheral
accesses before this one, so every access has an answer of its own. -/
opaque Config.peripheralRead (access device localAddr width : Nat) : Option Word

/-- Whether a peripheral takes a write (20_memory R54, 60_exceptions R186). FREE VALUE: nothing
constrains it (log entry 7). -/
opaque Config.peripheralAccepts (access device localAddr width : Nat) (value : Word) : Bool

end Sys2Proof
end

