-- ==== Sys2Proof/WellFormed.lean ====
section
/-! DEFINITION. When an instruction is one that the decoder can produce: every register operand is
an index of the register file (30_encoding R63, 10_state R10). Every literal and address operand is
admitted (30_encoding R69), so there is no other check. -/

namespace Sys2Proof

/-- The register operands of an instruction, in schema order. -/
def Instr.regOperands : Instr → List Nat
  | .nop => []
  | .movLitReg _ reg => [reg]
  | .movRegReg src dst => [src, dst]
  | .movRegMem reg _ => [reg]
  | .movMemReg _ reg => [reg]
  | .addRegReg ra rb => [ra, rb]
  | .jmpNotEq _ _ => []
  | .subLitReg _ reg => [reg]
  | .pshLit _ => []
  | .pshReg reg => [reg]
  | .pop reg => [reg]
  | .movLitMem _ _ => []
  | .movRegPtrReg ptr dst => [ptr, dst]
  | .movLitOffReg _ off dst => [off, dst]
  | .subRegLit reg _ => [reg]
  | .subRegReg ra rb => [ra, rb]
  | .mulLitReg _ reg => [reg]
  | .mulRegReg ra rb => [ra, rb]
  | .lshRegLit reg _ => [reg]
  | .lshRegReg ra rb => [ra, rb]
  | .rshRegLit reg _ => [reg]
  | .rshRegReg ra rb => [ra, rb]
  | .andRegLit reg _ => [reg]
  | .andRegReg ra rb => [ra, rb]
  | .orRegLit reg _ => [reg]
  | .orRegReg ra rb => [ra, rb]
  | .xorRegLit reg _ => [reg]
  | .xorRegReg ra rb => [ra, rb]
  | .notReg reg => [reg]
  | .incReg reg => [reg]
  | .decReg reg => [reg]
  | .jeqReg reg _ => [reg]
  | .addLitReg _ reg => [reg]
  | .jneReg reg _ => [reg]
  | .jeqLit _ _ => []
  | .jltReg reg _ => [reg]
  | .jltLit _ _ => []
  | .jgtReg reg _ => [reg]
  | .jgtLit _ _ => []
  | .jleReg reg _ => [reg]
  | .jleLit _ _ => []
  | .jgeReg reg _ => [reg]
  | .jgeLit _ _ => []
  | .mov8LitMem _ _ => []
  | .mov8RegMem reg _ => [reg]
  | .mov8MemReg _ reg => [reg]
  | .calLit _ => []
  | .calReg reg => [reg]
  | .ret => []
  | .hlt => []

/-- Every register operand is one of `0..11`. -/
def Instr.wellFormed (i : Instr) : Bool :=
  i.regOperands.all (fun r => decide (r < 12))

end Sys2Proof
end

