-- ==== Sys2Proof/Decode.lean ====
section
/-! DEFINITION. The encoding tables (30_encoding R60 to R67), the decoder of a byte sequence, total
and rejecting by name, and the encoder, both written from the same tables. -/

namespace Sys2Proof

/-! ## Bytes and words (20_memory R34, 30_encoding R61) -/

/-- Bits 15:8 of a word. -/
def highByte (v : Word) : Byte := BitVec.ofNat 8 (v.toNat / 256)

/-- Bits 7:0 of a word; `trunc8` of 00_scope R5. -/
def lowByte (v : Word) : Byte := BitVec.ofNat 8 v.toNat

/-- `{hi, lo}`: the big-endian word of two bytes (20_memory R34). -/
def joinBytes (hi lo : Byte) : Word := BitVec.ofNat 16 (hi.toNat * 256 + lo.toNat)

/-- `zext16`: a byte widened to a word with the high byte zero (00_scope R5). -/
def zext16 (b : Byte) : Word := BitVec.ofNat 16 b.toNat

/-- The register index that a register byte names: the byte modulo 12, never rejected
(30_encoding R63). -/
def regOfByte (b : Byte) : Nat := b.toNat % 12

/-! ## The tables -/

/-- The operand schema of a format (30_encoding R64). -/
def Format.schema : Format → List OperandKind
  | .none => []
  | .reg => [.reg]
  | .lit => [.lit16]
  | .addr => [.addr16]
  | .regReg => [.reg, .reg]
  | .regLit8 => [.reg, .lit8]
  | .litReg => [.lit16, .reg]
  | .regLit => [.reg, .lit16]
  | .regAddr => [.reg, .addr16]
  | .addrReg => [.addr16, .reg]
  | .lit8Addr => [.lit8, .addr16]
  | .litAddr => [.lit16, .addr16]
  | .addrRegReg => [.addr16, .reg, .reg]

/-- The format of each opcode (30_encoding R67). -/
def Opcode.format : Opcode → Format
  | .nop => .none
  | .movLitReg => .litReg
  | .movRegReg => .regReg
  | .movRegMem => .regAddr
  | .movMemReg => .addrReg
  | .addRegReg => .regReg
  | .jmpNotEq => .litAddr
  | .subLitReg => .litReg
  | .pshLit => .lit
  | .pshReg => .reg
  | .pop => .reg
  | .movLitMem => .litAddr
  | .movRegPtrReg => .regReg
  | .movLitOffReg => .addrRegReg
  | .subRegLit => .regLit
  | .subRegReg => .regReg
  | .mulLitReg => .litReg
  | .mulRegReg => .regReg
  | .lshRegLit => .regLit8
  | .lshRegReg => .regReg
  | .rshRegLit => .regLit8
  | .rshRegReg => .regReg
  | .andRegLit => .regLit
  | .andRegReg => .regReg
  | .orRegLit => .regLit
  | .orRegReg => .regReg
  | .xorRegLit => .regLit
  | .xorRegReg => .regReg
  | .notReg => .reg
  | .incReg => .reg
  | .decReg => .reg
  | .jeqReg => .regAddr
  | .addLitReg => .litReg
  | .jneReg => .regAddr
  | .jeqLit => .litAddr
  | .jltReg => .regAddr
  | .jltLit => .litAddr
  | .jgtReg => .regAddr
  | .jgtLit => .litAddr
  | .jleReg => .regAddr
  | .jleLit => .litAddr
  | .jgeReg => .regAddr
  | .jgeLit => .litAddr
  | .mov8LitMem => .lit8Addr
  | .mov8RegMem => .regAddr
  | .mov8MemReg => .addrReg
  | .calLit => .addr
  | .calReg => .reg
  | .ret => .none
  | .hlt => .none

/-- The operand schema of each opcode: the kinds of its operands in order (30_encoding R60, R66). -/
def Opcode.schema (op : Opcode) : List OperandKind := op.format.schema

/-- How many bytes an operand kind takes (30_encoding R61). -/
def OperandKind.width : OperandKind → Nat
  | .reg => 1
  | .lit8 => 1
  | .lit16 => 2
  | .addr8 => 1
  | .addr16 => 2

/-- The size recorded in the opcode table, one opcode byte and the operand widths
(30_encoding R60, R65). Execution never reads it. -/
def Opcode.size (op : Opcode) : Nat := 1 + (op.schema.map OperandKind.width).sum

/-- The default `OPCODE_MAP` (30_encoding R67, D1), in table order. -/
def OpcodeMap.reference : OpcodeMap :=
  { codes := #v[
      0x00, 0x10, 0x11, 0x12, 0x13, 0x14, 0x15, 0x16, 0x17, 0x18,
      0x1A, 0x1B, 0x1C, 0x1D, 0x1E, 0x1F, 0x20, 0x21, 0x26, 0x27,
      0x2A, 0x2B, 0x2E, 0x2F, 0x30, 0x31, 0x32, 0x33, 0x34, 0x35,
      0x36, 0x3E, 0x3F, 0x40, 0x41, 0x42, 0x43, 0x44, 0x45, 0x46,
      0x47, 0x48, 0x49, 0x50, 0x51, 0x52, 0x5E, 0x5F, 0x60, 0xFF] }

/-- The opcode byte a map gives an opcode. -/
def OpcodeMap.code (m : OpcodeMap) (op : Opcode) : Byte := m.codes[op.index]

/-- The opcode that a byte is the code of, or `none` where the byte is illegal (30_encoding R68).
An opcode map gives two opcodes two bytes (R67); of a map that did not, the first in table order is
taken. -/
def OpcodeMap.lookup (m : OpcodeMap) (b : Byte) : Option Opcode :=
  Opcode.all.find? (fun op => m.code op == b)

/-! ## The instruction of an opcode and its operand values -/

/-- The instruction that an opcode and the values of its operands, in schema order, make
(30_encoding R66). -/
def Opcode.assemble (op : Opcode) (os : List Word) : Instr :=
  let o := fun k => os.getD k 0
  match op with
  | .nop => .nop
  | .movLitReg => .movLitReg (o 0) ((o 1).toNat)
  | .movRegReg => .movRegReg ((o 0).toNat) ((o 1).toNat)
  | .movRegMem => .movRegMem ((o 0).toNat) (o 1)
  | .movMemReg => .movMemReg (o 0) ((o 1).toNat)
  | .addRegReg => .addRegReg ((o 0).toNat) ((o 1).toNat)
  | .jmpNotEq => .jmpNotEq (o 0) (o 1)
  | .subLitReg => .subLitReg (o 0) ((o 1).toNat)
  | .pshLit => .pshLit (o 0)
  | .pshReg => .pshReg ((o 0).toNat)
  | .pop => .pop ((o 0).toNat)
  | .movLitMem => .movLitMem (o 0) (o 1)
  | .movRegPtrReg => .movRegPtrReg ((o 0).toNat) ((o 1).toNat)
  | .movLitOffReg => .movLitOffReg (o 0) ((o 1).toNat) ((o 2).toNat)
  | .subRegLit => .subRegLit ((o 0).toNat) (o 1)
  | .subRegReg => .subRegReg ((o 0).toNat) ((o 1).toNat)
  | .mulLitReg => .mulLitReg (o 0) ((o 1).toNat)
  | .mulRegReg => .mulRegReg ((o 0).toNat) ((o 1).toNat)
  | .lshRegLit => .lshRegLit ((o 0).toNat) (lowByte (o 1))
  | .lshRegReg => .lshRegReg ((o 0).toNat) ((o 1).toNat)
  | .rshRegLit => .rshRegLit ((o 0).toNat) (lowByte (o 1))
  | .rshRegReg => .rshRegReg ((o 0).toNat) ((o 1).toNat)
  | .andRegLit => .andRegLit ((o 0).toNat) (o 1)
  | .andRegReg => .andRegReg ((o 0).toNat) ((o 1).toNat)
  | .orRegLit => .orRegLit ((o 0).toNat) (o 1)
  | .orRegReg => .orRegReg ((o 0).toNat) ((o 1).toNat)
  | .xorRegLit => .xorRegLit ((o 0).toNat) (o 1)
  | .xorRegReg => .xorRegReg ((o 0).toNat) ((o 1).toNat)
  | .notReg => .notReg ((o 0).toNat)
  | .incReg => .incReg ((o 0).toNat)
  | .decReg => .decReg ((o 0).toNat)
  | .jeqReg => .jeqReg ((o 0).toNat) (o 1)
  | .addLitReg => .addLitReg (o 0) ((o 1).toNat)
  | .jneReg => .jneReg ((o 0).toNat) (o 1)
  | .jeqLit => .jeqLit (o 0) (o 1)
  | .jltReg => .jltReg ((o 0).toNat) (o 1)
  | .jltLit => .jltLit (o 0) (o 1)
  | .jgtReg => .jgtReg ((o 0).toNat) (o 1)
  | .jgtLit => .jgtLit (o 0) (o 1)
  | .jleReg => .jleReg ((o 0).toNat) (o 1)
  | .jleLit => .jleLit (o 0) (o 1)
  | .jgeReg => .jgeReg ((o 0).toNat) (o 1)
  | .jgeLit => .jgeLit (o 0) (o 1)
  | .mov8LitMem => .mov8LitMem (lowByte (o 0)) (o 1)
  | .mov8RegMem => .mov8RegMem ((o 0).toNat) (o 1)
  | .mov8MemReg => .mov8MemReg (o 0) ((o 1).toNat)
  | .calLit => .calLit (o 0)
  | .calReg => .calReg ((o 0).toNat)
  | .ret => .ret
  | .hlt => .hlt

/-- The opcode of an instruction. -/
def Instr.opcode : Instr → Opcode
  | .nop => .nop
  | .movLitReg _ _ => .movLitReg
  | .movRegReg _ _ => .movRegReg
  | .movRegMem _ _ => .movRegMem
  | .movMemReg _ _ => .movMemReg
  | .addRegReg _ _ => .addRegReg
  | .jmpNotEq _ _ => .jmpNotEq
  | .subLitReg _ _ => .subLitReg
  | .pshLit _ => .pshLit
  | .pshReg _ => .pshReg
  | .pop _ => .pop
  | .movLitMem _ _ => .movLitMem
  | .movRegPtrReg _ _ => .movRegPtrReg
  | .movLitOffReg _ _ _ => .movLitOffReg
  | .subRegLit _ _ => .subRegLit
  | .subRegReg _ _ => .subRegReg
  | .mulLitReg _ _ => .mulLitReg
  | .mulRegReg _ _ => .mulRegReg
  | .lshRegLit _ _ => .lshRegLit
  | .lshRegReg _ _ => .lshRegReg
  | .rshRegLit _ _ => .rshRegLit
  | .rshRegReg _ _ => .rshRegReg
  | .andRegLit _ _ => .andRegLit
  | .andRegReg _ _ => .andRegReg
  | .orRegLit _ _ => .orRegLit
  | .orRegReg _ _ => .orRegReg
  | .xorRegLit _ _ => .xorRegLit
  | .xorRegReg _ _ => .xorRegReg
  | .notReg _ => .notReg
  | .incReg _ => .incReg
  | .decReg _ => .decReg
  | .jeqReg _ _ => .jeqReg
  | .addLitReg _ _ => .addLitReg
  | .jneReg _ _ => .jneReg
  | .jeqLit _ _ => .jeqLit
  | .jltReg _ _ => .jltReg
  | .jltLit _ _ => .jltLit
  | .jgtReg _ _ => .jgtReg
  | .jgtLit _ _ => .jgtLit
  | .jleReg _ _ => .jleReg
  | .jleLit _ _ => .jleLit
  | .jgeReg _ _ => .jgeReg
  | .jgeLit _ _ => .jgeLit
  | .mov8LitMem _ _ => .mov8LitMem
  | .mov8RegMem _ _ => .mov8RegMem
  | .mov8MemReg _ _ => .mov8MemReg
  | .calLit _ => .calLit
  | .calReg _ => .calReg
  | .ret => .ret
  | .hlt => .hlt

/-- The values of an instruction's operands, in schema order. -/
def Instr.operands : Instr → List Word
  | .nop => []
  | .movLitReg lit reg => [lit, BitVec.ofNat 16 reg]
  | .movRegReg src dst => [BitVec.ofNat 16 src, BitVec.ofNat 16 dst]
  | .movRegMem reg addr => [BitVec.ofNat 16 reg, addr]
  | .movMemReg addr reg => [addr, BitVec.ofNat 16 reg]
  | .addRegReg ra rb => [BitVec.ofNat 16 ra, BitVec.ofNat 16 rb]
  | .jmpNotEq lit addr => [lit, addr]
  | .subLitReg lit reg => [lit, BitVec.ofNat 16 reg]
  | .pshLit lit => [lit]
  | .pshReg reg => [BitVec.ofNat 16 reg]
  | .pop reg => [BitVec.ofNat 16 reg]
  | .movLitMem lit addr => [lit, addr]
  | .movRegPtrReg ptr dst => [BitVec.ofNat 16 ptr, BitVec.ofNat 16 dst]
  | .movLitOffReg base off dst => [base, BitVec.ofNat 16 off, BitVec.ofNat 16 dst]
  | .subRegLit reg lit => [BitVec.ofNat 16 reg, lit]
  | .subRegReg ra rb => [BitVec.ofNat 16 ra, BitVec.ofNat 16 rb]
  | .mulLitReg lit reg => [lit, BitVec.ofNat 16 reg]
  | .mulRegReg ra rb => [BitVec.ofNat 16 ra, BitVec.ofNat 16 rb]
  | .lshRegLit reg lit8 => [BitVec.ofNat 16 reg, zext16 lit8]
  | .lshRegReg ra rb => [BitVec.ofNat 16 ra, BitVec.ofNat 16 rb]
  | .rshRegLit reg lit8 => [BitVec.ofNat 16 reg, zext16 lit8]
  | .rshRegReg ra rb => [BitVec.ofNat 16 ra, BitVec.ofNat 16 rb]
  | .andRegLit reg lit => [BitVec.ofNat 16 reg, lit]
  | .andRegReg ra rb => [BitVec.ofNat 16 ra, BitVec.ofNat 16 rb]
  | .orRegLit reg lit => [BitVec.ofNat 16 reg, lit]
  | .orRegReg ra rb => [BitVec.ofNat 16 ra, BitVec.ofNat 16 rb]
  | .xorRegLit reg lit => [BitVec.ofNat 16 reg, lit]
  | .xorRegReg ra rb => [BitVec.ofNat 16 ra, BitVec.ofNat 16 rb]
  | .notReg reg => [BitVec.ofNat 16 reg]
  | .incReg reg => [BitVec.ofNat 16 reg]
  | .decReg reg => [BitVec.ofNat 16 reg]
  | .jeqReg reg addr => [BitVec.ofNat 16 reg, addr]
  | .addLitReg lit reg => [lit, BitVec.ofNat 16 reg]
  | .jneReg reg addr => [BitVec.ofNat 16 reg, addr]
  | .jeqLit lit addr => [lit, addr]
  | .jltReg reg addr => [BitVec.ofNat 16 reg, addr]
  | .jltLit lit addr => [lit, addr]
  | .jgtReg reg addr => [BitVec.ofNat 16 reg, addr]
  | .jgtLit lit addr => [lit, addr]
  | .jleReg reg addr => [BitVec.ofNat 16 reg, addr]
  | .jleLit lit addr => [lit, addr]
  | .jgeReg reg addr => [BitVec.ofNat 16 reg, addr]
  | .jgeLit lit addr => [lit, addr]
  | .mov8LitMem lit8 addr => [zext16 lit8, addr]
  | .mov8RegMem reg addr => [BitVec.ofNat 16 reg, addr]
  | .mov8MemReg addr reg => [addr, BitVec.ofNat 16 reg]
  | .calLit addr => [addr]
  | .calReg reg => [BitVec.ofNat 16 reg]
  | .ret => []
  | .hlt => []

/-! ## Decoding -/

/-- Why a byte sequence is no instruction. -/
inductive DecodeError where
  /-- The first byte is the code of no instruction (30_encoding R68). -/
  | illegalOpcode (b : Byte)
  /-- The sequence ends before the opcode byte or before an operand of this kind. -/
  | truncated (missing : Option OperandKind)
  deriving DecidableEq, Repr

/-- One operand of a kind at the head of a byte sequence: the value delivered to the handler and
the bytes left (30_encoding R61, R63). -/
def decodeOperand : OperandKind → List Byte → Except DecodeError (Word × List Byte)
  | .reg, b :: rest => .ok (BitVec.ofNat 16 (regOfByte b), rest)
  | .lit8, b :: rest => .ok (zext16 b, rest)
  | .addr8, b :: rest => .ok (zext16 b, rest)
  | .lit16, hi :: lo :: rest => .ok (joinBytes hi lo, rest)
  | .addr16, hi :: lo :: rest => .ok (joinBytes hi lo, rest)
  | k, _ => .error (.truncated (some k))

/-- The operands of a schema, left to right (30_encoding R66). -/
def decodeOperands : List OperandKind → List Byte → Except DecodeError (List Word × List Byte)
  | [], bs => .ok ([], bs)
  | k :: ks, bs =>
    match decodeOperand k bs with
    | .error e => .error e
    | .ok (v, rest) =>
      match decodeOperands ks rest with
      | .error e => .error e
      | .ok (vs, left) => .ok (v :: vs, left)

/-- The instruction at the head of a byte sequence, under an opcode map, and the bytes after it
(30_encoding R60, R66, R70). -/
def decodeWith (m : OpcodeMap) : List Byte → Except DecodeError (Instr × List Byte)
  | [] => .error (.truncated none)
  | b :: rest =>
    match m.lookup b with
    | none => .error (.illegalOpcode b)
    | some op =>
      match decodeOperands op.schema rest with
      | .error e => .error e
      | .ok (os, left) => .ok (op.assemble os, left)

/-- The decoder of the default opcode map. -/
def decode (bs : List Byte) : Except DecodeError (Instr × List Byte) :=
  decodeWith OpcodeMap.reference bs

/-! ## Encoding -/

/-- The bytes of one operand value of a kind (30_encoding R61, R64): a register as its index. -/
def encodeOperand (k : OperandKind) (v : Word) : List Byte :=
  match k with
  | .reg => [lowByte v]
  | .lit8 => [lowByte v]
  | .addr8 => [lowByte v]
  | .lit16 => [highByte v, lowByte v]
  | .addr16 => [highByte v, lowByte v]

/-- The bytes of the operand values of a schema, in order, nothing between them. -/
def encodeOperands : List OperandKind → List Word → List Byte
  | [], _ => []
  | k :: ks, vs => encodeOperand k (vs.headD 0) ++ encodeOperands ks vs.tail

/-- The bytes of an instruction under an opcode map, the register operands in their canonical
encoding `0..11` (30_encoding R60, R63). -/
def encodeWith (m : OpcodeMap) (i : Instr) : List Byte :=
  m.code i.opcode :: encodeOperands i.opcode.schema i.operands

/-- The encoder of the default opcode map. -/
def encode (i : Instr) : List Byte := encodeWith OpcodeMap.reference i

/-! ## The host's numbering of instruction bits -/

/-- The five bytes, one per byte of the longest instruction, of an instruction whose bits are `w`,
bit 0 the least significant bit of the first byte; bits from `nbits` up are 0. -/
def tableBytes (nbits w : Nat) : List Byte :=
  (List.range 5).map (fun k => BitVec.ofNat 8 (w % 2 ^ nbits / 256 ^ k))

/-- The instruction the decoder reads from the instruction word `w` of the opcode table. -/
def decodeTableWord (nbits w : Nat) : Option Instr :=
  match decode (tableBytes nbits w) with
  | .ok (i, _) => some i
  | .error _ => none

end Sys2Proof
end

