-- ==== Sys2Proof/Machine/Memory.lean ====
section
/-! DEFINITION. The contents of a RAM device and the two kinds of device (20_memory R30 to R34). A
RAM's bytes are kept as the list of the cells that differ from what an unlisted address reads as,
addresses strictly rising: equal contents are equal lists. -/

namespace Sys2Proof.Machine

/-- The bytes of a RAM device by device-local address, in canonical form (`Memory.wf`). -/
abbrev Memory := List Host.Cell

/-- What an address that no cell lists reads as: the reference `INIT_MEM` (10_state R26, D7).
DESIGN CHOICE, unsafe (log entry 2). -/
def Memory.unlisted : Byte := 0

/-- The byte at an address. -/
def Memory.read : Memory → Nat → Byte
  | [], _ => Memory.unlisted
  | (k, v) :: rest, a => if k = a then v else Memory.read rest a

/-- The contents with no cell at an address. -/
def Memory.erase (m : Memory) (a : Nat) : Memory := m.filter (fun c => c.1 != a)

/-- The contents with a cell put before the first cell of a higher or the same address. -/
def Memory.insert : Memory → Nat → Byte → Memory
  | [], a, b => [(a, b)]
  | (k, v) :: rest, a, b =>
    if k < a then (k, v) :: Memory.insert rest a b else (a, b) :: (k, v) :: rest

/-- The contents after one byte is stored; the canonical form is kept. -/
def Memory.write (m : Memory) (a : Nat) (b : Byte) : Memory :=
  if b = Memory.unlisted then m.erase a else (m.erase a).insert a b

/-- The canonical form: addresses strictly rising from `low` up, and no cell that an unlisted
address would read as. -/
def Memory.wfFrom : Nat → Memory → Bool
  | _, [] => true
  | low, (k, v) :: rest => decide (low ≤ k) && decide (v ≠ Memory.unlisted) && Memory.wfFrom (k + 1) rest

/-- The canonical form of a memory. -/
def Memory.wf (m : Memory) : Bool := Memory.wfFrom 0 m

/-- Every cell lies inside a device of `n` bytes. -/
def Memory.fits (n : Nat) (m : Memory) : Bool := m.all (fun c => decide (c.1 < n))

/-- The width of a memory access: 1 or 2 bytes (20_memory R44). -/
inductive Width where
  | w8 | w16
  deriving DecidableEq, Repr

/-- A width in bytes. -/
def Width.bytes : Width → Nat
  | .w8 => 1
  | .w16 => 2

/-- `get8` and `get16` of a RAM device after the bounds check, big-endian, a byte with the high byte
zero (20_memory R33, R34). -/
def Memory.get (m : Memory) (a : Nat) : Width → Word
  | .w8 => zext16 (m.read a)
  | .w16 => joinBytes (m.read a) (m.read (a + 1))

/-- `set8` and `set16` of a RAM device after the bounds check: the low byte, or both bytes
big-endian (20_memory R33, R34). -/
def Memory.set (m : Memory) (a : Nat) (v : Word) : Width → Memory
  | .w8 => m.write a (lowByte v)
  | .w16 => (m.write a (highByte v)).write (a + 1) (lowByte v)

/-- A device (20_memory R30). -/
inductive Device where
  /-- A RAM device of `size` bytes (R31). -/
  | ram (size : Nat) (mem : Memory)
  /-- A peripheral, whose inside is not part of the core (R54). -/
  | peripheral
  deriving DecidableEq, Repr

/-- What no access changes of a device: its kind, and a RAM's length (20_memory R31). -/
def Device.shape : Device → Option Nat
  | .ram size _ => some size
  | .peripheral => none

/-- A RAM device's contents are canonical and lie inside the device. -/
def Device.wf : Device → Bool
  | .ram size mem => mem.wf && mem.fits size
  | .peripheral => true

/-- A RAM device of `size` bytes, all as unlisted. -/
def Device.emptyRam (size : Nat) : Device := .ram size []

end Sys2Proof.Machine
end

