-- ==== Sys2Proof/Machine/Mapper.lean ====
section
/-! DEFINITION. The region mapper (20_memory R35 to R38, R41): an ordered list of regions, the most
recently added first, and the translation of a global address. -/

namespace Sys2Proof.Machine

/-- A region: the inclusive range `[start, last]` of global addresses at which a device is visible
(20_memory R35). The device is named by its place in the list of devices. -/
structure Region where
  device : Nat
  start : Nat
  last : Nat
  /-- Whether `start` is subtracted to give the device-local address. -/
  remap : Bool
  deriving DecidableEq, Repr

/-- A region with the token that `map` returned for it (20_memory R36). -/
structure Mapping where
  token : Nat
  region : Region
  deriving DecidableEq, Repr

/-- The mapper: `REGIONS`, most recently added first, and the token the next `map` returns. -/
structure Mapper where
  mappings : List Mapping
  nextToken : Nat
  deriving DecidableEq, Repr

/-- The bounds a region has: `0 ≤ start ≤ last ≤ 0xFFFF` (20_memory R35, D25). -/
def Region.wf (r : Region) : Bool := decide (r.start ≤ r.last) && decide (r.last ≤ 0xFFFF)

/-- Whether an address lies in a region's range. -/
def Region.covers (r : Region) (addr : Nat) : Bool :=
  decide (r.start ≤ addr) && decide (addr ≤ r.last)

/-- The device-local address of a global address of the region (20_memory R38). -/
def Region.localAddr (r : Region) (addr : Nat) : Nat :=
  if r.remap then addr - r.start else addr

/-- The regions, most recently added first. -/
def Mapper.regions (m : Mapper) : List Region := m.mappings.map Mapping.region

/-- `findRegion`: the first region of the list that covers the address (20_memory R37). -/
def Mapper.find (m : Mapper) (addr : Nat) : Option Region :=
  m.regions.find? (fun r => r.covers addr)

/-- The mapper's byte length: the greatest `last + 1`, or 0 if there is no region (20_memory R41). -/
def Mapper.byteLength (m : Mapper) : Nat :=
  m.regions.foldr (fun r n => max (r.last + 1) n) 0

/-- A mapper without regions, as it starts (20_memory R36). -/
def Mapper.empty : Mapper := { mappings := [], nextToken := 0 }

/-- `map(device, start, end, remap)`: a new region at the head of the list (20_memory R36); nothing
is checked. -/
def Mapper.map (m : Mapper) (r : Region) : Mapper :=
  { mappings := { token := m.nextToken, region := r } :: m.mappings, nextToken := m.nextToken + 1 }

/-- Invoking a token removes exactly the region it was returned for (20_memory R36). A token that names
no region of the list, its region removed before or never mapped, removes nothing and is no error; the
spec does not say. DESIGN CHOICE, unsafe (log entry 35). -/
def Mapper.unmap (m : Mapper) (token : Nat) : Mapper :=
  { m with mappings := m.mappings.filter (fun x => x.token != token) }

/-- The reference `MEM_SIZE` (00_scope R4, D24). -/
def referenceMemSize : Nat := 0x10000

/-- The mapper of the reference configuration: device 0 at `[0, MEM_SIZE - 1]`, `remap = true`
(20_memory R46, D23). DESIGN CHOICE of the spec's, the parameter is OPEN (log entry 3). -/
def Mapper.reference (memSize : Nat) : Mapper :=
  Mapper.empty.map { device := 0, start := 0, last := memSize - 1, remap := true }

end Sys2Proof.Machine
end

