-- ==== Sys2Proof/Machine/Flags.lean ====
section
/-! DEFINITION. The result functions of the arithmetic, logic, shift and comparison instructions.
The TS-16 has no flags (10_state R20): no instruction records a carry, a zero, a sign or an
overflow, and a comparison jump compares its operand with `acc` when it executes. -/

namespace Sys2Proof.Machine

/-- `trunc16(v)`: the residue of an integer modulo 65536 (00_scope R5). -/
def trunc16 (v : Int) : Word := BitVec.ofInt 16 v

/-- Addition, the carry lost (42_arithmetic R110). -/
def add16 (a b : Word) : Word := trunc16 ((a.toNat : Int) + (b.toNat : Int))

/-- First operand minus second, the borrow lost (42_arithmetic R110, D12; log entry 12). -/
def sub16 (a b : Word) : Word := trunc16 ((a.toNat : Int) - (b.toNat : Int))

/-- The low 16 bits of the unsigned product (42_arithmetic R110). -/
def mul16 (a b : Word) : Word := trunc16 ((a.toNat : Int) * (b.toNat : Int))

/-- Bitwise and (43_logic_shift R121, R122). -/
def and16 (a b : Word) : Word := a &&& b

/-- Bitwise or (43_logic_shift R123, R124). -/
def or16 (a b : Word) : Word := a ||| b

/-- Bitwise exclusive or (43_logic_shift R125, R126). -/
def xor16 (a b : Word) : Word := a ^^^ b

/-- The complement within 16 bits, `0xFFFF - v` (43_logic_shift R127). -/
def not16 (v : Word) : Word := trunc16 (0xFFFF - (v.toNat : Int))

/-- `lsh16(v, n)`: 0 for a count of 16 or more, the count not reduced (43_logic_shift R128, D14; log
entry 13). -/
def lsh16 (v : Word) (n : Nat) : Word :=
  if n < 16 then trunc16 ((v.toNat * 2 ^ n : Nat) : Int) else 0

/-- `rsh16(v, n)`: logical, 0 for a count of 16 or more (43_logic_shift R128, D14, D15; log entry 13). -/
def rsh16 (v : Word) (n : Nat) : Word :=
  if n < 16 then trunc16 ((v.toNat / 2 ^ n : Nat) : Int) else 0

/-- The relation a comparison jump names (45_jumps R145). -/
inductive Relation where
  | eq | ne | lt | gt | le | ge
  deriving DecidableEq, Repr

/-- `v REL acc` over unsigned integers, the operand on the left (45_jumps R145 (a), (b), D16, D17; log
entry 14). -/
def Relation.holds (rel : Relation) (v acc : Word) : Bool :=
  match rel with
  | .eq => decide (v.toNat = acc.toNat)
  | .ne => decide (v.toNat ≠ acc.toNat)
  | .lt => decide (v.toNat < acc.toNat)
  | .gt => decide (v.toNat > acc.toNat)
  | .le => decide (v.toNat ≤ acc.toNat)
  | .ge => decide (v.toNat ≥ acc.toNat)

end Sys2Proof.Machine
end

