-- ==== Sys2Proof/Machine/Registers.lean ====
section
/-! DEFINITION. The register file, the register indices and names (10_state R10), and the values
reset gives the registers (10_state R26, 70_reset_and_hazards R210). -/

namespace Sys2Proof.Machine

/-- The twelve registers by index. -/
abbrev RegFile := Vector Word 12

/-- Index of the program counter. -/
abbrev ipIdx : Nat := 0
/-- Index of the accumulator. -/
abbrev accIdx : Nat := 1
/-- Index of the stack pointer. -/
abbrev spIdx : Nat := 10
/-- Index of the frame pointer. -/
abbrev fpIdx : Nat := 11

/-- The indices of `r1`, …, `r8`, in that order. -/
def savedRegs : List Nat := [2, 3, 4, 5, 6, 7, 8, 9]

/-- The register names, in index order (10_state R10). -/
def registerNames : List String :=
  ["ip", "acc", "r1", "r2", "r3", "r4", "r5", "r6", "r7", "r8", "sp", "fp"]

/-- The index of a register name, or `none` where no register has it (60_exceptions R184). -/
def registerIndex (name : String) : Option Nat := registerNames.findIdx? (fun n => n == name)

/-- The default parameters (00_scope R4): the default opcode map, `IP_RESET = 0`, `INIT_GPR` all 0.
DESIGN CHOICE of the spec's, the parameters are OPEN (log entries 1, 4, 5). -/
def Params.reference : Params :=
  { opcodeMap := OpcodeMap.reference, ipReset := 0, initGpr := Vector.replicate 9 0 }

/-- The registers after reset: `ip` from `IP_RESET`, `acc` and `r1`, …, `r8` from `INIT_GPR`, `sp`
and `fp` at `trunc16(MEM_SIZE - 2)` (10_state R26, 70_reset_and_hazards R210). -/
def resetRegs (p : Params) (memSize : Nat) : RegFile :=
  let top := trunc16 ((memSize : Int) - 2)
  #v[p.ipReset, p.initGpr[0], p.initGpr[1], p.initGpr[2], p.initGpr[3], p.initGpr[4],
    p.initGpr[5], p.initGpr[6], p.initGpr[7], p.initGpr[8], top, top]

end Sys2Proof.Machine
end

