-- ==== Sys2Proof/Machine/State.lean ====
section
/-! DEFINITION. The state of the machine (10_state R25), the fault records (60_exceptions R180), the
refusals, and the state after reset. -/

namespace Sys2Proof.Machine

/-- The direction of an access that a peripheral refused (60_exceptions R180). -/
inductive Direction where
  | read | write
  deriving DecidableEq, Repr

/-- A fault record (60_exceptions R180). A fault is no end of the model: the meaning that raises one
answers the NEXT state, in which the record stands in the run state (R187), so the partial effects
that R188 fixes are in that state. Raising one is safe: it is what the spec says happens. -/
inductive Fault where
  /-- No region covers the global address; raised by `findRegion` on any read, write or fetch (R181).
  Safe. -/
  | unmappedAddress (addr : Nat)
  /-- The access exceeds a RAM device of `size` bytes; raised by the device's bounds check (R182).
  Safe. -/
  | outOfRange (localAddr width size : Nat)
  /-- The index is not in `0..11`; raised by the register file's validation, which no instruction the
  decoder answers can fail (R183). Safe. -/
  | invalidRegister (i : Nat)
  /-- The name is none of the twelve; raised by the host's by-name access only (R184). Safe. -/
  | unknownRegisterName (name : String)
  /-- The byte fetched as an opcode from `addr` is the code of no instruction; raised by the step
  (R185, D8). Safe: the source leaves the case out, and the machine stops. -/
  | illegalOpcode (op : Byte) (addr : Word)
  /-- A peripheral refuses the access; raised by a device access (R186). Safe. -/
  | deviceFault (device localAddr width : Nat) (dir : Direction)
  deriving DecidableEq, Repr

/-- Why a step is not taken. -/
inductive Refusal where
  /-- An instruction without a meaning; raised by no arm of this model. Safe. -/
  | notModelled (mnemonic : String)
  /-- The core is `HALTED` and executes nothing (10_state R19, D9); raised by the step. Safe. -/
  | halted
  /-- The core is `FAULTED` with this record and executes nothing (10_state R19, D10); raised by the
  step. Safe. -/
  | faulted (f : Fault)
  deriving DecidableEq, Repr

/-- The run state (10_state R19). -/
inductive RunState where
  | running
  | halted
  | faulted (f : Fault)
  deriving DecidableEq, Repr

/-- A write to a peripheral as the outside sees it (20_memory R54). -/
structure DeviceEvent where
  device : Nat
  localAddr : Nat
  width : Nat
  value : Word
  deriving DecidableEq, Repr

/-- The state of the machine (10_state R25), its configuration (00_scope R4) and the model's two
fields for peripherals. -/
structure State where
  /-- `x[0..11]` (10_state R10). -/
  regs : RegFile
  /-- `currentFrameBytes` (10_state R18). -/
  cfb : Word
  /-- The run state (10_state R19). -/
  run : RunState
  /-- The devices: the contents of the RAMs are `mem` of 10_state R25, the rest is configuration. -/
  devices : List Device
  /-- `REGIONS`, configuration (20_memory R36). -/
  mapper : Mapper
  /-- The other open parameters, configuration (00_scope R4). -/
  params : Params
  /-- The writes that peripherals took, oldest first (20_memory R54). The model's own field. -/
  events : List DeviceEvent
  /-- How many accesses to peripherals were made, the argument of their free answers. The model's own
  field (log entry 7). -/
  accesses : Nat
  deriving DecidableEq, Repr

/-- The machine right after reset in the reference configuration (10_state R26, 20_memory R46): no
program is loaded. -/
def State.reset : State :=
  { regs := resetRegs Params.reference (Mapper.reference referenceMemSize).byteLength
    cfb := 0
    run := .running
    devices := [Device.emptyRam referenceMemSize]
    mapper := Mapper.reference referenceMemSize
    params := Params.reference
    events := []
    accesses := 0 }

end Sys2Proof.Machine
end

