-- ==== Sys2Proof/Machine/Ops.lean ====
section
/-! DEFINITION. The named operations over registers, memory, the stack and the run state (00_scope
R6). An operation answers a value and a state, or a fault and the state at the faulting statement:
what was written before it stands (00_scope R7). -/

namespace Sys2Proof.Machine

/-- A computation of an instruction: statements in order, stopping at the first fault (00_scope R7). -/
abbrev Exec (α : Type) := EStateM Fault State α

/-- The outcome of a step or of an instruction's meaning. -/
abbrev Result := Host.Outcome State Fault Refusal

/-! ## The updates of a state -/

/-- The value of register `i`. -/
def State.reg (s : State) (i : Nat) : Word := s.regs[i]?.getD 0

/-- The state with register `i` set. -/
def State.setReg (s : State) (i : Nat) (v : Word) : State :=
  { s with regs := s.regs.setIfInBounds i v }

/-- The state with `cfb` set. -/
def State.withCfb (s : State) (v : Word) : State := { s with cfb := v }

/-- The state with the run state set. -/
def State.withRun (s : State) (v : RunState) : State := { s with run := v }

/-- The device at a place of the device list; a place with none is a RAM of no bytes (log entry 9). -/
def State.device (s : State) (d : Nat) : Device := s.devices[d]?.getD (.ram 0 [])

/-- The state with one RAM device's contents replaced. -/
def State.setRam (s : State) (d size : Nat) (mem : Memory) : State :=
  { s with devices := s.devices.set d (.ram size mem) }

/-- The state after one more access to a peripheral. -/
def State.countAccess (s : State) : State := { s with accesses := s.accesses + 1 }

/-- The state with one more write that a peripheral took (20_memory R54). -/
def State.logEvent (s : State) (e : DeviceEvent) : State := { s with events := s.events ++ [e] }

/-! ## Taking a fault -/

/-- `raise F(info)`: the instruction stops at this statement (60_exceptions R187). -/
def raise {α : Type} (f : Fault) : Exec α := fun s => .error f s

/-- TAKING A FAULT (60_exceptions R187): the run state becomes `FAULTED` with the record; no state is
saved, no vector is read, `ip` is not redirected. There is no return from a fault (R192): only the
host's reset leaves `FAULTED`. -/
def takeFault (f : Fault) (s : State) : State := s.withRun (.faulted f)

/-- The outcome of an instruction's statements: the state they reach, or, where one raised a fault,
the state at that statement with the fault taken (60_exceptions R187, R188). -/
def finish (m : Exec Unit) (s : State) : Result :=
  match m s with
  | .ok _ t => .next t
  | .error f t => .next (takeFault f t)

/-! ## Registers -/

/-- `RegRead(i)`, with its validation (10_state R11). -/
def regRead (i : Nat) : Exec Word := fun s =>
  if i < 12 then .ok (s.reg i) s else .error (.invalidRegister i) s

/-- `RegWrite(i, v)`, with its validation (10_state R11). -/
def regWrite (i : Nat) (v : Word) : Exec Unit := fun s =>
  if i < 12 then .ok () (s.setReg i v) else .error (.invalidRegister i) s

/-! ## The frame-byte counter and the run state -/

/-- `cfb <- v`. -/
def setCfb (v : Word) : Exec Unit := fun s => .ok () (s.withCfb v)

/-- `cfb <- trunc16(cfb + k)` (10_state R18). -/
def addCfb (k : Int) : Exec Unit := fun s =>
  .ok () (s.withCfb (trunc16 ((s.cfb.toNat : Int) + k)))

/-- `cfb`. -/
def getCfb : Exec Word := fun s => .ok s.cfb s

/-- `run <- v`. -/
def setRun (v : RunState) : Exec Unit := fun s => .ok () (s.withRun v)

/-! ## Memory -/

/-- The answer of a peripheral narrowed to the width of the access: any `u8` or any `u16` (20_memory
R54). -/
def answerOf (v : Word) : Width → Word
  | .w8 => zext16 (lowByte v)
  | .w16 => v

/-- `findRegion` (20_memory R37). -/
def findRegion (addr : Nat) : Exec Region := fun s =>
  match s.mapper.find addr with
  | some r => .ok r s
  | none => .error (.unmappedAddress addr) s

/-- `get8` and `get16` of a device: a RAM checks its bounds first (20_memory R32 to R34), a peripheral
answers what it will or refuses (R54). -/
def deviceGet (d a : Nat) (w : Width) : Exec Word := fun s =>
  match s.device d with
  | .ram size mem =>
    if a + w.bytes ≤ size then .ok (mem.get a w) s
    else .error (.outOfRange a w.bytes size) s
  | .peripheral =>
    match Config.peripheralRead s.accesses d a w.bytes with
    | some v => .ok (answerOf v w) s.countAccess
    | none => .error (.deviceFault d a w.bytes .read) s.countAccess

/-- `set8` and `set16` of a device: a RAM checks its bounds before it changes a byte (20_memory R32
to R34), a peripheral takes the write as an event or refuses it (R54). -/
def deviceSet (d a : Nat) (w : Width) (v : Word) : Exec Unit := fun s =>
  match s.device d with
  | .ram size mem =>
    if a + w.bytes ≤ size then .ok () (s.setRam d size (mem.set a v w))
    else .error (.outOfRange a w.bytes size) s
  | .peripheral =>
    if Config.peripheralAccepts s.accesses d a w.bytes v then
      .ok () (s.countAccess.logEvent { device := d, localAddr := a, width := w.bytes, value := v })
    else .error (.deviceFault d a w.bytes .write) s.countAccess

/-- `MemRead(addr, n)`: one access, resolved once by its first address (20_memory R39, R40). -/
def memRead (addr : Nat) (w : Width) : Exec Word := do
  let r ← findRegion addr
  deviceGet r.device (r.localAddr addr) w

/-- `MemWrite(addr, n, v)`: one access, resolved once by its first address (20_memory R39, R40). -/
def memWrite (addr : Nat) (w : Width) (v : Word) : Exec Unit := do
  let r ← findRegion addr
  deviceSet r.device (r.localAddr addr) w v

/-! ## What an address reads, without an access -/

/-- Where a global address leads: the device and the device-local address (20_memory R37, R38). -/
def State.resolve (s : State) (addr : Nat) : Option (Nat × Nat) :=
  (s.mapper.find addr).map (fun r => (r.device, r.localAddr addr))

/-- Byte `a` of device `d`, where that is a byte of a RAM. -/
def State.deviceByte (s : State) (d a : Nat) : Option Byte :=
  match s.device d with
  | .ram size mem => if a < size then some (mem.read a) else none
  | .peripheral => none

/-- The byte a one-byte read of a global address gives, where the address leads to RAM. -/
def State.byteAt (s : State) (addr : Nat) : Option Byte :=
  match s.resolve addr with
  | some (d, a) => s.deviceByte d a
  | none => none

/-- What a read of a width at a global address gives, where the access succeeds in RAM. -/
def State.readAt (s : State) (addr : Nat) (w : Width) : Option Word :=
  match s.resolve addr with
  | some (d, a) =>
    match s.device d with
    | .ram size mem => if a + w.bytes ≤ size then some (mem.get a w) else none
    | .peripheral => none
  | none => none

/-- The state after a write of a width that succeeds in RAM; the same state where it would not. -/
def State.store (s : State) (addr : Nat) (w : Width) (v : Word) : State :=
  match s.resolve addr with
  | some (d, a) =>
    match s.device d with
    | .ram size mem => if a + w.bytes ≤ size then s.setRam d size (mem.set a v w) else s
    | .peripheral => s
  | none => s

/-! ## The stack primitives -/

/-- `Push(v)` (41_stack R100): the word is written at `sp`, then `sp` and `cfb` move. -/
def push (v : Word) : Exec Unit := do
  let a ← regRead spIdx
  memWrite a.toNat .w16 v
  regWrite spIdx (sub16 a 2)
  addCfb 2

/-- `Pop()` (41_stack R101): `sp` and `cfb` move, then the word at the new `sp` is read. -/
def pop : Exec Word := do
  let sp ← regRead spIdx
  let a := add16 sp 2
  regWrite spIdx a
  addCfb (-2)
  memRead a.toNat .w16

end Sys2Proof.Machine
end

