-- ==== Sys2Proof/Machine/Operands.lean ====
section
/-! DEFINITION. Operand and instruction fetch (30_encoding R62, R63, R66): ordinary memory reads at
`ip`, each advancing `ip` after it succeeds. -/

namespace Sys2Proof.Machine

/-- `Fetch8()`: read first, advance second (30_encoding R62, D11). -/
def fetch8 : Exec Byte := do
  let a ← regRead ipIdx
  let v ← memRead a.toNat .w8
  regWrite ipIdx (add16 a 1)
  pure (lowByte v)

/-- `Fetch16()`: one 16-bit read, not two 8-bit ones (30_encoding R62). -/
def fetch16 : Exec Word := do
  let a ← regRead ipIdx
  let v ← memRead a.toNat .w16
  regWrite ipIdx (add16 a 2)
  pure v

/-- `FetchReg()`: one byte modulo 12 (30_encoding R63). -/
def fetchReg : Exec Nat := do
  let b ← fetch8
  pure (regOfByte b)

/-- The fetch of one operand of a kind, and the value delivered to the handler (30_encoding R61). -/
def fetchOperand : OperandKind → Exec Word
  | .reg => do
    let r ← fetchReg
    pure (BitVec.ofNat 16 r)
  | .lit8 => do
    let b ← fetch8
    pure (zext16 b)
  | .addr8 => do
    let b ← fetch8
    pure (zext16 b)
  | .lit16 => fetch16
  | .addr16 => fetch16

/-- The fetch of a schema's operands, left to right (30_encoding R66). -/
def fetchOperands : List OperandKind → Exec (List Word)
  | [] => pure []
  | k :: ks => do
    let v ← fetchOperand k
    let vs ← fetchOperands ks
    pure (v :: vs)

/-- The fetch of a whole instruction: the opcode byte, `IllegalOpcode` where it is the code of none,
then every operand (30_encoding R66, R68). -/
def fetchInstr : Exec Instr := do
  let a0 ← regRead ipIdx
  let b ← fetch8
  let s ← get
  match s.params.opcodeMap.lookup b with
  | none => raise (.illegalOpcode b a0)
  | some op => do
    let os ← fetchOperands op.schema
    pure (op.assemble os)

/-! ## Bytes placed from outside -/

/-- The state with one byte of RAM replaced at a global address; the same state where the address
leads to no RAM byte. -/
def State.poke (s : State) (addr : Nat) (b : Byte) : State := s.store addr .w8 (zext16 b)

/-- The state with bytes placed at consecutive addresses, wrapping at `0xFFFF` as `ip` does
(10_state R13). -/
def State.pokeAll (s : State) (addr : Nat) : List Byte → State
  | [] => s
  | b :: bs => (s.poke (addr % 65536) b).pokeAll (addr + 1) bs

end Sys2Proof.Machine
end

