-- ==== Sys2Proof/Machine/Arithmetic.lean ====
section
/-! DEFINITION. The arithmetic family (42_arithmetic R110 to R117): two operands, the result into
`acc`. -/

namespace Sys2Proof.Machine

/-- `acc <- f(first, second)`, both operands read before `acc` is written (42_arithmetic R110,
43_logic_shift R120). -/
def binaryToAcc (f : Word → Word → Word) (first second : Exec Word) : Exec Unit := do
  let a ← first
  let b ← second
  regWrite accIdx (f a b)

/-- `ADD_REG_REG ra, rb` (42_arithmetic R111). -/
def execAddRegReg (ra rb : Nat) (s : State) : Result :=
  finish (binaryToAcc add16 (regRead ra) (regRead rb)) s

/-- `ADD_LIT_REG lit, reg` (42_arithmetic R112). -/
def execAddLitReg (lit : Word) (reg : Nat) (s : State) : Result :=
  finish (binaryToAcc add16 (pure lit) (regRead reg)) s

/-- `SUB_LIT_REG lit, reg`: literal minus register (42_arithmetic R113, D12; log entry 12). -/
def execSubLitReg (lit : Word) (reg : Nat) (s : State) : Result :=
  finish (binaryToAcc sub16 (pure lit) (regRead reg)) s

/-- `SUB_REG_LIT reg, lit`: register minus literal (42_arithmetic R114, D12; log entry 12). -/
def execSubRegLit (reg : Nat) (lit : Word) (s : State) : Result :=
  finish (binaryToAcc sub16 (regRead reg) (pure lit)) s

/-- `SUB_REG_REG ra, rb`: first register minus second (42_arithmetic R115, D12). -/
def execSubRegReg (ra rb : Nat) (s : State) : Result :=
  finish (binaryToAcc sub16 (regRead ra) (regRead rb)) s

/-- `MUL_LIT_REG lit, reg` (42_arithmetic R116). -/
def execMulLitReg (lit : Word) (reg : Nat) (s : State) : Result :=
  finish (binaryToAcc mul16 (pure lit) (regRead reg)) s

/-- `MUL_REG_REG ra, rb` (42_arithmetic R117). -/
def execMulRegReg (ra rb : Nat) (s : State) : Result :=
  finish (binaryToAcc mul16 (regRead ra) (regRead rb)) s

end Sys2Proof.Machine
end

