-- ==== Sys2Proof/Machine/CallReturn.lean ====
section
/-! DEFINITION. The call sequence and the return (46_call_return R165 to R172). -/

namespace Sys2Proof.Machine

/-- The pushes of a list of registers, in order. -/
def pushRegs : List Nat → Exec Unit
  | [] => pure ()
  | r :: rs => do
    let v ← regRead r
    push v
    pushRegs rs

/-- The pops into a list of registers, in order. -/
def popRegs : List Nat → Exec Unit
  | [] => pure ()
  | r :: rs => do
    let v ← pop
    regWrite r v
    popRegs rs

/-- `repeat n times: Pop()`, each a real read (46_call_return R169, D37). -/
def popDiscard : Nat → Exec Unit
  | 0 => pure ()
  | n + 1 => do
    let _ ← pop
    popDiscard n

/-- `Call(t)` (46_call_return R166). -/
def callTo (target : Word) : Exec Unit := do
  pushRegs savedRegs
  let ret ← regRead ipIdx
  push ret
  let c ← getCfb
  push (add16 c 2)
  let sp ← regRead spIdx
  regWrite fpIdx sp
  setCfb 0
  regWrite ipIdx target

/-- The return sequence (46_call_return R169): the pop of the frame size moves `cfb`, which is then
overwritten; the later pops' decrements stand (D22; log entry 16). -/
def returnSequence : Exec Unit := do
  let f ← regRead fpIdx
  regWrite spIdx f
  let frameSize ← pop
  setCfb frameSize
  let ret ← pop
  regWrite ipIdx ret
  popRegs savedRegs.reverse
  let nArgs ← pop
  popDiscard nArgs.toNat
  regWrite fpIdx (add16 f frameSize)

/-- `CAL_LIT addr` (46_call_return R167). -/
def execCalLit (addr : Word) (s : State) : Result :=
  finish (callTo addr) s

/-- `CAL_REG reg`: the target is read before the first push (46_call_return R168, D38; log entry 17). -/
def execCalReg (reg : Nat) (s : State) : Result :=
  finish (do
    let t ← regRead reg
    callTo t) s

/-- `RET` (46_call_return R169). -/
def execRet (s : State) : Result :=
  finish returnSequence s

end Sys2Proof.Machine
end

