-- ==== Sys2Proof/Machine/IncDec.lean ====
section
/-! DEFINITION. Increment and decrement (44_incdec R140, R141): in place, wrapping. -/

namespace Sys2Proof.Machine

/-- A register takes a function of its own value. -/
def updateReg (reg : Nat) (f : Word → Word) : Exec Unit := do
  let v ← regRead reg
  regWrite reg (f v)

/-- `INC_REG reg` (44_incdec R140). -/
def execIncReg (reg : Nat) (s : State) : Result :=
  finish (updateReg reg (fun v => add16 v 1)) s

/-- `DEC_REG reg` (44_incdec R141). -/
def execDecReg (reg : Nat) (s : State) : Result :=
  finish (updateReg reg (fun v => sub16 v 1)) s

end Sys2Proof.Machine
end

