-- ==== Sys2Proof/Machine/Jumps.lean ====
section
/-! DEFINITION. The comparison jumps (45_jumps R145 to R158): the operand against `acc`, absolute
target. -/

namespace Sys2Proof.Machine

/-- `if v REL acc then pc <- t`; where the relation is false nothing is written (45_jumps R145). -/
def jumpIf (rel : Relation) (operand : Exec Word) (target : Word) : Exec Unit := do
  let v ← operand
  let acc ← regRead accIdx
  if rel.holds v acc then regWrite ipIdx target else pure ()

/-- `JMP_NOT_EQ lit, addr` (45_jumps R146). -/
def execJmpNotEq (lit addr : Word) (s : State) : Result :=
  finish (jumpIf .ne (pure lit) addr) s

/-- `JNE_REG reg, addr` (45_jumps R147). -/
def execJneReg (reg : Nat) (addr : Word) (s : State) : Result :=
  finish (jumpIf .ne (regRead reg) addr) s

/-- `JEQ_REG reg, addr` (45_jumps R148). -/
def execJeqReg (reg : Nat) (addr : Word) (s : State) : Result :=
  finish (jumpIf .eq (regRead reg) addr) s

/-- `JEQ_LIT lit, addr` (45_jumps R149). -/
def execJeqLit (lit addr : Word) (s : State) : Result :=
  finish (jumpIf .eq (pure lit) addr) s

/-- `JLT_REG reg, addr` (45_jumps R150). -/
def execJltReg (reg : Nat) (addr : Word) (s : State) : Result :=
  finish (jumpIf .lt (regRead reg) addr) s

/-- `JLT_LIT lit, addr` (45_jumps R151). -/
def execJltLit (lit addr : Word) (s : State) : Result :=
  finish (jumpIf .lt (pure lit) addr) s

/-- `JGT_REG reg, addr` (45_jumps R152). -/
def execJgtReg (reg : Nat) (addr : Word) (s : State) : Result :=
  finish (jumpIf .gt (regRead reg) addr) s

/-- `JGT_LIT lit, addr` (45_jumps R153). -/
def execJgtLit (lit addr : Word) (s : State) : Result :=
  finish (jumpIf .gt (pure lit) addr) s

/-- `JLE_REG reg, addr` (45_jumps R154). -/
def execJleReg (reg : Nat) (addr : Word) (s : State) : Result :=
  finish (jumpIf .le (regRead reg) addr) s

/-- `JLE_LIT lit, addr` (45_jumps R155). -/
def execJleLit (lit addr : Word) (s : State) : Result :=
  finish (jumpIf .le (pure lit) addr) s

/-- `JGE_REG reg, addr` (45_jumps R156). -/
def execJgeReg (reg : Nat) (addr : Word) (s : State) : Result :=
  finish (jumpIf .ge (regRead reg) addr) s

/-- `JGE_LIT lit, addr` (45_jumps R157). -/
def execJgeLit (lit addr : Word) (s : State) : Result :=
  finish (jumpIf .ge (pure lit) addr) s

end Sys2Proof.Machine
end

