-- ==== Sys2Proof/Machine/LogicShift.lean ====
section
/-! DEFINITION. The bitwise and shift family (43_logic_shift R120 to R132): logic writes `acc`, a
shift writes its own first register. -/

namespace Sys2Proof.Machine

/-- `x[reg] <- f(x[reg], count)`, both reads before the write (43_logic_shift R128, R130). -/
def shiftInPlace (f : Word → Nat → Word) (reg : Nat) (count : Exec Nat) : Exec Unit := do
  let v ← regRead reg
  let n ← count
  regWrite reg (f v n)

/-- `AND_REG_LIT reg, lit` (43_logic_shift R121). -/
def execAndRegLit (reg : Nat) (lit : Word) (s : State) : Result :=
  finish (binaryToAcc and16 (regRead reg) (pure lit)) s

/-- `AND_REG_REG ra, rb` (43_logic_shift R122). -/
def execAndRegReg (ra rb : Nat) (s : State) : Result :=
  finish (binaryToAcc and16 (regRead ra) (regRead rb)) s

/-- `OR_REG_LIT reg, lit` (43_logic_shift R123). -/
def execOrRegLit (reg : Nat) (lit : Word) (s : State) : Result :=
  finish (binaryToAcc or16 (regRead reg) (pure lit)) s

/-- `OR_REG_REG ra, rb` (43_logic_shift R124). -/
def execOrRegReg (ra rb : Nat) (s : State) : Result :=
  finish (binaryToAcc or16 (regRead ra) (regRead rb)) s

/-- `XOR_REG_LIT reg, lit` (43_logic_shift R125). -/
def execXorRegLit (reg : Nat) (lit : Word) (s : State) : Result :=
  finish (binaryToAcc xor16 (regRead reg) (pure lit)) s

/-- `XOR_REG_REG ra, rb` (43_logic_shift R126). -/
def execXorRegReg (ra rb : Nat) (s : State) : Result :=
  finish (binaryToAcc xor16 (regRead ra) (regRead rb)) s

/-- `NOT reg`: the complement of the register into `acc` (43_logic_shift R127). -/
def execNotReg (reg : Nat) (s : State) : Result :=
  finish (do
    let v ← regRead reg
    regWrite accIdx (not16 v)) s

/-- `LSH_REG_LIT reg, lit8` (43_logic_shift R129). -/
def execLshRegLit (reg : Nat) (lit8 : Byte) (s : State) : Result :=
  finish (shiftInPlace lsh16 reg (pure lit8.toNat)) s

/-- `LSH_REG_REG ra, rb`: the whole value of the second register is the count (43_logic_shift R130). -/
def execLshRegReg (ra rb : Nat) (s : State) : Result :=
  finish (shiftInPlace lsh16 ra (do
    let n ← regRead rb
    pure n.toNat)) s

/-- `RSH_REG_LIT reg, lit8` (43_logic_shift R131). -/
def execRshRegLit (reg : Nat) (lit8 : Byte) (s : State) : Result :=
  finish (shiftInPlace rsh16 reg (pure lit8.toNat)) s

/-- `RSH_REG_REG ra, rb`: the whole value of the second register is the count (43_logic_shift R132). -/
def execRshRegReg (ra rb : Nat) (s : State) : Result :=
  finish (shiftInPlace rsh16 ra (do
    let n ← regRead rb
    pure n.toNat)) s

end Sys2Proof.Machine
end

