-- ==== Sys2Proof/Machine/Move.lean ====
section
/-! DEFINITION. The move family (40_move R80 to R91). Every operand is fetched before a meaning
runs, so `ip` is the address of the following instruction in all of them. -/

namespace Sys2Proof.Machine

/-- A register takes a value. -/
def moveTo (dst : Nat) (value : Exec Word) : Exec Unit := do
  let v ← value
  regWrite dst v

/-- A value goes to memory. -/
def moveToMem (addr : Nat) (w : Width) (value : Exec Word) : Exec Unit := do
  let v ← value
  memWrite addr w v

/-- `MOV_LIT_REG lit, reg` (40_move R81). -/
def execMovLitReg (lit : Word) (reg : Nat) (s : State) : Result :=
  finish (moveTo reg (pure lit)) s

/-- `MOV_REG_REG src, dst` (40_move R82). -/
def execMovRegReg (src dst : Nat) (s : State) : Result :=
  finish (moveTo dst (regRead src)) s

/-- `MOV_REG_MEM reg, addr` (40_move R83). -/
def execMovRegMem (reg : Nat) (addr : Word) (s : State) : Result :=
  finish (moveToMem addr.toNat .w16 (regRead reg)) s

/-- `MOV_MEM_REG addr, reg` (40_move R84). -/
def execMovMemReg (addr : Word) (reg : Nat) (s : State) : Result :=
  finish (moveTo reg (memRead addr.toNat .w16)) s

/-- `MOV_LIT_MEM lit, addr` (40_move R85). -/
def execMovLitMem (lit addr : Word) (s : State) : Result :=
  finish (moveToMem addr.toNat .w16 (pure lit)) s

/-- `MOV_REG_PTR_REG ptr, dst`: the word at the address a register holds (40_move R86). -/
def execMovRegPtrReg (ptr dst : Nat) (s : State) : Result :=
  finish (moveTo dst (do
    let p ← regRead ptr
    memRead p.toNat .w16)) s

/-- `MOV_LIT_OFF_REG base, off, dst`: the sum of base and offset is not wrapped (40_move R87, D18; log
entry 15). -/
def execMovLitOffReg (base : Word) (off dst : Nat) (s : State) : Result :=
  finish (moveTo dst (do
    let o ← regRead off
    memRead (base.toNat + o.toNat) .w16)) s

/-- `MOV8_LIT_MEM lit8, addr` (40_move R88). -/
def execMov8LitMem (lit8 : Byte) (addr : Word) (s : State) : Result :=
  finish (moveToMem addr.toNat .w8 (pure (zext16 lit8))) s

/-- `MOV8_REG_MEM reg, addr`: the low byte of the register (40_move R89; log entry 8). -/
def execMov8RegMem (reg : Nat) (addr : Word) (s : State) : Result :=
  finish (moveToMem addr.toNat .w8 (do
    let v ← regRead reg
    pure (zext16 (lowByte v)))) s

/-- `MOV8_MEM_REG addr, reg`: the byte with the high byte zero (40_move R90). -/
def execMov8MemReg (addr : Word) (reg : Nat) (s : State) : Result :=
  finish (moveTo reg (memRead addr.toNat .w8)) s

end Sys2Proof.Machine
end

