-- ==== Sys2Proof/Machine/Stack.lean ====
section
/-! DEFINITION. The stack instructions (41_stack R102 to R104). -/

namespace Sys2Proof.Machine

/-- `PSH_LIT lit` (41_stack R102). -/
def execPshLit (lit : Word) (s : State) : Result :=
  finish (push lit) s

/-- `PSH_REG reg`: the register is read before the push moves `sp` (41_stack R103). -/
def execPshReg (reg : Nat) (s : State) : Result :=
  finish (do
    let v ← regRead reg
    push v) s

/-- `POP reg`: the register is written after the pop moves `sp` (41_stack R104). -/
def execPop (reg : Nat) (s : State) : Result :=
  finish (do
    let v ← pop
    regWrite reg v) s

end Sys2Proof.Machine
end

