-- ==== Sys2Proof/Machine/System.lean ====
section
/-! DEFINITION. No-op and halt (47_nop_halt R175, R176). -/

namespace Sys2Proof.Machine

/-- `NOP`: nothing beyond the fetch's advance of `ip` (47_nop_halt R175). -/
def execNop (s : State) : Result :=
  finish (pure ()) s

/-- `HLT`: the run state becomes `HALTED` (47_nop_halt R176). -/
def execHlt (s : State) : Result :=
  finish (setRun .halted) s

end Sys2Proof.Machine
end

