-- ==== Sys2Proof/Machine/Dispatch.lean ====
section
/-! DEFINITION. The dispatch of an instruction to its meaning, one arm per constructor. -/

namespace Sys2Proof.Machine

def exec (i : Instr) (s : State) : Host.Outcome State Fault Refusal :=
  match i with
  | .nop => Sys2Proof.Machine.execNop s
  | .movLitReg lit reg => Sys2Proof.Machine.execMovLitReg lit reg s
  | .movRegReg src dst => Sys2Proof.Machine.execMovRegReg src dst s
  | .movRegMem reg addr => Sys2Proof.Machine.execMovRegMem reg addr s
  | .movMemReg addr reg => Sys2Proof.Machine.execMovMemReg addr reg s
  | .addRegReg ra rb => Sys2Proof.Machine.execAddRegReg ra rb s
  | .jmpNotEq lit addr => Sys2Proof.Machine.execJmpNotEq lit addr s
  | .subLitReg lit reg => Sys2Proof.Machine.execSubLitReg lit reg s
  | .pshLit lit => Sys2Proof.Machine.execPshLit lit s
  | .pshReg reg => Sys2Proof.Machine.execPshReg reg s
  | .pop reg => Sys2Proof.Machine.execPop reg s
  | .movLitMem lit addr => Sys2Proof.Machine.execMovLitMem lit addr s
  | .movRegPtrReg ptr dst => Sys2Proof.Machine.execMovRegPtrReg ptr dst s
  | .movLitOffReg base off dst => Sys2Proof.Machine.execMovLitOffReg base off dst s
  | .subRegLit reg lit => Sys2Proof.Machine.execSubRegLit reg lit s
  | .subRegReg ra rb => Sys2Proof.Machine.execSubRegReg ra rb s
  | .mulLitReg lit reg => Sys2Proof.Machine.execMulLitReg lit reg s
  | .mulRegReg ra rb => Sys2Proof.Machine.execMulRegReg ra rb s
  | .lshRegLit reg lit8 => Sys2Proof.Machine.execLshRegLit reg lit8 s
  | .lshRegReg ra rb => Sys2Proof.Machine.execLshRegReg ra rb s
  | .rshRegLit reg lit8 => Sys2Proof.Machine.execRshRegLit reg lit8 s
  | .rshRegReg ra rb => Sys2Proof.Machine.execRshRegReg ra rb s
  | .andRegLit reg lit => Sys2Proof.Machine.execAndRegLit reg lit s
  | .andRegReg ra rb => Sys2Proof.Machine.execAndRegReg ra rb s
  | .orRegLit reg lit => Sys2Proof.Machine.execOrRegLit reg lit s
  | .orRegReg ra rb => Sys2Proof.Machine.execOrRegReg ra rb s
  | .xorRegLit reg lit => Sys2Proof.Machine.execXorRegLit reg lit s
  | .xorRegReg ra rb => Sys2Proof.Machine.execXorRegReg ra rb s
  | .notReg reg => Sys2Proof.Machine.execNotReg reg s
  | .incReg reg => Sys2Proof.Machine.execIncReg reg s
  | .decReg reg => Sys2Proof.Machine.execDecReg reg s
  | .jeqReg reg addr => Sys2Proof.Machine.execJeqReg reg addr s
  | .addLitReg lit reg => Sys2Proof.Machine.execAddLitReg lit reg s
  | .jneReg reg addr => Sys2Proof.Machine.execJneReg reg addr s
  | .jeqLit lit addr => Sys2Proof.Machine.execJeqLit lit addr s
  | .jltReg reg addr => Sys2Proof.Machine.execJltReg reg addr s
  | .jltLit lit addr => Sys2Proof.Machine.execJltLit lit addr s
  | .jgtReg reg addr => Sys2Proof.Machine.execJgtReg reg addr s
  | .jgtLit lit addr => Sys2Proof.Machine.execJgtLit lit addr s
  | .jleReg reg addr => Sys2Proof.Machine.execJleReg reg addr s
  | .jleLit lit addr => Sys2Proof.Machine.execJleLit lit addr s
  | .jgeReg reg addr => Sys2Proof.Machine.execJgeReg reg addr s
  | .jgeLit lit addr => Sys2Proof.Machine.execJgeLit lit addr s
  | .mov8LitMem lit8 addr => Sys2Proof.Machine.execMov8LitMem lit8 addr s
  | .mov8RegMem reg addr => Sys2Proof.Machine.execMov8RegMem reg addr s
  | .mov8MemReg addr reg => Sys2Proof.Machine.execMov8MemReg addr reg s
  | .calLit addr => Sys2Proof.Machine.execCalLit addr s
  | .calReg reg => Sys2Proof.Machine.execCalReg reg s
  | .ret => Sys2Proof.Machine.execRet s
  | .hlt => Sys2Proof.Machine.execHlt s

end Sys2Proof.Machine
end

