-- ==== Sys2Proof/Machine/Step.lean ====
section
/-! DEFINITION. One step (30_encoding R66, 60_exceptions R201), and the placing of an instruction
where the next step fetches it. -/

namespace Sys2Proof.Machine

/-- One step: in `RUNNING`, the instruction at `ip` is fetched, `ip` advancing past it, and executed;
a fault of the fetch is taken. In `HALTED` and `FAULTED` the step is refused (10_state R19, D9, D10;
log entry 6). -/
def step (s : State) : Host.Outcome State Fault Refusal :=
  match s.run with
  | .running =>
    match fetchInstr s with
    | .ok i t => exec i t
    | .error f t => .next (takeFault f t)
  | .halted => .refused .halted
  | .faulted f => .refused (.faulted f)

/-- The state with the five bytes of an instruction word placed at `ip`, `ip + 1`, … (log entry 19). -/
def State.withFetchWord (s : State) (nbits w : Nat) : State :=
  s.pokeAll (s.reg ipIdx).toNat (tableBytes nbits w)

end Sys2Proof.Machine
end

