-- ==== Sys2Proof/Machine/HostInterface.lean ====
section
/-! DEFINITION. What the host can do between instructions (60_exceptions R200): reset, mapping,
loading, inspection, `step` and `run`. None is an instruction. A single access that fails is reported
to the host and leaves the core's state as it was (D35; log entry 20); a load is a list of accesses,
and those before the failing one stand (log entry 34). -/

namespace Sys2Proof.Machine

/-- Reset (70_reset_and_hazards R210): the registers, `cfb` and the run state; memory and the region
list are not touched. `MEM_SIZE` is the mapper's byte length at this moment (R211). -/
def hostReset (s : State) : State :=
  { s with
    regs := resetRegs s.params s.mapper.byteLength
    cfb := 0
    run := .running }

/-- Creating the machine: the devices, the region list made from `Mapper.empty` by `Mapper.map` and
`Mapper.unmap`, then reset (70_reset_and_hazards R210, R212). -/
def hostCreate (devices : List Device) (mapper : Mapper) (params : Params) : State :=
  { regs := resetRegs params mapper.byteLength
    cfb := 0
    run := .running
    devices, mapper, params
    events := []
    accesses := 0 }

/-- Why a configuration act of the host is refused. -/
inductive ConfigRefusal where
  /-- The act came during a run, where the region list is fixed (93_implementation_defined U20, D26).
  Safe: the spec itself has it refused. -/
  | duringRun
  deriving DecidableEq, Repr

/-- A configuration act on the region list. From reset to the end of the run, which is while the core
is `RUNNING`, it is refused and the state is unchanged; before reset and after the run has ended it is
done (20_memory R36, D26, 93_implementation_defined U20; log entry 20). -/
def hostConfigure {α : Type} (act : Mapper → α × Mapper) (s : State) :
    Except ConfigRefusal α × State :=
  if s.run = .running then (.error .duringRun, s)
  else (.ok (act s.mapper).1, { s with mapper := (act s.mapper).2 })

/-- `map(device, start, end, remap)`, `remap` being `true` where nothing is said: the region goes to
the head of the list, and the token is answered (20_memory R36). -/
def hostMap (device start last : Nat) (remap : Bool := true) (s : State) :
    Except ConfigRefusal Nat × State :=
  hostConfigure (fun m => (m.nextToken, m.map { device, start, last, remap })) s

/-- Invoking the token of a `map` (20_memory R36). A token used before, or never handed out, is answered
ok and changes nothing. DESIGN CHOICE, unsafe (log entry 35). -/
def hostUnmap (token : Nat) (s : State) : Except ConfigRefusal Unit × State :=
  hostConfigure (fun m => ((), m.unmap token)) s

/-- A host access: its answer, or the fault reported to the host, and the state it leaves. A fault is
not taken, so the run state is as it was (60_exceptions R200, D35). -/
def hostAccess {α : Type} (m : Exec α) (s : State) : Except Fault α × State :=
  match m s with
  | .ok a t => (.ok a, t)
  | .error f t => (.error f, t)

/-- Reading a register by index (10_state R11, 60_exceptions R200). -/
def hostReadReg (i : Nat) (s : State) : Except Fault Word × State := hostAccess (regRead i) s

/-- Writing a register by index: any integer, of which the register keeps `trunc16` (10_state R11). -/
def hostWriteReg (i : Nat) (v : Int) (s : State) : Except Fault Unit × State :=
  hostAccess (regWrite i (trunc16 v)) s

/-- The index of a register name, or `UnknownRegisterName` (60_exceptions R184). -/
def regByName (name : String) : Exec Nat :=
  match registerIndex name with
  | some i => pure i
  | none => raise (.unknownRegisterName name)

/-- Reading a register by name (60_exceptions R200). -/
def hostReadRegByName (name : String) (s : State) : Except Fault Word × State :=
  hostAccess (do
    let i ← regByName name
    regRead i) s

/-- Writing a register by name (60_exceptions R200). -/
def hostWriteRegByName (name : String) (v : Int) (s : State) : Except Fault Unit × State :=
  hostAccess (do
    let i ← regByName name
    regWrite i (trunc16 v)) s

/-- Reading memory at an address (60_exceptions R200). -/
def hostReadMem (addr : Nat) (w : Width) (s : State) : Except Fault Word × State :=
  hostAccess (memRead addr w) s

/-- Writing memory at an address (60_exceptions R200). -/
def hostWriteMem (addr : Nat) (w : Width) (v : Word) (s : State) : Except Fault Unit × State :=
  hostAccess (memWrite addr w v) s

/-- Byte writes at consecutive addresses, stopping at the first that fails (70_reset_and_hazards
R213). -/
def storeImage (addr : Nat) : List Byte → Exec Unit
  | [] => pure ()
  | b :: bs => do
    memWrite addr .w8 (zext16 b)
    storeImage (addr + 1) bs

/-- Loading a program image: its bytes at consecutive addresses from the origin, and `ip` at the
origin (30_encoding R73, 70_reset_and_hazards R212, R213). Where a byte's write fails the load stops
there and the host has the fault: the bytes before it stay written, those after it are not tried and
`ip` is not set. The spec does not say what stands after such a load. DESIGN CHOICE, unsafe (log entry
34). -/
def hostLoad (origin : Word) (image : List Byte) (s : State) : Except Fault Unit × State :=
  hostAccess (do
    storeImage origin.toNat image
    regWrite ipIdx origin) s

/-- `run`, cut off after `n` steps: the step is invoked while the run state is `RUNNING`
(60_exceptions R201). -/
def hostRun : Nat → State → State
  | 0, s => s
  | n + 1, s =>
    match step s with
    | .next t => hostRun n t
    | .fault _ => s
    | .refused _ => s

/-- The numeric label of a fault kind (60_exceptions R180, D27). -/
def Fault.code : Fault → Nat
  | .unmappedAddress _ => 1
  | .outOfRange _ _ _ => 2
  | .invalidRegister _ => 3
  | .unknownRegisterName _ => 4
  | .illegalOpcode _ _ => 5
  | .deviceFault _ _ _ _ => 6

end Sys2Proof.Machine
end

