-- ==== Sys2Proof/Safety.lean ====
section
/-! DEFINITION. The terms in which claims about the machine are stated: well-formed states, the
configurations and accesses that hypotheses name, what a RAM store and a frame look like, and the
layout of each instruction format. -/

namespace Sys2Proof.Machine

/-! ## Well-formed states -/

/-- A region has the bounds of 20_memory R35 and names a device that exists. -/
def Region.wfIn (r : Region) (devices : Nat) : Bool := r.wf && decide (r.device < devices)

/-- A state the machine can be in: an opcode map that separates the opcodes (30_encoding R67), RAM
contents in canonical form and inside their device (20_memory R31), regions with the bounds of R35 on
devices that exist, and tokens not yet handed out (R36). -/
structure State.Wf (s : State) : Prop where
  opcodeMap : s.params.opcodeMap.wf
  devices : ∀ d ∈ s.devices, d.wf = true
  regions : ∀ r ∈ s.mapper.regions, r.wfIn s.devices.length = true
  tokens : ∀ x ∈ s.mapper.mappings, x.token < s.mapper.nextToken

/-- What no instruction changes: the configuration (10_state R25). -/
structure SameConfig (s t : State) : Prop where
  mapper : t.mapper = s.mapper
  params : t.params = s.params
  shapes : t.devices.map Device.shape = s.devices.map Device.shape

/-- Every device is a RAM. -/
def State.ramOnly (s : State) : Prop := ∀ d ∈ s.devices, d ≠ .peripheral

/-- The whole address space is one RAM device of exact size (20_memory R46 with `MEM_SIZE = 0x10000`). -/
def State.FlatRam (s : State) : Prop :=
  ∃ d mem, s.mapper.regions = [{ device := d, start := 0, last := 0xFFFF, remap := true }] ∧
    s.devices[d]? = some (.ram 0x10000 mem)

/-! ## Memory accesses -/

/-- The access of width `w` at `addr` succeeds in RAM. -/
def State.ramAccess (s : State) (addr : Nat) (w : Width) : Bool := (s.readAt addr w).isSome

/-- The fault that an access of width `w` at `addr` raises for want of a region or of room in a RAM
device, the lookup first (60_exceptions R181, R182, R189). -/
def State.accessFault (s : State) (addr : Nat) (w : Width) : Option Fault :=
  match s.resolve addr with
  | none => some (.unmappedAddress addr)
  | some (d, a) =>
    match s.device d with
    | .ram size _ => if a + w.bytes ≤ size then none else some (.outOfRange a w.bytes size)
    | .peripheral => none

/-- The stores of a list of words at `a`, `a - 2`, `a - 4`, …, as pushes make them. -/
def State.storeWords (s : State) (a : Word) : List Word → State
  | [] => s
  | v :: vs => (s.store a.toNat .w16 v).storeWords (a - 2) vs

/-- The state with several registers set, one after another. -/
def State.setRegs (s : State) : List (Nat × Word) → State
  | [] => s
  | (r, v) :: rest => (s.setReg r v).setRegs rest

/-- The ten words that a call pushes, in order (46_call_return R166). -/
def State.frameWords (s : State) : List Word :=
  [s.reg 2, s.reg 3, s.reg 4, s.reg 5, s.reg 6, s.reg 7, s.reg 8, s.reg 9, s.reg ipIdx, s.cfb + 20]

/-- The pushes of a list of words, in order, to whatever devices `sp` leads to. -/
def pushWords : List Word → Exec Unit
  | [] => pure ()
  | v :: vs => do
    push v
    pushWords vs

/-- The pops of a number of words, in order, from whatever devices `sp` leads to. -/
def popWords : Nat → Exec (List Word)
  | 0 => pure []
  | n + 1 => do
    let v ← pop
    let vs ← popWords n
    pure (v :: vs)

/-- The registers that a return pops into, in order (46_call_return R169). -/
def returnTargets : List Nat := [ipIdx, 9, 8, 7, 6, 5, 4, 3, 2]

/-! ## Code in memory -/

/-- The bytes `bs` stand at `ip` in one RAM region, without passing `0xFFFF`. -/
def CodeAt (s : State) (bs : List Byte) : Prop :=
  ∃ r size mem, s.device r.device = .ram size mem ∧
    (s.reg ipIdx).toNat + bs.length ≤ 65536 ∧
    ∀ k b, bs[k]? = some b →
      s.mapper.find ((s.reg ipIdx).toNat + k) = some r ∧
      r.localAddr ((s.reg ipIdx).toNat + k) < size ∧
      mem.read (r.localAddr ((s.reg ipIdx).toNat + k)) = b

/-- The width of the one access that fetches an operand of a kind (30_encoding R62, R66): a 16-bit
operand is one access of two bytes. -/
def operandAccess : OperandKind → Width
  | .reg | .lit8 | .addr8 => .w8
  | .lit16 | .addr16 => .w16

/-- From `s`, the operands of the kinds are fetched one after another, each by one access of its own
at `ip`, to RAM or to a peripheral, `ip` then advancing by its width and wrapping at 0xFFFF; the accesses
answer the bytes `bs`, and `u` is the state after the last. The bytes may lie in several regions. -/
def FetchedBytes : List OperandKind → List Byte → State → State → Prop
  | [], bs, s, u => bs = [] ∧ u = s
  | k :: ks, bs, s, u =>
    match operandAccess k, bs with
    | .w8, b :: rest => ∃ t, memRead (s.reg ipIdx).toNat .w8 s = .ok (b.setWidth 16) t ∧
        FetchedBytes ks rest (t.setReg ipIdx (s.reg ipIdx + 1)) u
    | .w16, hi :: lo :: rest => ∃ t, memRead (s.reg ipIdx).toNat .w16 s = .ok (hi ++ lo) t ∧
        FetchedBytes ks rest (t.setReg ipIdx (s.reg ipIdx + 2)) u
    | _, _ => False

/-- The meanings of a list of instructions, one after another, as long as each answers a next
state. -/
def execSeq : List Instr → State → Result
  | [], s => .next s
  | i :: is, s =>
    match exec i s with
    | .next t => execSeq is t
    | .fault f => .fault f
    | .refused r => .refused r

/-! ## What an instruction may write -/

/-- The registers that an instruction's meaning may write: its destination, and the registers its
rule updates implicitly. -/
def mayWrite : Instr → List Nat
  | .nop | .hlt => []
  | .movLitReg _ d | .movRegReg _ d | .movMemReg _ d | .movRegPtrReg _ d | .movLitOffReg _ _ d
  | .mov8MemReg _ d => [d]
  | .movRegMem _ _ | .movLitMem _ _ | .mov8LitMem _ _ | .mov8RegMem _ _ => []
  | .addRegReg _ _ | .addLitReg _ _ | .subLitReg _ _ | .subRegLit _ _ | .subRegReg _ _
  | .mulLitReg _ _ | .mulRegReg _ _ => [accIdx]
  | .andRegLit _ _ | .andRegReg _ _ | .orRegLit _ _ | .orRegReg _ _ | .xorRegLit _ _
  | .xorRegReg _ _ | .notReg _ => [accIdx]
  | .lshRegLit r _ | .lshRegReg r _ | .rshRegLit r _ | .rshRegReg r _ => [r]
  | .incReg r | .decReg r => [r]
  | .jmpNotEq _ _ | .jneReg _ _ | .jeqReg _ _ | .jeqLit _ _ | .jltReg _ _ | .jltLit _ _
  | .jgtReg _ _ | .jgtLit _ _ | .jleReg _ _ | .jleLit _ _ | .jgeReg _ _ | .jgeLit _ _ => [ipIdx]
  | .pshLit _ | .pshReg _ => [spIdx]
  | .pop d => [spIdx, d]
  | .calLit _ | .calReg _ => [spIdx, fpIdx, ipIdx]
  | .ret => [ipIdx, 2, 3, 4, 5, 6, 7, 8, 9, spIdx, fpIdx]

/-- The instructions that move `cfb` (10_state R18). -/
def movesCfb : Instr → Bool
  | .pshLit _ | .pshReg _ | .pop _ | .calLit _ | .calReg _ | .ret => true
  | .nop | .hlt => false
  | .movLitReg _ _ | .movRegReg _ _ | .movRegMem _ _ | .movMemReg _ _ | .movLitMem _ _
  | .movRegPtrReg _ _ | .movLitOffReg _ _ _ | .mov8LitMem _ _ | .mov8RegMem _ _
  | .mov8MemReg _ _ => false
  | .addRegReg _ _ | .addLitReg _ _ | .subLitReg _ _ | .subRegLit _ _ | .subRegReg _ _
  | .mulLitReg _ _ | .mulRegReg _ _ => false
  | .andRegLit _ _ | .andRegReg _ _ | .orRegLit _ _ | .orRegReg _ _ | .xorRegLit _ _
  | .xorRegReg _ _ | .notReg _ => false
  | .lshRegLit _ _ | .lshRegReg _ _ | .rshRegLit _ _ | .rshRegReg _ _ => false
  | .incReg _ | .decReg _ => false
  | .jmpNotEq _ _ | .jneReg _ _ | .jeqReg _ _ | .jeqLit _ _ | .jltReg _ _ | .jltLit _ _
  | .jgtReg _ _ | .jgtLit _ _ | .jleReg _ _ | .jleLit _ _ | .jgeReg _ _ | .jgeLit _ _ => false

/-- The instructions that store to memory (20_memory R44). -/
def storesToMemory : Instr → Bool
  | .movRegMem _ _ | .movLitMem _ _ | .mov8LitMem _ _ | .mov8RegMem _ _ => true
  | .pshLit _ | .pshReg _ | .calLit _ | .calReg _ => true
  | .nop | .hlt => false
  | .movLitReg _ _ | .movRegReg _ _ | .movMemReg _ _ | .movRegPtrReg _ _ | .movLitOffReg _ _ _
  | .mov8MemReg _ _ => false
  | .pop _ | .ret => false
  | .addRegReg _ _ | .addLitReg _ _ | .subLitReg _ _ | .subRegLit _ _ | .subRegReg _ _
  | .mulLitReg _ _ | .mulRegReg _ _ => false
  | .andRegLit _ _ | .andRegReg _ _ | .orRegLit _ _ | .orRegReg _ _ | .xorRegLit _ _
  | .xorRegReg _ _ | .notReg _ => false
  | .lshRegLit _ _ | .lshRegReg _ _ | .rshRegLit _ _ | .rshRegReg _ _ => false
  | .incReg _ | .decReg _ => false
  | .jmpNotEq _ _ | .jneReg _ _ | .jeqReg _ _ | .jeqLit _ _ | .jltReg _ _ | .jltLit _ _
  | .jgtReg _ _ | .jgtLit _ _ | .jleReg _ _ | .jleLit _ _ | .jgeReg _ _ | .jgeLit _ _ => false

/-- Byte `a` of device `d` is one of the bytes that an access of width `w` at `addr` touches. -/
def State.touches (s : State) (addr : Nat) (w : Width) (d a : Nat) : Prop :=
  ∃ a0, s.resolve addr = some (d, a0) ∧ a0 ≤ a ∧ a < a0 + w.bytes

/-- Every byte of every RAM device but those that `P` names reads as before, and so does every
global address that leads to none of them. -/
def SameBytesBut (s t : State) (P : Nat → Nat → Prop) : Prop :=
  (∀ d a, ¬ P d a → t.deviceByte d a = s.deviceByte d a) ∧
  ∀ addr, (∀ d a, s.resolve addr = some (d, a) → ¬ P d a) → t.byteAt addr = s.byteAt addr

/-! ## Encoding -/

/-- The 206 byte values that the default map assigns to no instruction (30_encoding R68). -/
def illegalByDefault (b : Byte) : Prop :=
  (0x01 ≤ b.toNat ∧ b.toNat ≤ 0x0F) ∨ b.toNat = 0x19 ∨ (0x22 ≤ b.toNat ∧ b.toNat ≤ 0x25) ∨
  b.toNat = 0x28 ∨ b.toNat = 0x29 ∨ b.toNat = 0x2C ∨ b.toNat = 0x2D ∨
  (0x37 ≤ b.toNat ∧ b.toNat ≤ 0x3D) ∨ (0x4A ≤ b.toNat ∧ b.toNat ≤ 0x4F) ∨
  (0x53 ≤ b.toNat ∧ b.toNat ≤ 0x5D) ∨ (0x61 ≤ b.toNat ∧ b.toNat ≤ 0xFE)

/-! The layout of each format (30_encoding R64): under every opcode map that separates the opcodes, the
bytes of the format, behind the byte of `op`, decode to the instruction with the operands as
delivered, whatever the operand bytes are. -/

/-- Format `N`. -/
def FormatN (op : Opcode) (i : Instr) : Prop :=
  ∀ m : OpcodeMap, m.wf → ∀ rest, decodeWith m (m.code op :: rest) = .ok (i, rest)

/-- Format `R`. -/
def FormatR (op : Opcode) (i : Nat → Instr) : Prop :=
  ∀ m : OpcodeMap, m.wf → ∀ r rest,
    decodeWith m (m.code op :: r :: rest) = .ok (i (r.toNat % 12), rest)

/-- Formats `L` and `A`: one 16-bit operand, high byte first. -/
def FormatL (op : Opcode) (i : Word → Instr) : Prop :=
  ∀ m : OpcodeMap, m.wf → ∀ hi lo rest,
    decodeWith m (m.code op :: hi :: lo :: rest) = .ok (i (hi ++ lo), rest)

/-- Format `RR`. -/
def FormatRR (op : Opcode) (i : Nat → Nat → Instr) : Prop :=
  ∀ m : OpcodeMap, m.wf → ∀ r1 r2 rest,
    decodeWith m (m.code op :: r1 :: r2 :: rest) = .ok (i (r1.toNat % 12) (r2.toNat % 12), rest)

/-- Format `Rl`: a register and an 8-bit literal. -/
def FormatRl (op : Opcode) (i : Nat → Byte → Instr) : Prop :=
  ∀ m : OpcodeMap, m.wf → ∀ r b rest,
    decodeWith m (m.code op :: r :: b :: rest) = .ok (i (r.toNat % 12) b, rest)

/-- Formats `LR` and `AR`: a 16-bit operand, then a register. -/
def FormatLR (op : Opcode) (i : Word → Nat → Instr) : Prop :=
  ∀ m : OpcodeMap, m.wf → ∀ hi lo r rest,
    decodeWith m (m.code op :: hi :: lo :: r :: rest) = .ok (i (hi ++ lo) (r.toNat % 12), rest)

/-- Formats `RL` and `RA`: a register, then a 16-bit operand. -/
def FormatRL (op : Opcode) (i : Nat → Word → Instr) : Prop :=
  ∀ m : OpcodeMap, m.wf → ∀ r hi lo rest,
    decodeWith m (m.code op :: r :: hi :: lo :: rest) = .ok (i (r.toNat % 12) (hi ++ lo), rest)

/-- Format `lA`: an 8-bit literal, then an address. -/
def FormatlA (op : Opcode) (i : Byte → Word → Instr) : Prop :=
  ∀ m : OpcodeMap, m.wf → ∀ b hi lo rest,
    decodeWith m (m.code op :: b :: hi :: lo :: rest) = .ok (i b (hi ++ lo), rest)

/-- Format `LA`: a 16-bit literal, then an address. -/
def FormatLA (op : Opcode) (i : Word → Word → Instr) : Prop :=
  ∀ m : OpcodeMap, m.wf → ∀ h1 l1 h2 l2 rest,
    decodeWith m (m.code op :: h1 :: l1 :: h2 :: l2 :: rest) = .ok (i (h1 ++ l1) (h2 ++ l2), rest)

/-- Format `ARR`: an address and two registers. -/
def FormatARR (op : Opcode) (i : Word → Nat → Nat → Instr) : Prop :=
  ∀ m : OpcodeMap, m.wf → ∀ hi lo r1 r2 rest,
    decodeWith m (m.code op :: hi :: lo :: r1 :: r2 :: rest) =
      .ok (i (hi ++ lo) (r1.toNat % 12) (r2.toNat % 12), rest)

end Sys2Proof.Machine
end

