-- ==== Sys2Proof/Certificates/Slice0/Obligations.lean ====
section
/-! DEFINITION. The statements about the machine, one definition each; OBLIGATIONS.json lists them. -/

open Sys2Proof Sys2Proof.Machine

/-! ## Encoding and decoding -/

/-- Decoding the encoding of a well-formed instruction, with any bytes after it, gives the
instruction and those bytes, for every opcode map that separates the opcodes and every value of
every operand (30_encoding R60, R61, R64, R67; the operand kinds and their order are the spec's own
decision D3, log entry 26). -/
def Obligations.DecodeInvertsEncode : Prop :=
  ∀ (m : OpcodeMap) (i : Instr) (rest : List Byte), m.wf → i.wellFormed = true →
    decodeWith m (encodeWith m i ++ rest) = .ok (i, rest)

/-- Whatever bytes the decoder accepts, the instruction is well formed, its opcode is the one the
first byte is the code of, and it takes from the head of the bytes exactly as many as the opcode
table's size says (30_encoding R60, R63, R65, R70). -/
def Obligations.DecodedInstructionIsWellFormed : Prop :=
  ∀ (m : OpcodeMap) (bs rest : List Byte) (i : Instr), decodeWith m bs = .ok (i, rest) →
    i.wellFormed = true ∧
    (∃ b tail, bs = b :: tail ∧ m.lookup b = some i.opcode) ∧
    ∃ used, bs = used ++ rest ∧ used.length = i.opcode.size

/-- The default opcode map gives the fifty opcodes, in the order of `Opcode.all`, the codes of the table
of 30_encoding R67, and no two the same. The codes are the spec's own default of an open parameter
(D1), log entry 4. -/
def Obligations.DefaultMapHasTheCodesOfTheTable : Prop :=
  Opcode.all.map (fun op => (OpcodeMap.reference.code op).toNat) =
    [0x00, 0x10, 0x11, 0x12, 0x13, 0x14, 0x15, 0x16, 0x17, 0x18, 0x1A, 0x1B, 0x1C, 0x1D, 0x1E, 0x1F,
      0x20, 0x21, 0x26, 0x27, 0x2A, 0x2B, 0x2E, 0x2F, 0x30, 0x31, 0x32, 0x33, 0x34, 0x35, 0x36, 0x3E,
      0x3F, 0x40, 0x41, 0x42, 0x43, 0x44, 0x45, 0x46, 0x47, 0x48, 0x49, 0x50, 0x51, 0x52, 0x5E, 0x5F,
      0x60, 0xFF] ∧
  OpcodeMap.reference.wf

/-- Words of several families, written out from 30_encoding R64 and R67, decode to the instructions
they stand for under the default map (the spec's own codes, D1, log entry 4; the operand orders its
decision D3, log entry 26). A sanity statement. -/
def Obligations.WrittenOutWordsDecode : Prop :=
  decode [0x10, 0x12, 0x34, 0x02] = .ok (.movLitReg 0x1234 2, []) ∧
  decode [0x12, 0x0E, 0x01, 0x00] = .ok (.movRegMem 2 0x0100, []) ∧
  decode [0x1A, 0xFF] = .ok (.pop 3, []) ∧
  decode [0x1E, 0x02, 0x00, 0x0A] = .ok (.subRegLit 2 0x000A, []) ∧
  decode [0x2A, 0x03, 0x0F] = .ok (.rshRegLit 3 0x0F, []) ∧
  decode [0x36, 0x0A] = .ok (.decReg 10, []) ∧
  decode [0x45, 0x00, 0x0A, 0x12, 0x00] = .ok (.jgtLit 0x000A 0x1200, []) ∧
  decode [0x5E, 0x30, 0x00] = .ok (.calLit 0x3000, []) ∧
  decode [0xFF] = .ok (.hlt, [])

/-- A byte that the opcode map assigns to no instruction is illegal, those of the default map being
the ones listed; fetching one as an opcode raises `IllegalOpcode` with the byte and its address,
`ip` having advanced by one and nothing else having changed (30_encoding R68, 60_exceptions R185).
That the case is a fault is the spec's own decision D8. -/
def Obligations.IllegalOpcodeByteFaults : Prop :=
  (∀ (m : OpcodeMap) (b : Byte), m.lookup b = none ↔ ∀ op, m.code op ≠ b) ∧
  (∀ b : Byte, OpcodeMap.reference.lookup b = none ↔ illegalByDefault b) ∧
  ∀ (s : State) (b : Byte), s.run = .running → CodeAt s [b] →
    s.params.opcodeMap.lookup b = none →
    step s = .next (takeFault (.illegalOpcode b (s.reg ipIdx)) (s.setReg ipIdx (s.reg ipIdx + 1)))

/-! ## The step -/

/-- Where the bytes at `ip` decode to an instruction, the step is that instruction's meaning at the
state whose `ip` has moved past those bytes. Said of bytes in one RAM region, and of an opcode byte
and operands each fetched by an access of its own, from any regions and devices, `ip` wrapping at
0xFFFF between them (30_encoding R62, R66, R74; 10_state R13). That an instruction goes on past the end
of a region or of the address space is the spec's own decision D36, log entry 33. -/
def Obligations.StepRunsDecodedInstruction : Prop :=
  (∀ (s : State) (bs : List Byte) (i : Instr), s.run = .running → CodeAt s bs →
    decodeWith s.params.opcodeMap bs = .ok (i, []) →
    step s = exec i (s.setReg ipIdx (s.reg ipIdx + BitVec.ofNat 16 bs.length))) ∧
  ∀ (s t u : State) (b : Byte) (bs : List Byte) (op : Opcode) (i : Instr), s.run = .running →
    memRead (s.reg ipIdx).toNat .w8 s = .ok (b.setWidth 16) t →
    s.params.opcodeMap.lookup b = some op →
    FetchedBytes op.schema bs (t.setReg ipIdx (s.reg ipIdx + 1)) u →
    decodeWith s.params.opcodeMap (b :: bs) = .ok (i, []) →
    step s = exec i u ∧ u.reg ipIdx = s.reg ipIdx + BitVec.ofNat 16 (b :: bs).length

/-- A running core always completes a step, and the core is `HALTED` after it exactly where the
instruction fetched was `HLT` (60_exceptions R201, 70_reset_and_hazards R222). -/
def Obligations.RunningStepAnswersNextState : Prop :=
  ∀ s : State, s.run = .running →
    ∃ t, step s = .next t ∧ (t.run = .halted ↔ ∃ u, fetchInstr s = .ok .hlt u)

/-- `HLT`: its layout; it makes the core `HALTED` and changes nothing else; in `HALTED` and in `FAULTED`
the step is refused (47_nop_halt R176, 10_state R19). The run states, and that a stopped core's step
is refused, are the spec's own decisions D9 and D10; the form of the refusal is the model's, log
entry 6. -/
def Obligations.HltHaltsAndStoppedCoreRefusesStep : Prop :=
  FormatN .hlt .hlt ∧
  ∀ s : State, exec .hlt s = .next { s with run := .halted } ∧
    (s.run = .halted → step s = .refused .halted) ∧
    ∀ f, s.run = .faulted f → step s = .refused (.faulted f)

/-- Where the opcode byte and the operands before number `n` are fetched and the one access of
operand `n` faults, whatever the fault, the step takes that fault with `ip` standing at that
operand, past all that was fetched and nothing else. Said of any regions and devices, and of RAM
with the state written out, where a 16-bit operand that starts at the last byte of a device is out
of range though that byte is there (30_encoding R62, R66; 60_exceptions R188, R189). The order of
read and advance is the spec's own decision D11, log entry 18; that operands go on past a region's
end its decision D36, log entry 33; a peripheral's refusal its decision D30, log entry 7. -/
def Obligations.FetchFaultLeavesIpAtOperand : Prop :=
  (∀ (s t u v : State) (b : Byte) (bs : List Byte) (op : Opcode) (n : Nat) (k : OperandKind)
      (f : Fault), s.run = .running →
    memRead (s.reg ipIdx).toNat .w8 s = .ok (b.setWidth 16) t →
    s.params.opcodeMap.lookup b = some op → op.schema[n]? = some k →
    FetchedBytes (op.schema.take n) bs (t.setReg ipIdx (s.reg ipIdx + 1)) u →
    memRead (u.reg ipIdx).toNat (operandAccess k) u = .error f v →
    step s = .next (takeFault f v) ∧
      v.reg ipIdx = s.reg ipIdx + BitVec.ofNat 16 (b :: bs).length ∧
      (∀ j, j ≠ ipIdx → v.reg j = s.reg j) ∧ v.cfb = s.cfb ∧ v.devices = s.devices) ∧
  (∀ (s : State) (bs : List Byte) (vs : List Word) (op : Opcode) (n : Nat) (k : OperandKind)
      (f : Fault), s.run = .running → s.params.opcodeMap.wf →
    CodeAt s (s.params.opcodeMap.code op :: bs) → op.schema[n]? = some k →
    decodeOperands (op.schema.take n) bs = .ok (vs, []) →
    s.accessFault (s.reg ipIdx + 1 + BitVec.ofNat 16 bs.length).toNat (operandAccess k) = some f →
    step s = .next (takeFault f
      (s.setReg ipIdx (s.reg ipIdx + 1 + BitVec.ofNat 16 bs.length)))) ∧
  ∀ (s : State) (addr d a size : Nat) (mem : Memory), s.resolve addr = some (d, a) →
    s.device d = .ram size mem → a + 1 = size → ∀ k : OperandKind,
    s.accessFault addr (operandAccess k) =
      if k = .lit16 ∨ k = .addr16 then some (.outOfRange a 2 size) else none

/-- An opcode fetch from an unmapped address faults with nothing changed; whatever the fault of the
opcode fetch, out of range and a peripheral's refusal among them, `ip` has not moved (30_encoding R66,
60_exceptions R181). -/
def Obligations.UnmappedOpcodeFetchChangesNothing : Prop :=
  (∀ s : State, s.run = .running → s.mapper.find (s.reg ipIdx).toNat = none →
    step s = .next (takeFault (.unmappedAddress (s.reg ipIdx).toNat) s)) ∧
  ∀ (s t : State) (f : Fault), s.run = .running →
    memRead (s.reg ipIdx).toNat .w8 s = .error f t →
    step s = .next (takeFault f t) ∧ t.regs = s.regs ∧ t.cfb = s.cfb ∧ t.devices = s.devices

/-- A register operand is the fetched byte modulo 12, an index of the register file, whatever the
byte is; a fault of the byte's fetch is the operand's (30_encoding R63). -/
def Obligations.RegisterByteIsReducedModulo12 : Prop :=
  ∀ s : State,
    (∀ b t, fetch8 s = .ok b t → fetchReg s = .ok (b.toNat % 12) t ∧ b.toNat % 12 < 12) ∧
    ∀ f t, fetch8 s = .error f t → fetchReg s = .error f t

/-! ## Registers, reset and the host's access -/

/-- The register file validates every index: inside `0..11` a read gives the register and a write
sets that register to the residue and no other, outside both fail with the index and change nothing
(10_state R11, 60_exceptions R183). That a host's access which fails leaves the core's state, its
run state included, as it was is the spec's own decision D35, log entry 20. -/
def Obligations.RegisterFileValidatesIndex : Prop :=
  ∀ (s : State) (i : Nat) (v : Int),
    (i < 12 →
      hostReadReg i s = (.ok (s.reg i), s) ∧
      ∃ t, hostWriteReg i v s = (.ok (), t) ∧ (t.reg i).toNat = (v % 65536).toNat ∧
        (∀ j, j ≠ i → t.reg j = s.reg j) ∧ t = { s with regs := t.regs }) ∧
    (12 ≤ i →
      hostReadReg i s = (.error (.invalidRegister i), s) ∧
      hostWriteReg i v s = (.error (.invalidRegister i), s))

/-- By-name access goes to the register of that name, in the order of 10_state R10, and a name
outside the twelve is refused, the core's state unchanged (60_exceptions R184). That the index of a
name is its place in the order of listing is the spec's own decision D4, log entry 22; that a
refused access changes nothing its decision D35, log entry 20. -/
def Obligations.NameAccessKnowsTwelveNames : Prop :=
  ∀ (s : State) (name : String) (v : Int),
    (∀ i, ["ip", "acc", "r1", "r2", "r3", "r4", "r5", "r6", "r7", "r8", "sp", "fp"][i]? = some name →
      hostReadRegByName name s = hostReadReg i s ∧
      hostWriteRegByName name v s = hostWriteReg i v s) ∧
    (name ∉ ["ip", "acc", "r1", "r2", "r3", "r4", "r5", "r6", "r7", "r8", "sp", "fp"] →
      hostReadRegByName name s = (.error (.unknownRegisterName name), s) ∧
      hostWriteRegByName name v s = (.error (.unknownRegisterName name), s))

/-- What reset leaves, in every configuration: `ip` at `IP_RESET`, `acc` and `r1`..`r8` at
`INIT_GPR`, `sp` and `fp` at the mapper's byte length minus 2, `cfb` 0, `RUNNING`, memory and the
region list as they were (70_reset_and_hazards R210). That `cfb` is 0 is the spec's own decision D6, log
entry 10, that the core is `RUNNING` its decision D9, log entry 6, and that the general registers come
from a parameter its decision D5, log entry 1: the source gives none of them. -/
def Obligations.ResetSetsRegistersFromParameters : Prop :=
  ∀ s : State,
    (hostReset s).reg ipIdx = s.params.ipReset ∧
    (∀ k v, s.params.initGpr[k]? = some v → (hostReset s).reg (k + 1) = v) ∧
    (hostReset s).reg spIdx = BitVec.ofInt 16 ((s.mapper.byteLength : Int) - 2) ∧
    (hostReset s).reg fpIdx = BitVec.ofInt 16 ((s.mapper.byteLength : Int) - 2) ∧
    (hostReset s).cfb = 0 ∧ (hostReset s).run = .running ∧
    (hostReset s).devices = s.devices ∧ (hostReset s).mapper = s.mapper ∧
    (hostReset s).params = s.params

/-- The reference configuration after reset: `sp = fp = 0xFFFE`, `cfb` 0, `RUNNING`, the whole
address space one RAM, and the host's reset leaves it as it is. That `ip` and the general registers
are 0, that memory is all 0 and that there is one RAM of 64 KiB are the model's choices (the spec's
defaults), log entries 1, 2, 3 (D23, D24) and 5. That `cfb` is 0 is the spec's own decision D6, log
entry 10, and that the core is `RUNNING` its decision D9, log entry 6: the source gives neither. -/
def Obligations.ReferenceResetState : Prop :=
  State.reset.reg spIdx = 0xFFFE ∧ State.reset.reg fpIdx = 0xFFFE ∧
  (∀ i, i < 10 → State.reset.reg i = 0) ∧ State.reset.cfb = 0 ∧ State.reset.run = .running ∧
  State.reset.FlatRam ∧ (∀ addr, addr < 65536 → State.reset.byteAt addr = some 0) ∧
  hostReset State.reset = State.reset

/-! ## Memory -/

/-- The mapper's byte length is the greatest `last + 1`, 0 without regions, at most 0x10000 where the
regions have the bounds of 20_memory R35; reset takes the stack pointer from it (20_memory R41). -/
def Obligations.ByteLengthIsHighestMappedPlusOne : Prop :=
  (∀ m : Mapper,
    (m.regions = [] → m.byteLength = 0) ∧
    (∀ r ∈ m.regions, r.last + 1 ≤ m.byteLength) ∧
    (m.regions ≠ [] → ∃ r ∈ m.regions, m.byteLength = r.last + 1) ∧
    ((∀ r ∈ m.regions, r.wf = true) → m.byteLength ≤ 0x10000)) ∧
  ∀ s : State, (hostReset s).reg spIdx = BitVec.ofInt 16 ((s.mapper.byteLength : Int) - 2)

/-- `findRegion` answers the first region of the list whose range holds the address, and raises
`UnmappedAddress` where there is none (20_memory R37). -/
def Obligations.FirstCoveringRegionWins : Prop :=
  ∀ (s : State) (addr : Nat),
    (∀ r, s.mapper.find addr = some r ↔ ∃ before after, s.mapper.regions = before ++ r :: after ∧
      (r.start ≤ addr ∧ addr ≤ r.last) ∧ ∀ x ∈ before, ¬ (x.start ≤ addr ∧ addr ≤ x.last)) ∧
    (∀ r, s.mapper.find addr = some r → findRegion addr s = .ok r s) ∧
    ((∀ x ∈ s.mapper.regions, ¬ (x.start ≤ addr ∧ addr ≤ x.last)) →
      findRegion addr s = .error (.unmappedAddress addr) s)

/-- Outside a run, a region mapped now stands at the head of the list and wins where it covers; its
token removes exactly it, though another region was mapped after it; nothing but the mapper changes.
During a run both acts are refused and the state is unchanged (20_memory R36, R37; 60_exceptions R200;
the refusal is the spec's own decision D26, 93_implementation_defined U20, log entry 20). -/
def Obligations.TokenRemovesExactlyItsRegion : Prop :=
  (∀ (s : State) (r q : Region), s.run ≠ .running →
    (∀ x ∈ s.mapper.mappings, x.token < s.mapper.nextToken) →
    ∃ (token other : Nat) (t u v w : State),
      hostMap r.device r.start r.last r.remap s = (.ok token, t) ∧
      hostMap q.device q.start q.last q.remap t = (.ok other, u) ∧
      hostUnmap token t = (.ok (), v) ∧ hostUnmap token u = (.ok (), w) ∧
      t.mapper.regions = r :: s.mapper.regions ∧
      (∀ addr, r.start ≤ addr → addr ≤ r.last → t.mapper.find addr = some r) ∧
      v.mapper.regions = s.mapper.regions ∧ w.mapper.regions = q :: s.mapper.regions ∧
      t = { s with mapper := t.mapper } ∧ w = { s with mapper := w.mapper }) ∧
  ∀ (s : State) (device start last token : Nat) (remap : Bool), s.run = .running →
    hostMap device start last remap s = (.error .duringRun, s) ∧
    hostUnmap token s = (.error .duringRun, s)

/-- A RAM access, read or write, translates the address by the region found and checks the bounds of
the device before it touches a byte: inside, it reads or stores at the device-local address; outside,
it raises `OutOfRange` with the device-local address, the width and the length, and changes nothing
(20_memory R32, R38). -/
def Obligations.RamAccessTranslatesThenChecksBounds : Prop :=
  ∀ (s : State) (addr : Nat) (w : Width) (v : Word) (r : Region) (n : Nat) (mem : Memory),
    s.mapper.find addr = some r → s.device r.device = .ram n mem →
    let a := if r.remap then addr - r.start else addr
    (a + w.bytes ≤ n →
      memRead addr w s = .ok (mem.get a w) s ∧
      memWrite addr w v s = .ok () (s.setRam r.device n (mem.set a v w))) ∧
    (n < a + w.bytes →
      memRead addr w s = .error (.outOfRange a w.bytes n) s ∧
      memWrite addr w v s = .error (.outOfRange a w.bytes n) s)

/-- An access to a peripheral is answered outside the core: a read gives some value of the width or
is refused as `DeviceFault`, a write becomes one output event or is refused as `DeviceFault`; nothing
else of the state changes but the model's count of such accesses (20_memory R54, 60_exceptions R186;
the oracle's form is log entry 7). -/
def Obligations.PeripheralAccessIsAnsweredOutside : Prop :=
  ∀ (s : State) (addr : Nat) (w : Width) (v : Word) (d a : Nat),
    s.resolve addr = some (d, a) → s.device d = .peripheral →
    ((∃ x, memRead addr w s = .ok x s.countAccess ∧ x.toNat < 256 ^ w.bytes) ∨
      memRead addr w s = .error (.deviceFault d a w.bytes .read) s.countAccess) ∧
    (memWrite addr w v s =
        .ok () (s.countAccess.logEvent { device := d, localAddr := a, width := w.bytes, value := v }) ∨
      memWrite addr w v s = .error (.deviceFault d a w.bytes .write) s.countAccess)

/-- A write that succeeds on a RAM device, then a read of the same width at the same address, gives
the low bits of the value (20_memory R53). -/
def Obligations.WriteThenReadRoundTrip : Prop :=
  ∀ (s t : State) (addr : Nat) (w : Width) (v : Word),
    memWrite addr w v s = .ok () t →
    (∀ d a, s.resolve addr = some (d, a) → s.device d ≠ .peripheral) →
    memRead addr w t = .ok (BitVec.ofNat 16 (v.toNat % 256 ^ w.bytes)) t

/-- A RAM store writes the low byte, or the high byte at the lower address and the low byte at the
next, and changes no other byte and nothing else of the state (20_memory R33, R34, R42). -/
def Obligations.RamStoreIsBigEndian : Prop :=
  ∀ (s : State) (addr d a : Nat) (v : Word), s.resolve addr = some (d, a) →
    (s.ramAccess addr .w8 = true →
      memWrite addr .w8 v s = .ok () (s.store addr .w8 v) ∧
      ((s.store addr .w8 v).deviceByte d a).map BitVec.toNat = some (v.toNat % 256) ∧
      SameBytesBut s (s.store addr .w8 v) (fun d' a' => d' = d ∧ a' = a)) ∧
    (s.ramAccess addr .w16 = true →
      memWrite addr .w16 v s = .ok () (s.store addr .w16 v) ∧
      ((s.store addr .w16 v).deviceByte d a).map BitVec.toNat = some (v.toNat / 256) ∧
      ((s.store addr .w16 v).deviceByte d (a + 1)).map BitVec.toNat = some (v.toNat % 256) ∧
      SameBytesBut s (s.store addr .w16 v) (fun d' a' => d' = d ∧ (a' = a ∨ a' = a + 1))) ∧
    ∀ w, s.store addr w v = { s with devices := (s.store addr w v).devices }

/-- A word access at the last address of a region: out of range where the device is as long as the
region, and the device's next byte where it is longer, the second address never being looked up; at
0xFFFF of one full RAM it does not wrap (20_memory R40; the case analysis is the spec's own decision
D29). -/
def Obligations.WordAccessAtRegionEnd : Prop :=
  (∀ (s : State) (r : Region) (n : Nat) (mem : Memory) (v : Word),
    s.mapper.find r.last = some r → s.device r.device = .ram n mem → r.remap = true →
    (n = r.last - r.start + 1 →
      memRead r.last .w16 s = .error (.outOfRange (n - 1) 2 n) s ∧
      memWrite r.last .w16 v s = .error (.outOfRange (n - 1) 2 n) s) ∧
    (r.last - r.start + 1 < n →
      memRead r.last .w16 s =
        .ok (mem.read (r.last - r.start) ++ mem.read (r.last - r.start + 1)) s)) ∧
  ∀ (s : State) (v : Word), s.FlatRam →
    memRead 0xFFFF .w16 s = .error (.outOfRange 0xFFFF 2 0x10000) s ∧
    memWrite 0xFFFF .w16 v s = .error (.outOfRange 0xFFFF 2 0x10000) s

/-! ## Arithmetic, logic, shifts, increment and decrement -/

/-- `ADD_REG_REG`, `ADD_LIT_REG`: their layouts, and the wrapped sum into `acc`, nothing else
written and no fault (42_arithmetic R111, R112). -/
def Obligations.AddWritesWrappedSumToAcc : Prop :=
  FormatRR .addRegReg .addRegReg ∧ FormatLR .addLitReg .addLitReg ∧
  ∀ (s : State) (a b : Nat) (lit : Word), a < 12 → b < 12 →
    exec (.addRegReg a b) s = .next (s.setReg accIdx (s.reg a + s.reg b)) ∧
    exec (.addLitReg lit b) s = .next (s.setReg accIdx (lit + s.reg b))

/-- `SUB_LIT_REG`, `SUB_REG_LIT`, `SUB_REG_REG`: their layouts, and the wrapped difference, first
operand minus second, into `acc` (42_arithmetic R113, R114, R115; the order is the spec's own decision
D12, log entry 12). -/
def Obligations.SubWritesFirstMinusSecondToAcc : Prop :=
  FormatLR .subLitReg .subLitReg ∧ FormatRL .subRegLit .subRegLit ∧
  FormatRR .subRegReg .subRegReg ∧
  ∀ (s : State) (a b : Nat) (lit : Word), a < 12 → b < 12 →
    exec (.subLitReg lit b) s = .next (s.setReg accIdx (lit - s.reg b)) ∧
    exec (.subRegLit a lit) s = .next (s.setReg accIdx (s.reg a - lit)) ∧
    exec (.subRegReg a b) s = .next (s.setReg accIdx (s.reg a - s.reg b))

/-- `MUL_LIT_REG`, `MUL_REG_REG`: their layouts, and the low 16 bits of the product into `acc`
(42_arithmetic R116, R117). -/
def Obligations.MulWritesLowProductToAcc : Prop :=
  FormatLR .mulLitReg .mulLitReg ∧ FormatRR .mulRegReg .mulRegReg ∧
  ∀ (s : State) (a b : Nat) (lit : Word), a < 12 → b < 12 →
    exec (.mulLitReg lit b) s = .next (s.setReg accIdx (lit * s.reg b)) ∧
    exec (.mulRegReg a b) s = .next (s.setReg accIdx (s.reg a * s.reg b))

/-- `AND`, `OR`, `XOR` in both forms and `NOT`: their layouts, and the bitwise result, the 16-bit
complement for `NOT`, into `acc` (43_logic_shift R121 to R127). -/
def Obligations.LogicWritesBitwiseResultToAcc : Prop :=
  (FormatRL .andRegLit .andRegLit ∧ FormatRR .andRegReg .andRegReg ∧
    FormatRL .orRegLit .orRegLit ∧ FormatRR .orRegReg .orRegReg ∧
    FormatRL .xorRegLit .xorRegLit ∧ FormatRR .xorRegReg .xorRegReg ∧ FormatR .notReg .notReg) ∧
  ∀ (s : State) (a b : Nat) (lit : Word), a < 12 → b < 12 →
    exec (.andRegLit a lit) s = .next (s.setReg accIdx (s.reg a &&& lit)) ∧
    exec (.andRegReg a b) s = .next (s.setReg accIdx (s.reg a &&& s.reg b)) ∧
    exec (.orRegLit a lit) s = .next (s.setReg accIdx (s.reg a ||| lit)) ∧
    exec (.orRegReg a b) s = .next (s.setReg accIdx (s.reg a ||| s.reg b)) ∧
    exec (.xorRegLit a lit) s = .next (s.setReg accIdx (s.reg a ^^^ lit)) ∧
    exec (.xorRegReg a b) s = .next (s.setReg accIdx (s.reg a ^^^ s.reg b)) ∧
    exec (.notReg a) s = .next (s.setReg accIdx (~~~ s.reg a))

/-- `LSH` and `RSH` in both forms: their layouts, and the logical shift by the whole count back
into the first register, 0 for a count of 16 or more (43_logic_shift R128 to R132; the unreduced count
is the spec's own decision D14, log entry 13). -/
def Obligations.ShiftsWriteBackToFirstRegister : Prop :=
  (FormatRl .lshRegLit .lshRegLit ∧ FormatRR .lshRegReg .lshRegReg ∧
    FormatRl .rshRegLit .rshRegLit ∧ FormatRR .rshRegReg .rshRegReg) ∧
  (∀ (s : State) (a b : Nat) (n : Byte), a < 12 → b < 12 →
    exec (.lshRegLit a n) s = .next (s.setReg a (s.reg a <<< n.toNat)) ∧
    exec (.lshRegReg a b) s = .next (s.setReg a (s.reg a <<< (s.reg b).toNat)) ∧
    exec (.rshRegLit a n) s = .next (s.setReg a (s.reg a >>> n.toNat)) ∧
    exec (.rshRegReg a b) s = .next (s.setReg a (s.reg a >>> (s.reg b).toNat))) ∧
  ∀ (s : State) (a b : Nat) (n : Byte), a < 12 → b < 12 →
    (16 ≤ n.toNat → exec (.lshRegLit a n) s = .next (s.setReg a 0) ∧
      exec (.rshRegLit a n) s = .next (s.setReg a 0)) ∧
    (16 ≤ (s.reg b).toNat → exec (.lshRegReg a b) s = .next (s.setReg a 0) ∧
      exec (.rshRegReg a b) s = .next (s.setReg a 0))

/-- `INC_REG`, `DEC_REG`: their layouts, and 1 added or subtracted in place, wrapping
(44_incdec R140, R141). -/
def Obligations.IncDecWrapInPlace : Prop :=
  FormatR .incReg .incReg ∧ FormatR .decReg .decReg ∧
  ∀ (s : State) (a : Nat), a < 12 →
    exec (.incReg a) s = .next (s.setReg a (s.reg a + 1)) ∧
    exec (.decReg a) s = .next (s.setReg a (s.reg a - 1))

/-! ## Jumps -/

/-- `JMP_NOT_EQ`, `JNE_REG`, `JEQ_REG`, `JEQ_LIT`: their layouts; they jump to the absolute target
where the operand differs from, or equals, `acc`, and change nothing otherwise (45_jumps R146 to
R149). -/
def Obligations.EqualityJumpsCompareWithAcc : Prop :=
  (FormatLA .jmpNotEq .jmpNotEq ∧ FormatRL .jneReg .jneReg ∧
    FormatRL .jeqReg .jeqReg ∧ FormatLA .jeqLit .jeqLit) ∧
  ∀ (s : State) (r : Nat) (v t : Word), r < 12 →
    exec (.jmpNotEq v t) s = .next (if v ≠ s.reg accIdx then s.setReg ipIdx t else s) ∧
    exec (.jneReg r t) s = .next (if s.reg r ≠ s.reg accIdx then s.setReg ipIdx t else s) ∧
    exec (.jeqReg r t) s = .next (if s.reg r = s.reg accIdx then s.setReg ipIdx t else s) ∧
    exec (.jeqLit v t) s = .next (if v = s.reg accIdx then s.setReg ipIdx t else s)

/-- `JLT_REG`, `JLT_LIT`, `JGE_REG`, `JGE_LIT`: their layouts; unsigned, the operand on the left of
`acc` (45_jumps R150, R151, R156, R157; direction and signedness are the spec's own decisions D16 and
D17, log entry 14). -/
def Obligations.LessAndNotLessJumpsAreUnsigned : Prop :=
  (FormatRL .jltReg .jltReg ∧ FormatLA .jltLit .jltLit ∧
    FormatRL .jgeReg .jgeReg ∧ FormatLA .jgeLit .jgeLit) ∧
  ∀ (s : State) (r : Nat) (v t : Word), r < 12 →
    exec (.jltReg r t) s =
      .next (if (s.reg r).toNat < (s.reg accIdx).toNat then s.setReg ipIdx t else s) ∧
    exec (.jltLit v t) s = .next (if v.toNat < (s.reg accIdx).toNat then s.setReg ipIdx t else s) ∧
    exec (.jgeReg r t) s =
      .next (if (s.reg accIdx).toNat ≤ (s.reg r).toNat then s.setReg ipIdx t else s) ∧
    exec (.jgeLit v t) s = .next (if (s.reg accIdx).toNat ≤ v.toNat then s.setReg ipIdx t else s)

/-- `JGT_REG`, `JGT_LIT`, `JLE_REG`, `JLE_LIT`: their layouts; unsigned, the operand on the left of
`acc` (45_jumps R152 to R155; D16 and D17, log entry 14). -/
def Obligations.GreaterAndNotGreaterJumpsAreUnsigned : Prop :=
  (FormatRL .jgtReg .jgtReg ∧ FormatLA .jgtLit .jgtLit ∧
    FormatRL .jleReg .jleReg ∧ FormatLA .jleLit .jleLit) ∧
  ∀ (s : State) (r : Nat) (v t : Word), r < 12 →
    exec (.jgtReg r t) s =
      .next (if (s.reg accIdx).toNat < (s.reg r).toNat then s.setReg ipIdx t else s) ∧
    exec (.jgtLit v t) s = .next (if (s.reg accIdx).toNat < v.toNat then s.setReg ipIdx t else s) ∧
    exec (.jleReg r t) s =
      .next (if (s.reg r).toNat ≤ (s.reg accIdx).toNat then s.setReg ipIdx t else s) ∧
    exec (.jleLit v t) s = .next (if v.toNat ≤ (s.reg accIdx).toNat then s.setReg ipIdx t else s)

/-! ## Moves -/

/-- `MOV_LIT_REG`, `MOV_REG_REG`: their layouts, and the value into the destination, any of the
twelve registers, `ip` among them (40_move R81, R82). -/
def Obligations.RegisterMovesCopyTheValue : Prop :=
  FormatLR .movLitReg .movLitReg ∧ FormatRR .movRegReg .movRegReg ∧
  ∀ (s : State) (src d : Nat) (lit : Word), src < 12 → d < 12 →
    exec (.movLitReg lit d) s = .next (s.setReg d lit) ∧
    exec (.movRegReg src d) s = .next (s.setReg d (s.reg src))

/-- `MOV_REG_MEM`, `MOV_LIT_MEM`: their layouts; the word is stored at the address, or the access's
fault is taken with memory as it was; one access of the memory primitive, to a peripheral too, is all
they do (40_move R83, R85). -/
def Obligations.WordMovesStoreOrFault : Prop :=
  FormatRL .movRegMem .movRegMem ∧ FormatLA .movLitMem .movLitMem ∧
  ∀ (s : State) (i : Instr) (v addr : Word),
    (i = .movLitMem v addr ∨ ∃ r, r < 12 ∧ i = .movRegMem r addr ∧ v = s.reg r) →
    (s.ramAccess addr.toNat .w16 = true → exec i s = .next (s.store addr.toNat .w16 v)) ∧
    (∀ f, s.accessFault addr.toNat .w16 = some f → exec i s = .next (takeFault f s)) ∧
    (∀ t, memWrite addr.toNat .w16 v s = .ok () t → exec i s = .next t) ∧
    ∀ f t, memWrite addr.toNat .w16 v s = .error f t → exec i s = .next (takeFault f t)

/-- `MOV8_LIT_MEM`, `MOV8_REG_MEM`, `MOV8_MEM_REG`: their layouts; one byte, the low byte of the source,
is stored at the address, or the byte at the address goes to the register with a zero high byte, or
the access's fault is taken with memory and the register as they were; one access of the memory
primitive, to a peripheral too, is all they do (40_move R88, R89, R90). The 8-bit moves are the spec's
own decision D19, log entries 8 and 30. -/
def Obligations.ByteMovesUseLowByteOrFault : Prop :=
  (FormatlA .mov8LitMem .mov8LitMem ∧ FormatRL .mov8RegMem .mov8RegMem ∧
    FormatLR .mov8MemReg .mov8MemReg) ∧
  (∀ (s : State) (i : Instr) (b : Byte) (addr : Word),
    (i = .mov8LitMem b addr ∨ ∃ r, r < 12 ∧ i = .mov8RegMem r addr ∧ b = (s.reg r).setWidth 8) →
    (s.ramAccess addr.toNat .w8 = true →
      exec i s = .next (s.store addr.toNat .w8 (b.setWidth 16))) ∧
    (∀ f, s.accessFault addr.toNat .w8 = some f → exec i s = .next (takeFault f s)) ∧
    (∀ t, memWrite addr.toNat .w8 (b.setWidth 16) s = .ok () t → exec i s = .next t) ∧
    ∀ f t, memWrite addr.toNat .w8 (b.setWidth 16) s = .error f t →
      exec i s = .next (takeFault f t)) ∧
  ∀ (s : State) (d : Nat) (addr : Word), d < 12 →
    (∀ x, s.byteAt addr.toNat = some x →
      exec (.mov8MemReg addr d) s = .next (s.setReg d (x.setWidth 16))) ∧
    (∀ f, s.accessFault addr.toNat .w8 = some f →
      exec (.mov8MemReg addr d) s = .next (takeFault f s)) ∧
    (∀ v t, memRead addr.toNat .w8 s = .ok v t →
      exec (.mov8MemReg addr d) s = .next (t.setReg d v) ∧ v.toNat < 256) ∧
    ∀ f t, memRead addr.toNat .w8 s = .error f t →
      exec (.mov8MemReg addr d) s = .next (takeFault f t)

/-- `MOV_MEM_REG`, `MOV_REG_PTR_REG`: their layouts; the word at the address, or at the address the
pointer register holds, into the register, or the access's fault with the register as it was; one
access of the memory primitive, of a peripheral too, gives the word or the fault (40_move R84, R86). -/
def Obligations.LoadsReadTheAddressOrFault : Prop :=
  FormatLR .movMemReg .movMemReg ∧ FormatRR .movRegPtrReg .movRegPtrReg ∧
  ∀ (s : State) (i : Instr) (d : Nat) (addr : Word), d < 12 →
    (i = .movMemReg addr d ∨ ∃ p, p < 12 ∧ i = .movRegPtrReg p d ∧ addr = s.reg p) →
    (∀ v, s.readAt addr.toNat .w16 = some v → exec i s = .next (s.setReg d v)) ∧
    (∀ f, s.accessFault addr.toNat .w16 = some f → exec i s = .next (takeFault f s)) ∧
    (∀ v t, memRead addr.toNat .w16 s = .ok v t → exec i s = .next (t.setReg d v)) ∧
    ∀ f t, memRead addr.toNat .w16 s = .error f t → exec i s = .next (takeFault f t)

/-- `MOV_LIT_OFF_REG`: its layout; the word at base plus offset into the register, or the access's fault
with the register as it was; one access of the memory primitive, of a peripheral too, gives the word
or the fault; the sum is not wrapped, so above 0xFFFF it is unmapped (40_move R87; the unwrapped sum
is the spec's own decision D18, log entry 15). -/
def Obligations.OffsetLoadReadsUnwrappedSum : Prop :=
  FormatARR .movLitOffReg .movLitOffReg ∧
  ∀ (s : State) (p d : Nat) (base : Word), p < 12 → d < 12 →
    (∀ v, s.readAt (base.toNat + (s.reg p).toNat) .w16 = some v →
      exec (.movLitOffReg base p d) s = .next (s.setReg d v)) ∧
    (∀ f, s.accessFault (base.toNat + (s.reg p).toNat) .w16 = some f →
      exec (.movLitOffReg base p d) s = .next (takeFault f s)) ∧
    (∀ v t, memRead (base.toNat + (s.reg p).toNat) .w16 s = .ok v t →
      exec (.movLitOffReg base p d) s = .next (t.setReg d v)) ∧
    (∀ f t, memRead (base.toNat + (s.reg p).toNat) .w16 s = .error f t →
      exec (.movLitOffReg base p d) s = .next (takeFault f t)) ∧
    ((∀ r ∈ s.mapper.regions, r.wf = true) → 0xFFFF < base.toNat + (s.reg p).toNat →
      exec (.movLitOffReg base p d) s =
        .next (takeFault (.unmappedAddress (base.toNat + (s.reg p).toNat)) s))

/-! ## Stack, call and return -/

/-- `PSH_LIT`, `PSH_REG`: their layouts; the value, a register's as it was before, is stored at
`sp`, to RAM or to a peripheral, then `sp` falls by 2 and `cfb` rises by 2; where the store faults
neither moves (41_stack R100, R102, R103). -/
def Obligations.PushStoresThenMovesSp : Prop :=
  FormatL .pshLit .pshLit ∧ FormatR .pshReg .pshReg ∧
  ∀ (s : State) (i : Instr) (v : Word),
    (i = .pshLit v ∨ ∃ r, r < 12 ∧ i = .pshReg r ∧ v = s.reg r) →
    (s.ramAccess (s.reg spIdx).toNat .w16 = true →
      exec i s = .next (((s.store (s.reg spIdx).toNat .w16 v).setReg spIdx
        (s.reg spIdx - 2)).withCfb (s.cfb + 2))) ∧
    (∀ f, s.accessFault (s.reg spIdx).toNat .w16 = some f → exec i s = .next (takeFault f s)) ∧
    (∀ t, memWrite (s.reg spIdx).toNat .w16 v s = .ok () t →
      exec i s = .next ((t.setReg spIdx (s.reg spIdx - 2)).withCfb (s.cfb + 2))) ∧
    ∀ f t, memWrite (s.reg spIdx).toNat .w16 v s = .error f t →
      exec i s = .next (takeFault f t)

/-- `POP`: its layout; `sp` rises by 2 and `cfb` falls by 2, then the word at the new `sp`, of RAM or
of a peripheral, goes to the register, `sp` itself among them; where the read faults `sp` and `cfb`
have moved and the register has not (41_stack R101, R104). -/
def Obligations.PopMovesSpThenReads : Prop :=
  FormatR .pop .pop ∧
  ∀ (s : State) (d : Nat), d < 12 →
    let m := (s.setReg spIdx (s.reg spIdx + 2)).withCfb (s.cfb - 2)
    (∀ v, s.readAt (s.reg spIdx + 2).toNat .w16 = some v →
      exec (.pop d) s = .next (m.setReg d v)) ∧
    (∀ f, s.accessFault (s.reg spIdx + 2).toNat .w16 = some f →
      exec (.pop d) s = .next (takeFault f m)) ∧
    (∀ v t, memRead (s.reg spIdx + 2).toNat .w16 m = .ok v t →
      exec (.pop d) s = .next (t.setReg d v)) ∧
    ∀ f t, memRead (s.reg spIdx + 2).toNat .w16 m = .error f t →
      exec (.pop d) s = .next (takeFault f t)

/-- `CAL_LIT`: its layout; the ten words are pushed, `fp` and `sp` are the new frame base, `cfb` is 0 and
`ip` the target; where a push faults, the pushes before it stand and `fp`, the reset of `cfb` and `ip`
are not reached. Said of pushes to any device, and of RAM with the state written out, the push number
`n` faulting (46_call_return R166, R167). -/
def Obligations.CallPushesTenWordsOrFaults : Prop :=
  FormatL .calLit .calLit ∧
  ∀ (s : State) (t : Word),
    (∀ u, pushWords s.frameWords s = .ok () u →
      exec (.calLit t) s = .next ((u.setRegs [(fpIdx, u.reg spIdx), (ipIdx, t)]).withCfb 0) ∧
      u.reg spIdx = s.reg spIdx - 20) ∧
    (∀ f u, pushWords s.frameWords s = .error f u → exec (.calLit t) s = .next (takeFault f u)) ∧
    ((∀ k, k < 10 → s.ramAccess (s.reg spIdx - BitVec.ofNat 16 (2 * k)).toNat .w16 = true) →
      exec (.calLit t) s = .next (((s.storeWords (s.reg spIdx) s.frameWords).setRegs
        [(spIdx, s.reg spIdx - 20), (fpIdx, s.reg spIdx - 20), (ipIdx, t)]).withCfb 0)) ∧
    ∀ n f, n < 10 →
      (∀ k, k < n → s.ramAccess (s.reg spIdx - BitVec.ofNat 16 (2 * k)).toNat .w16 = true) →
      s.accessFault (s.reg spIdx - BitVec.ofNat 16 (2 * n)).toNat .w16 = some f →
      exec (.calLit t) s = .next (takeFault f (((s.storeWords (s.reg spIdx)
        (s.frameWords.take n)).setReg spIdx (s.reg spIdx - BitVec.ofNat 16 (2 * n))).withCfb
          (s.cfb + BitVec.ofNat 16 (2 * n))))

/-- `CAL_REG`: its layout; it is the call of the address its register held before the pushes. After a
call of either form in one full RAM, no pushed word lying at 0xFFFF: `r1` stands at the old `sp`, the
other nine words below it in order, the frame size last, and `sp = fp` (46_call_return R166, R168,
R170; the time of the register read is the spec's own decision D38, log entry 17). -/
def Obligations.CallLeavesFrameInMemory : Prop :=
  FormatR .calReg .calReg ∧
  (∀ (s : State) (r : Nat), r < 12 → exec (.calReg r) s = exec (.calLit (s.reg r)) s) ∧
  ∀ (s : State) (i : Instr) (t : Word), s.FlatRam →
    (i = .calLit t ∨ ∃ r, r < 12 ∧ i = .calReg r ∧ t = s.reg r) →
    (∀ k, k < 10 → s.reg spIdx - BitVec.ofNat 16 (2 * k) ≠ 0xFFFF) →
    ∃ u, exec i s = .next u ∧
      (∀ k v, s.frameWords[k]? = some v →
        u.readAt (s.reg spIdx - BitVec.ofNat 16 (2 * k)).toNat .w16 = some v) ∧
      u.reg spIdx = s.reg spIdx - 20 ∧ u.reg fpIdx = u.reg spIdx ∧ u.cfb = 0 ∧ u.reg ipIdx = t

/-- `RET`: its layout; with the eleven words above `fp` and the arguments readable, `ip` and
`r8`..`r1` are popped, the count and the arguments are dropped, `fp` rises by the frame size, and
`cfb` is the frame size less what the later pops took; memory is unchanged. Said of RAM with the state
written out, and of pops from any device (46_call_return R169; that the pops count is the spec's own
decision D22, and that the count of arguments is unbounded its decision D37, log entry 16). -/
def Obligations.ReturnPopsFrameAndArguments : Prop :=
  FormatN .ret .ret ∧
  (∀ (s : State) (w : Nat → Word),
    (∀ k, k < 11 →
      s.readAt (s.reg fpIdx + BitVec.ofNat 16 (2 + 2 * k)).toNat .w16 = some (w k)) →
    (∀ k, k < (w 10).toNat →
      s.ramAccess (s.reg fpIdx + BitVec.ofNat 16 (24 + 2 * k)).toNat .w16 = true) →
    exec .ret s = .next ((s.setRegs
      [(ipIdx, w 1), (9, w 2), (8, w 3), (7, w 4), (6, w 5), (5, w 6), (4, w 7), (3, w 8), (2, w 9),
        (spIdx, s.reg fpIdx + 22 + 2 * w 10), (fpIdx, s.reg fpIdx + w 0)]).withCfb
      (w 0 - 20 - 2 * w 10))) ∧
  ∀ (s t u : State) (w0 w1 w2 w3 w4 w5 w6 w7 w8 w9 n : Word) (args : List Word),
    popWords 11 (s.setReg spIdx (s.reg fpIdx)) =
      .ok [w0, w1, w2, w3, w4, w5, w6, w7, w8, w9, n] t →
    popWords n.toNat t = .ok args u →
    exec .ret s = .next ((u.setRegs
      [(ipIdx, w1), (9, w2), (8, w3), (7, w4), (6, w5), (5, w6), (4, w7), (3, w8), (2, w9),
        (fpIdx, s.reg fpIdx + w0)]).withCfb (w0 - 20 - 2 * n)) ∧
    u.reg spIdx = s.reg fpIdx + 22 + 2 * n ∧ u.devices = s.devices ∧ u.run = s.run

/-- A `RET` that faults has done all that stands before the faulting pop and nothing after it: in
one of the eleven frame pops, number `n`, or in the pop of argument number `m`. Said of RAM with the
state written out, and of pops from any device, whatever the fault, `DeviceFault` among them
(46_call_return R169, 60_exceptions R186, R188; that the pops count is the spec's own decision D22
and the unbounded count its decision D37, log entry 16; `DeviceFault` its decision D30, log entry
7). -/
def Obligations.ReturnFaultKeepsEarlierPops : Prop :=
  (∀ (s : State) (w : Nat → Word) (f : Fault),
    (∀ n, n < 11 →
      (∀ k, k < n →
        s.readAt (s.reg fpIdx + BitVec.ofNat 16 (2 + 2 * k)).toNat .w16 = some (w k)) →
      s.accessFault (s.reg fpIdx + BitVec.ofNat 16 (2 + 2 * n)).toNat .w16 = some f →
      exec .ret s = .next (takeFault f (((s.setRegs
        ((returnTargets.zip [w 1, w 2, w 3, w 4, w 5, w 6, w 7, w 8, w 9]).take (n - 1))).setReg
          spIdx (s.reg fpIdx + BitVec.ofNat 16 (2 + 2 * n))).withCfb
        (if n = 0 then s.cfb - 2 else w 0 - BitVec.ofNat 16 (2 * n))))) ∧
    ∀ m, m < (w 10).toNat →
      (∀ k, k < 11 →
        s.readAt (s.reg fpIdx + BitVec.ofNat 16 (2 + 2 * k)).toNat .w16 = some (w k)) →
      (∀ k, k < m → s.ramAccess (s.reg fpIdx + BitVec.ofNat 16 (24 + 2 * k)).toNat .w16 = true) →
      s.accessFault (s.reg fpIdx + BitVec.ofNat 16 (24 + 2 * m)).toNat .w16 = some f →
      exec .ret s = .next (takeFault f (((s.setRegs
        (returnTargets.zip [w 1, w 2, w 3, w 4, w 5, w 6, w 7, w 8, w 9])).setReg
          spIdx (s.reg fpIdx + BitVec.ofNat 16 (24 + 2 * m))).withCfb
        (w 0 - 22 - BitVec.ofNat 16 (2 * m))))) ∧
  (∀ (s u v : State) (n : Nat) (ws : List Word) (f : Fault), n < 11 →
    popWords n (s.setReg spIdx (s.reg fpIdx)) = .ok ws u → pop u = .error f v →
    exec .ret s = .next (takeFault f ((v.setRegs (returnTargets.zip (ws.drop 1))).withCfb
      (match ws with
        | [] => s.cfb - 2
        | w0 :: _ => w0 - BitVec.ofNat 16 (2 * n)))) ∧
    v.reg spIdx = s.reg fpIdx + BitVec.ofNat 16 (2 + 2 * n) ∧ v.devices = s.devices) ∧
  ∀ (s t u v : State) (w0 n : Word) (m : Nat) (ws args : List Word) (f : Fault),
    popWords 11 (s.setReg spIdx (s.reg fpIdx)) = .ok (w0 :: ws) t → ws[9]? = some n →
    m < n.toNat → popWords m t = .ok args u → pop u = .error f v →
    exec .ret s = .next (takeFault f ((v.setRegs (returnTargets.zip ws)).withCfb
      (w0 - 22 - BitVec.ofNat 16 (2 * m)))) ∧
    v.reg spIdx = s.reg fpIdx + BitVec.ofNat 16 (24 + 2 * m) ∧ v.devices = s.devices

/-- One call episode (46_call_return R170, R171), in one full RAM with an even stack: a caller with
`sp = S0` and `cfb = P` has pushed `n` arguments and the count `n` and calls; `sp = fp` in the callee,
and the frame size is `P + 2n + 22`. Whatever the callee did, where it left `fp` and the eleven words
above it as they were, its `RET` comes back to the return address with `r1`..`r8` restored, `sp = S0`,
`fp = S0 + P`, and `cfb = P + 2`, two more than before; `acc` and memory are as the callee left
them. The excess of 2 rests on the spec's own decision D22, log entry 16. -/
def Obligations.CallEpisodeRestoresCaller : Prop :=
  ∀ (s : State) (S0 P n t : Word), s.FlatRam → S0.toNat % 2 = 0 →
    s.reg spIdx = S0 - 2 * n - 2 → s.cfb = P + 2 * n + 2 →
    s.readAt (S0 - 2 * n).toNat .w16 = some n →
    ∃ c, exec (.calLit t) s = .next c ∧ c.reg ipIdx = t ∧ c.cfb = 0 ∧
      c.reg spIdx = S0 - 2 * n - 22 ∧ c.reg fpIdx = c.reg spIdx ∧
      c.readAt (S0 - 2 * n - 20).toNat .w16 = some (P + 2 * n + 22) ∧
      ∀ u : State, u.FlatRam → u.reg fpIdx = c.reg fpIdx →
        (∀ k, k < 11 →
          u.readAt (c.reg fpIdx + BitVec.ofNat 16 (2 + 2 * k)).toNat .w16 =
            c.readAt (c.reg fpIdx + BitVec.ofNat 16 (2 + 2 * k)).toNat .w16) →
        ∃ v, exec .ret u = .next v ∧ v.reg ipIdx = s.reg ipIdx ∧
          (∀ j ∈ savedRegs, v.reg j = s.reg j) ∧ v.reg spIdx = S0 ∧ v.reg fpIdx = S0 + P ∧
          v.cfb = P + 2 ∧ v.reg accIdx = u.reg accIdx ∧ v.devices = u.devices ∧ v.run = u.run

/-- Pushing any registers but `sp` and `ip`, at most as many as the address space has words, and
popping them in reverse order, in one full RAM with an even stack: every register, `sp` and `cfb` are
back, the stack words hold what was pushed, and every other byte is as it was (41_stack R106). -/
def Obligations.PushesThenPopsRestoreRegisters : Prop :=
  ∀ (s : State) (rs : List Nat), s.FlatRam → (s.reg spIdx).toNat % 2 = 0 →
    rs.length ≤ 32768 → (∀ r ∈ rs, r < 12 ∧ r ≠ spIdx ∧ r ≠ ipIdx) →
    ∃ u v, execSeq (rs.map Instr.pshReg) s = .next u ∧
      execSeq (rs.reverse.map Instr.pop) u = .next v ∧
      (∀ j, v.reg j = s.reg j) ∧ v.cfb = s.cfb ∧ v.run = s.run ∧
      (∀ (k : Nat) (r : Nat), rs[k]? = some r →
        v.readAt (s.reg spIdx - BitVec.ofNat 16 (2 * k)).toNat .w16 = some (s.reg r)) ∧
      SameBytesBut s v (fun d a => ∃ k, k < rs.length ∧
        s.touches (s.reg spIdx - BitVec.ofNat 16 (2 * k)).toNat .w16 d a)

/-- Stack overflow is not detected: with `sp = 0` a push stores at 0 and leaves `sp = 0xFFFE`; the
next push stores at 0xFFFE where the whole space is RAM, and raises `UnmappedAddress(0xFFFE)` in a
memory of 0x0200 bytes (70_reset_and_hazards R216, 90_conflicts C1). -/
def Obligations.StackWrapIsNotDetected : Prop :=
  (∀ (s : State) (x y : Word), s.FlatRam → s.reg spIdx = 0 →
    ∃ t u, exec (.pshLit x) s = .next t ∧ t.reg spIdx = 0xFFFE ∧ t.run = s.run ∧
      t.readAt 0 .w16 = some x ∧
      exec (.pshLit y) t = .next u ∧ u.reg spIdx = 0xFFFC ∧ u.run = s.run ∧
      u.readAt 0xFFFE .w16 = some y) ∧
  ∀ (s : State) (x y : Word) (d : Nat) (mem : Memory),
    s.mapper.regions = [{ device := d, start := 0, last := 0x1FF, remap := true }] →
    s.device d = .ram 0x200 mem → s.reg spIdx = 0 →
    ∃ t, exec (.pshLit x) s = .next t ∧ t.reg spIdx = 0xFFFE ∧ t.run = s.run ∧
      t.readAt 0 .w16 = some x ∧
      exec (.pshLit y) t = .next (takeFault (.unmappedAddress 0xFFFE) t)

/-! ## No-op -/

/-- `NOP`: its layout; its meaning changes nothing, and a step at a `NOP` byte only advances `ip` by 1,
whatever the byte is that the opcode map gives it (47_nop_halt R175). -/
def Obligations.NopChangesNothing : Prop :=
  FormatN .nop .nop ∧ (∀ s : State, exec .nop s = .next s) ∧
  ∀ s : State, s.run = .running → s.params.opcodeMap.wf → CodeAt s [s.params.opcodeMap.code .nop] →
    step s = .next (s.setReg ipIdx (s.reg ipIdx + 1))

/-! ## Frames -/

/-- Whatever an instruction does, fault included, a register outside its destination and the
registers its rule updates implicitly is unchanged: `acc` for arithmetic and logic, the first
register for shifts, `ip` for jumps, `sp` for pushes and pops, `sp`, `fp`, `ip` for calls, those and
`r1`..`r8` for `RET`, none for stores, `NOP` and `HLT` (40_move R80, 41_stack R100, R101, R104,
42_arithmetic R110, 43_logic_shift R120, R128, 44_incdec R140, R141, 45_jumps R145, 46_call_return
R166, R169, 47_nop_halt R175, R176). -/
def Obligations.OtherRegistersAreUnchanged : Prop :=
  ∀ (i : Instr) (s t : State) (j : Nat), exec i s = .next t → j ∉ mayWrite i → t.reg j = s.reg j

/-- `cfb` is moved by the stack instructions, the calls and the return only (10_state R18). -/
def Obligations.OnlyStackInstructionsMoveCfb : Prop :=
  ∀ (i : Instr) (s t : State), movesCfb i = false → exec i s = .next t → t.cfb = s.cfb

/-- An instruction that stores nothing leaves every byte of memory, and the record of writes to
peripherals, as it was (20_memory R44, R50). -/
def Obligations.NonStoringInstructionsLeaveMemory : Prop :=
  ∀ (i : Instr) (s t : State), storesToMemory i = false → exec i s = .next t →
    t.devices = s.devices ∧ t.events = s.events ∧ ∀ addr, t.byteAt addr = s.byteAt addr

/-- The moves to memory and the pushes change no byte but those of the access at their address, `sp`
for a push (20_memory R44; 40_move R83, R85, R88, R89; 41_stack R100; the 8-bit moves are the spec's
own decision D19, log entry 30). -/
def Obligations.StoresChangeOnlyTheirBytes : Prop :=
  ∀ (s t : State) (r : Nat) (lit addr : Word) (b : Byte),
    (exec (.movRegMem r addr) s = .next t → SameBytesBut s t (s.touches addr.toNat .w16)) ∧
    (exec (.movLitMem lit addr) s = .next t → SameBytesBut s t (s.touches addr.toNat .w16)) ∧
    (exec (.mov8LitMem b addr) s = .next t → SameBytesBut s t (s.touches addr.toNat .w8)) ∧
    (exec (.mov8RegMem r addr) s = .next t → SameBytesBut s t (s.touches addr.toNat .w8)) ∧
    (exec (.pshLit lit) s = .next t →
      SameBytesBut s t (s.touches (s.reg spIdx).toNat .w16)) ∧
    (exec (.pshReg r) s = .next t →
      SameBytesBut s t (s.touches (s.reg spIdx).toNat .w16))

/-- The calls change no byte but those of the ten words at `sp`, `sp - 2`, ..., `sp - 18` of the state
before (46_call_return R166, 60_exceptions R202). -/
def Obligations.CallsChangeOnlyTheFrameBytes : Prop :=
  ∀ (s t : State) (i : Instr), ((∃ target, i = .calLit target) ∨ ∃ r, i = .calReg r) →
    exec i s = .next t →
    SameBytesBut s t (fun d a => ∃ k, k < 10 ∧
      s.touches (s.reg spIdx - BitVec.ofNat 16 (2 * k)).toNat .w16 d a)

/-! ## Invariants -/

/-- Every step keeps a well-formed state well formed: RAM contents canonical and inside their
device, regions on existing devices, an opcode map that separates the opcodes (20_memory R31, R35;
30_encoding R67; the bounds of a region are the spec's own decision D25, log entry 32, and the
canonical form is the model's). -/
def Obligations.StepKeepsStateWellFormed : Prop :=
  ∀ s t : State, s.Wf → step s = .next t → t.Wf

/-- The state after reset is well formed (10_state R26, 20_memory R31, R35; the reference
configuration is log entries 1 to 5, the bounds of a region are the spec's own decision D25, log
entry 32). -/
def Obligations.ResetStateIsWellFormed : Prop := State.reset.Wf

/-- No step changes the configuration: the region list, the parameters, the kinds and lengths of the
devices (10_state R25, 20_memory R31). -/
def Obligations.StepKeepsConfiguration : Prop :=
  ∀ s t : State, step s = .next t → SameConfig s t

/-- No step of a running core raises `InvalidRegister` or `UnknownRegisterName`; the host's by-index
access is where the first is met, the core's state unchanged (60_exceptions R183, R184; that a
failing host access changes nothing is also the spec's own decision D35, log entry 20). -/
def Obligations.StepNeverRaisesRegisterFaults : Prop :=
  (∀ s t : State, s.run = .running → step s = .next t →
    (∀ i, t.run ≠ .faulted (.invalidRegister i)) ∧
    ∀ name, t.run ≠ .faulted (.unknownRegisterName name)) ∧
  ∀ (s : State) (i : Nat) (v : Int), 12 ≤ i →
    hostReadReg i s = (.error (.invalidRegister i), s) ∧
    hostWriteReg i v s = (.error (.invalidRegister i), s)

/-- With RAM devices only, no step of a running core raises `DeviceFault`, none touches the record of
peripheral accesses, and the devices stay RAM (60_exceptions R186). -/
def Obligations.RamOnlyMachineRaisesNoDeviceFault : Prop :=
  ∀ s t : State, s.ramOnly → s.run = .running → step s = .next t →
    (∀ d a w dir, t.run ≠ .faulted (.deviceFault d a w dir)) ∧
    t.events = s.events ∧ t.accesses = s.accesses ∧ t.ramOnly

/-! ## The host -/

/-- `run` is the step repeated while the core is `RUNNING`: a stopped core is left as it is, a running
one goes on from its next state, and running `m` and then `n` steps is running `m + n`
(60_exceptions R201, 70_reset_and_hazards R223). -/
def Obligations.RunRepeatsStepUntilStopped : Prop :=
  ∀ (s : State) (m n : Nat),
    (s.run ≠ .running → hostRun n s = s) ∧
    (s.run = .running → ∃ t, step s = .next t ∧ hostRun (n + 1) s = hostRun n t) ∧
    hostRun (m + n) s = hostRun n (hostRun m s)

/-- A host's memory access that fails is reported and leaves the registers, `cfb`, the run state and
all memory as they were (60_exceptions R200; the spec's own decision D35). -/
def Obligations.FailedHostAccessChangesNothing : Prop :=
  ∀ (s : State) (addr : Nat) (w : Width) (v : Word) (f : Fault),
    ((hostReadMem addr w s).1 = .error f →
      (hostReadMem addr w s).2 = { s with accesses := (hostReadMem addr w s).2.accesses }) ∧
    ((hostWriteMem addr w v s).1 = .error f →
      (hostWriteMem addr w v s).2 = { s with accesses := (hostWriteMem addr w v s).2.accesses })

/-- Loading an image that fits in one full RAM puts its bytes where the core fetches: `ip` is at the
origin, the image's bytes stand there as code, and every other byte of every device, every other
register, `cfb`, the run state, the configuration and the record of peripheral accesses are as they
were (30_encoding R73, 70_reset_and_hazards R213). -/
def Obligations.LoadedImageStandsAtIp : Prop :=
  ∀ (s : State) (origin : Word) (image : List Byte), s.FlatRam →
    origin.toNat + image.length ≤ 65536 →
    ∃ t, hostLoad origin image s = (.ok (), t) ∧ t.reg ipIdx = origin ∧ CodeAt t image ∧
      (∀ j, j ≠ ipIdx → t.reg j = s.reg j) ∧ t.cfb = s.cfb ∧ t.run = s.run ∧
      SameConfig s t ∧ t.events = s.events ∧ t.accesses = s.accesses ∧
      SameBytesBut s t (fun d a => ∃ k, k < image.length ∧ s.touches (origin.toNat + k) .w8 d a) ∧
      ∀ addr, ¬ (origin.toNat ≤ addr ∧ addr < origin.toNat + image.length) →
        t.byteAt addr = s.byteAt addr
end

