-- ==== Sys2Proof/Laws/Memory.lean ====
section
/-! SUPPORT. The memory of a RAM device: reading what was written, and every operation keeps the
canonical form and stays inside the device. -/

namespace Sys2Proof.Machine

/-! ## Erasing and inserting a cell -/

theorem Memory.read_erase_self (m : Memory) (a : Nat) : (m.erase a).read a = Memory.unlisted := by
  induction m with
  | nil => rfl
  | cons c rest ih =>
    obtain ⟨k, v⟩ := c
    by_cases h : k = a
    · simpa [Memory.erase, h] using ih
    · simpa [Memory.erase, Memory.read, h] using ih

theorem Memory.read_erase_ne (m : Memory) (a c : Nat) (h : a ≠ c) : (m.erase a).read c = m.read c := by
  induction m with
  | nil => rfl
  | cons x rest ih =>
    obtain ⟨k, v⟩ := x
    by_cases hk : k = a
    · have hc : k ≠ c := by omega
      simpa [Memory.erase, Memory.read, hk, hc, h] using ih
    · simp only [Memory.erase] at ih
      simp [Memory.erase, Memory.read, hk, ih]

theorem Memory.read_insert_self (m : Memory) (a : Nat) (b : Byte) : (m.insert a b).read a = b := by
  induction m with
  | nil => simp [Memory.insert, Memory.read]
  | cons x rest ih =>
    obtain ⟨k, v⟩ := x
    unfold Memory.insert
    split
    · have : k ≠ a := by omega
      simp [Memory.read, this, ih]
    · simp [Memory.read]

theorem Memory.read_insert_ne (m : Memory) (a c : Nat) (b : Byte) (h : a ≠ c) :
    (m.insert a b).read c = m.read c := by
  induction m with
  | nil => simp [Memory.insert, Memory.read, h]
  | cons x rest ih =>
    obtain ⟨k, v⟩ := x
    unfold Memory.insert
    split
    · simp [Memory.read, ih]
    · simp [Memory.read, h]

/-! ## Reading after a write -/

/-- A byte reads as last written. -/
@[simp] theorem Memory.read_write_self (m : Memory) (a : Nat) (b : Byte) : (m.write a b).read a = b := by
  unfold Memory.write
  split
  · next h => rw [Memory.read_erase_self, h]
  · exact Memory.read_insert_self _ _ _

/-- A write leaves every other byte alone. -/
@[simp] theorem Memory.read_write_ne (m : Memory) (a c : Nat) (b : Byte) (h : a ≠ c) :
    (m.write a b).read c = m.read c := by
  unfold Memory.write
  split
  · exact Memory.read_erase_ne m a c h
  · rw [Memory.read_insert_ne _ _ _ _ h, Memory.read_erase_ne m a c h]

/-- Any byte after a write. -/
theorem Memory.read_write (m : Memory) (a c : Nat) (b : Byte) :
    (m.write a b).read c = if a = c then b else m.read c := by
  split
  · next h => rw [← h, Memory.read_write_self]
  · next h => exact Memory.read_write_ne m a c b h

/-! ## Every operation keeps the canonical form -/

theorem Memory.wfFrom_mono {low low' : Nat} {m : Memory} (h : m.wfFrom low = true) (hl : low' ≤ low) :
    m.wfFrom low' = true := by
  cases m with
  | nil => rfl
  | cons x rest =>
    obtain ⟨k, v⟩ := x
    simp only [Memory.wfFrom, Bool.and_eq_true, decide_eq_true_eq] at h ⊢
    exact ⟨⟨by omega, h.1.2⟩, h.2⟩

theorem Memory.wfFrom_erase {low : Nat} {m : Memory} (a : Nat) (h : m.wfFrom low = true) :
    (m.erase a).wfFrom low = true := by
  induction m generalizing low with
  | nil => rfl
  | cons x rest ih =>
    obtain ⟨k, v⟩ := x
    simp only [Memory.wfFrom, Bool.and_eq_true, decide_eq_true_eq] at h
    by_cases hk : k = a
    · have := ih (Memory.wfFrom_mono h.2 (by omega : low ≤ k + 1))
      simpa [Memory.erase, hk] using this
    · have := ih h.2
      simp only [Memory.erase] at this
      simp [Memory.erase, Memory.wfFrom, hk, h.1.1, h.1.2, this]

theorem Memory.erase_no_cell (m : Memory) (a : Nat) : ∀ c ∈ m.erase a, c.1 ≠ a := by
  intro c hc
  simp only [Memory.erase, List.mem_filter, bne_iff_ne] at hc
  exact hc.2

theorem Memory.wfFrom_insert {low : Nat} {m : Memory} (a : Nat) (b : Byte) (h : m.wfFrom low = true)
    (hl : low ≤ a) (hb : b ≠ Memory.unlisted) (hn : ∀ c ∈ m, c.1 ≠ a) :
    (m.insert a b).wfFrom low = true := by
  induction m generalizing low with
  | nil => simp [Memory.insert, Memory.wfFrom, hl, hb]
  | cons x rest ih =>
    obtain ⟨k, v⟩ := x
    simp only [Memory.wfFrom, Bool.and_eq_true, decide_eq_true_eq] at h
    have hk : k ≠ a := hn (k, v) (by simp)
    unfold Memory.insert
    split
    · have := ih h.2 (by omega) (fun c hc => hn c (by simp [hc]))
      simp [Memory.wfFrom, h.1.1, h.1.2, this]
    · have : a + 1 ≤ k := by omega
      simp [Memory.wfFrom, hl, hb, this, h.1.2, h.2]

/-- A stored byte keeps the canonical form. -/
theorem Memory.wf_write {m : Memory} (a : Nat) (b : Byte) (h : m.wf = true) : (m.write a b).wf = true := by
  unfold Memory.write Memory.wf
  split
  · exact Memory.wfFrom_erase a h
  · next hb =>
    exact Memory.wfFrom_insert a b (Memory.wfFrom_erase a h) (Nat.zero_le a) hb
      (Memory.erase_no_cell m a)

/-- A store of either width keeps the canonical form. -/
theorem Memory.wf_set {m : Memory} (a : Nat) (v : Word) (w : Width) (h : m.wf = true) :
    (m.set a v w).wf = true := by
  cases w
  · exact Memory.wf_write _ _ h
  · exact Memory.wf_write _ _ (Memory.wf_write _ _ h)

/-! ## Every operation stays inside the device -/

theorem Memory.mem_insert {m : Memory} {a : Nat} {b : Byte} {c : Host.Cell} (h : c ∈ m.insert a b) :
    c = (a, b) ∨ c ∈ m := by
  induction m with
  | nil => simpa [Memory.insert] using h
  | cons x rest ih =>
    obtain ⟨k, v⟩ := x
    unfold Memory.insert at h
    split at h
    · rcases List.mem_cons.1 h with h | h
      · simp [h]
      · rcases ih h with h | h <;> simp [h]
    · simpa using h

/-- A byte stored inside the device keeps every cell inside. -/
theorem Memory.fits_write {m : Memory} {n a : Nat} (b : Byte) (h : m.fits n = true) (ha : a < n) :
    (m.write a b).fits n = true := by
  simp only [Memory.fits, List.all_eq_true, decide_eq_true_eq] at h ⊢
  intro c hc
  have he : ∀ x ∈ m.erase a, x.1 < n := fun x hx => h x (List.mem_of_mem_filter hx)
  unfold Memory.write at hc
  split at hc
  · exact he c hc
  · rcases Memory.mem_insert hc with rfl | hc
    · exact ha
    · exact he c hc

/-- A store inside the device keeps every cell inside. -/
theorem Memory.fits_set {m : Memory} {n a : Nat} (v : Word) (w : Width) (h : m.fits n = true)
    (ha : a + w.bytes ≤ n) : (m.set a v w).fits n = true := by
  cases w
  · exact Memory.fits_write _ h (by simp [Width.bytes] at ha; omega)
  · simp only [Width.bytes] at ha
    exact Memory.fits_write _ (Memory.fits_write _ h (by omega)) (by omega)

/-! ## Bytes and words -/

theorem toNat_highByte (v : Word) : (highByte v).toNat = v.toNat / 256 := by
  have := v.isLt
  simp only [highByte, BitVec.toNat_ofNat]
  omega

theorem toNat_lowByte (v : Word) : (lowByte v).toNat = v.toNat % 256 := by
  simp [lowByte]

theorem toNat_joinBytes (h l : Byte) : (joinBytes h l).toNat = h.toNat * 256 + l.toNat := by
  have := h.isLt
  have := l.isLt
  simp only [joinBytes, BitVec.toNat_ofNat]
  omega

theorem toNat_zext16 (b : Byte) : (zext16 b).toNat = b.toNat := by
  have := b.isLt
  simp only [zext16, BitVec.toNat_ofNat]
  omega

/-- The bytes of a word, joined, are the word. -/
@[simp] theorem joinBytes_high_low (v : Word) : joinBytes (highByte v) (lowByte v) = v := by
  apply BitVec.eq_of_toNat_eq
  rw [toNat_joinBytes, toNat_highByte, toNat_lowByte]
  omega

@[simp] theorem highByte_joinBytes (h l : Byte) : highByte (joinBytes h l) = h := by
  apply BitVec.eq_of_toNat_eq
  rw [toNat_highByte, toNat_joinBytes]
  have := l.isLt
  omega

@[simp] theorem lowByte_joinBytes (h l : Byte) : lowByte (joinBytes h l) = l := by
  apply BitVec.eq_of_toNat_eq
  rw [toNat_lowByte, toNat_joinBytes]
  have := l.isLt
  omega

@[simp] theorem lowByte_zext16 (b : Byte) : lowByte (zext16 b) = b := by
  apply BitVec.eq_of_toNat_eq
  rw [toNat_lowByte, toNat_zext16]
  have := b.isLt
  omega

/-- Two bytes joined are their concatenation, the first in the high half (00_scope R5). -/
theorem joinBytes_eq_append (h l : Byte) : joinBytes h l = h ++ l := by
  apply BitVec.eq_of_toNat_eq
  rw [toNat_joinBytes, BitVec.toNat_append, Nat.shiftLeft_eq, Nat.mul_comm,
    ← Nat.two_pow_add_eq_or_of_lt l.isLt]

/-- A store of a width reads back as the low bits of the value (20_memory R53). -/
theorem Memory.get_set (m : Memory) (a : Nat) (v : Word) (w : Width) :
    (m.set a v w).get a w = match w with | .w8 => zext16 (lowByte v) | .w16 => v := by
  cases w
  · simp [Memory.get, Memory.set]
  · simp [Memory.get, Memory.set]

/-- A store leaves every byte outside it alone (20_memory R33, R34). -/
theorem Memory.read_set_ne (m : Memory) (a c : Nat) (v : Word) (w : Width)
    (h : ¬ (a ≤ c ∧ c < a + w.bytes)) : (m.set a v w).read c = m.read c := by
  cases w
  · simp only [Width.bytes] at h
    exact Memory.read_write_ne _ _ _ _ (by omega)
  · simp only [Width.bytes] at h
    rw [Memory.set, Memory.read_write_ne _ _ _ _ (by omega), Memory.read_write_ne _ _ _ _ (by omega)]

end Sys2Proof.Machine
end

