-- ==== Sys2Proof/Laws/State.lean ====
section
/-! SUPPORT. The fields of a state after each update, true by definition, and the registers after a
register write. -/

namespace Sys2Proof.Machine

/-! ## `setReg` -/

@[simp] theorem State.setReg_regs (s : State) (i : Nat) (v : Word) : (s.setReg i v).regs = s.regs.setIfInBounds i v := rfl
@[simp] theorem State.setReg_cfb (s : State) (i : Nat) (v : Word) : (s.setReg i v).cfb = s.cfb := rfl
@[simp] theorem State.setReg_run (s : State) (i : Nat) (v : Word) : (s.setReg i v).run = s.run := rfl
@[simp] theorem State.setReg_devices (s : State) (i : Nat) (v : Word) : (s.setReg i v).devices = s.devices := rfl
@[simp] theorem State.setReg_mapper (s : State) (i : Nat) (v : Word) : (s.setReg i v).mapper = s.mapper := rfl
@[simp] theorem State.setReg_params (s : State) (i : Nat) (v : Word) : (s.setReg i v).params = s.params := rfl
@[simp] theorem State.setReg_events (s : State) (i : Nat) (v : Word) : (s.setReg i v).events = s.events := rfl
@[simp] theorem State.setReg_accesses (s : State) (i : Nat) (v : Word) : (s.setReg i v).accesses = s.accesses := rfl
@[simp] theorem State.setReg_device (s : State) (i : Nat) (v : Word) (k : Nat) : (s.setReg i v).device k = s.device k := rfl
@[simp] theorem State.setReg_resolve (s : State) (i : Nat) (v : Word) (addr : Nat) : (s.setReg i v).resolve addr = s.resolve addr := rfl

/-! ## `withCfb` -/

@[simp] theorem State.withCfb_regs (s : State) (v : Word) : (s.withCfb v).regs = s.regs := rfl
@[simp] theorem State.withCfb_cfb (s : State) (v : Word) : (s.withCfb v).cfb = v := rfl
@[simp] theorem State.withCfb_run (s : State) (v : Word) : (s.withCfb v).run = s.run := rfl
@[simp] theorem State.withCfb_devices (s : State) (v : Word) : (s.withCfb v).devices = s.devices := rfl
@[simp] theorem State.withCfb_mapper (s : State) (v : Word) : (s.withCfb v).mapper = s.mapper := rfl
@[simp] theorem State.withCfb_params (s : State) (v : Word) : (s.withCfb v).params = s.params := rfl
@[simp] theorem State.withCfb_events (s : State) (v : Word) : (s.withCfb v).events = s.events := rfl
@[simp] theorem State.withCfb_accesses (s : State) (v : Word) : (s.withCfb v).accesses = s.accesses := rfl
@[simp] theorem State.withCfb_reg (s : State) (v : Word) (j : Nat) : (s.withCfb v).reg j = s.reg j := rfl
@[simp] theorem State.withCfb_device (s : State) (v : Word) (k : Nat) : (s.withCfb v).device k = s.device k := rfl
@[simp] theorem State.withCfb_resolve (s : State) (v : Word) (addr : Nat) : (s.withCfb v).resolve addr = s.resolve addr := rfl

/-! ## `withRun` -/

@[simp] theorem State.withRun_regs (s : State) (v : RunState) : (s.withRun v).regs = s.regs := rfl
@[simp] theorem State.withRun_cfb (s : State) (v : RunState) : (s.withRun v).cfb = s.cfb := rfl
@[simp] theorem State.withRun_run (s : State) (v : RunState) : (s.withRun v).run = v := rfl
@[simp] theorem State.withRun_devices (s : State) (v : RunState) : (s.withRun v).devices = s.devices := rfl
@[simp] theorem State.withRun_mapper (s : State) (v : RunState) : (s.withRun v).mapper = s.mapper := rfl
@[simp] theorem State.withRun_params (s : State) (v : RunState) : (s.withRun v).params = s.params := rfl
@[simp] theorem State.withRun_events (s : State) (v : RunState) : (s.withRun v).events = s.events := rfl
@[simp] theorem State.withRun_accesses (s : State) (v : RunState) : (s.withRun v).accesses = s.accesses := rfl
@[simp] theorem State.withRun_reg (s : State) (v : RunState) (j : Nat) : (s.withRun v).reg j = s.reg j := rfl
@[simp] theorem State.withRun_device (s : State) (v : RunState) (k : Nat) : (s.withRun v).device k = s.device k := rfl
@[simp] theorem State.withRun_resolve (s : State) (v : RunState) (addr : Nat) : (s.withRun v).resolve addr = s.resolve addr := rfl

/-! ## `setRam` -/

@[simp] theorem State.setRam_regs (s : State) (d n : Nat) (m : Memory) : (s.setRam d n m).regs = s.regs := rfl
@[simp] theorem State.setRam_cfb (s : State) (d n : Nat) (m : Memory) : (s.setRam d n m).cfb = s.cfb := rfl
@[simp] theorem State.setRam_run (s : State) (d n : Nat) (m : Memory) : (s.setRam d n m).run = s.run := rfl
@[simp] theorem State.setRam_devices (s : State) (d n : Nat) (m : Memory) : (s.setRam d n m).devices = s.devices.set d (.ram n m) := rfl
@[simp] theorem State.setRam_mapper (s : State) (d n : Nat) (m : Memory) : (s.setRam d n m).mapper = s.mapper := rfl
@[simp] theorem State.setRam_params (s : State) (d n : Nat) (m : Memory) : (s.setRam d n m).params = s.params := rfl
@[simp] theorem State.setRam_events (s : State) (d n : Nat) (m : Memory) : (s.setRam d n m).events = s.events := rfl
@[simp] theorem State.setRam_accesses (s : State) (d n : Nat) (m : Memory) : (s.setRam d n m).accesses = s.accesses := rfl
@[simp] theorem State.setRam_reg (s : State) (d n : Nat) (m : Memory) (j : Nat) : (s.setRam d n m).reg j = s.reg j := rfl
@[simp] theorem State.setRam_resolve (s : State) (d n : Nat) (m : Memory) (addr : Nat) : (s.setRam d n m).resolve addr = s.resolve addr := rfl

/-! ## `countAccess` -/

@[simp] theorem State.countAccess_regs (s : State) : (s.countAccess).regs = s.regs := rfl
@[simp] theorem State.countAccess_cfb (s : State) : (s.countAccess).cfb = s.cfb := rfl
@[simp] theorem State.countAccess_run (s : State) : (s.countAccess).run = s.run := rfl
@[simp] theorem State.countAccess_devices (s : State) : (s.countAccess).devices = s.devices := rfl
@[simp] theorem State.countAccess_mapper (s : State) : (s.countAccess).mapper = s.mapper := rfl
@[simp] theorem State.countAccess_params (s : State) : (s.countAccess).params = s.params := rfl
@[simp] theorem State.countAccess_events (s : State) : (s.countAccess).events = s.events := rfl
@[simp] theorem State.countAccess_accesses (s : State) : (s.countAccess).accesses = s.accesses + 1 := rfl
@[simp] theorem State.countAccess_reg (s : State) (j : Nat) : (s.countAccess).reg j = s.reg j := rfl
@[simp] theorem State.countAccess_device (s : State) (k : Nat) : (s.countAccess).device k = s.device k := rfl
@[simp] theorem State.countAccess_resolve (s : State) (addr : Nat) : (s.countAccess).resolve addr = s.resolve addr := rfl

/-! ## `logEvent` -/

@[simp] theorem State.logEvent_regs (s : State) (e : DeviceEvent) : (s.logEvent e).regs = s.regs := rfl
@[simp] theorem State.logEvent_cfb (s : State) (e : DeviceEvent) : (s.logEvent e).cfb = s.cfb := rfl
@[simp] theorem State.logEvent_run (s : State) (e : DeviceEvent) : (s.logEvent e).run = s.run := rfl
@[simp] theorem State.logEvent_devices (s : State) (e : DeviceEvent) : (s.logEvent e).devices = s.devices := rfl
@[simp] theorem State.logEvent_mapper (s : State) (e : DeviceEvent) : (s.logEvent e).mapper = s.mapper := rfl
@[simp] theorem State.logEvent_params (s : State) (e : DeviceEvent) : (s.logEvent e).params = s.params := rfl
@[simp] theorem State.logEvent_events (s : State) (e : DeviceEvent) : (s.logEvent e).events = s.events ++ [e] := rfl
@[simp] theorem State.logEvent_accesses (s : State) (e : DeviceEvent) : (s.logEvent e).accesses = s.accesses := rfl
@[simp] theorem State.logEvent_reg (s : State) (e : DeviceEvent) (j : Nat) : (s.logEvent e).reg j = s.reg j := rfl
@[simp] theorem State.logEvent_device (s : State) (e : DeviceEvent) (k : Nat) : (s.logEvent e).device k = s.device k := rfl
@[simp] theorem State.logEvent_resolve (s : State) (e : DeviceEvent) (addr : Nat) : (s.logEvent e).resolve addr = s.resolve addr := rfl

/-! ## `takeFault` -/

@[simp] theorem takeFault_regs (f : Fault) (s : State) : (takeFault f s).regs = s.regs := rfl
@[simp] theorem takeFault_cfb (f : Fault) (s : State) : (takeFault f s).cfb = s.cfb := rfl
@[simp] theorem takeFault_run (f : Fault) (s : State) : (takeFault f s).run = .faulted f := rfl
@[simp] theorem takeFault_devices (f : Fault) (s : State) : (takeFault f s).devices = s.devices := rfl
@[simp] theorem takeFault_mapper (f : Fault) (s : State) : (takeFault f s).mapper = s.mapper := rfl
@[simp] theorem takeFault_params (f : Fault) (s : State) : (takeFault f s).params = s.params := rfl
@[simp] theorem takeFault_events (f : Fault) (s : State) : (takeFault f s).events = s.events := rfl
@[simp] theorem takeFault_accesses (f : Fault) (s : State) : (takeFault f s).accesses = s.accesses := rfl
@[simp] theorem takeFault_reg (f : Fault) (s : State) (j : Nat) : (takeFault f s).reg j = s.reg j := rfl
@[simp] theorem takeFault_device (f : Fault) (s : State) (k : Nat) : (takeFault f s).device k = s.device k := rfl

/-! ## Reading what was written -/

/-- A register reads as last written. -/
@[simp] theorem State.reg_setReg_self (s : State) (i : Nat) (v : Word) (h : i < 12) :
    (s.setReg i v).reg i = v := by
  simp [State.reg, State.setReg, h]

/-- A register write leaves every other register alone (10_state R10). -/
@[simp] theorem State.reg_setReg_ne (s : State) (i j : Nat) (v : Word) (h : i ≠ j) :
    (s.setReg i v).reg j = s.reg j := by
  simp [State.reg, State.setReg, h]

/-- Register `j` after a write of register `i`. -/
theorem State.reg_setReg (s : State) (i j : Nat) (v : Word) (h : i < 12) :
    (s.setReg i v).reg j = if i = j then v else s.reg j := by
  split
  · next e => subst e; exact State.reg_setReg_self s i v h
  · next e => exact State.reg_setReg_ne s i j v e

/-- Two states that agree in every register and every other field are equal. -/
theorem State.ext_reg {s t : State} (hr : ∀ j, j < 12 → t.reg j = s.reg j) (hc : t.cfb = s.cfb)
    (hu : t.run = s.run) (hd : t.devices = s.devices) (hm : t.mapper = s.mapper)
    (hp : t.params = s.params) (he : t.events = s.events) (ha : t.accesses = s.accesses) : t = s := by
  obtain ⟨rs, _, _, _, _, _, _, _⟩ := s
  obtain ⟨rt, _, _, _, _, _, _, _⟩ := t
  simp only at hc hu hd hm hp he ha
  subst hc hu hd hm hp he ha
  have : rt = rs := by
    apply Vector.ext
    intro j hj
    simpa [State.reg, hj] using hr j hj
  rw [this]

/-- The last of two writes of one register stands. -/
theorem State.setReg_setReg (s : State) (i : Nat) (v w : Word) :
    (s.setReg i v).setReg i w = s.setReg i w := by
  simp only [State.setReg, Vector.setIfInBounds_setIfInBounds]

/-- Writes of two registers commute. -/
theorem State.setReg_comm (s : State) (i j : Nat) (v w : Word) (h : i ≠ j) :
    (s.setReg i v).setReg j w = (s.setReg j w).setReg i v := by
  have : (s.regs.setIfInBounds i v).setIfInBounds j w = (s.regs.setIfInBounds j w).setIfInBounds i v := by
    apply Vector.ext
    intro k hk
    simp only [Vector.getElem_setIfInBounds]
    by_cases hi : i = k
    · have hj : j ≠ k := fun e => h (hi.trans e.symm)
      simp [hi, hj]
    · simp [hi]
  simp only [State.setReg, this]

/-- Writes of a register and of `cfb` commute. -/
theorem State.setReg_withCfb (s : State) (i : Nat) (v c : Word) :
    (s.withCfb c).setReg i v = (s.setReg i v).withCfb c := rfl

/-- The last of two writes of `cfb` stands. -/
theorem State.withCfb_withCfb (s : State) (c e : Word) : (s.withCfb c).withCfb e = s.withCfb e := rfl

/-- A write of the value a register holds changes nothing. -/
theorem State.setReg_reg (s : State) (i : Nat) (h : i < 12) : s.setReg i (s.reg i) = s := by
  apply State.ext_reg <;> try rfl
  intro j _
  rw [State.reg_setReg s i j _ h]
  split
  · next e => rw [e]
  · rfl

end Sys2Proof.Machine
end

