-- ==== Sys2Proof/Laws/Ops.lean ====
section
/-! SUPPORT. What each shared operation can do, said once: sequencing, register access, memory
access, the stack primitives, operand fetch. -/

namespace Sys2Proof.Machine

/-! ## Sequencing -/

/-- A sequence runs its second part from where the first ends, or stops with the first's fault. -/
theorem bind_apply {α β : Type} (x : Exec α) (f : α → Exec β) (s : State) :
    (x >>= f) s = match x s with
      | .ok a t => f a t
      | .error e t => .error e t := by
  show EStateM.bind x f s = _
  unfold EStateM.bind
  cases x s <;> rfl

@[simp] theorem pure_apply {α : Type} (a : α) (s : State) : (pure a : Exec α) s = .ok a s := rfl

@[simp] theorem get_apply (s : State) : (get : Exec State) s = .ok s s := rfl

@[simp] theorem raise_apply {α : Type} (f : Fault) (s : State) : (raise f : Exec α) s = .error f s := rfl

theorem bind_ok {α β : Type} {x : Exec α} {f : α → Exec β} {s t : State} {a : α} (h : x s = .ok a t) :
    (x >>= f) s = f a t := by
  rw [bind_apply, h]

theorem bind_error {α β : Type} {x : Exec α} {f : α → Exec β} {s t : State} {e : Fault}
    (h : x s = .error e t) : (x >>= f) s = .error e t := by
  rw [bind_apply, h]

/-- A sequence that ends well: both parts did. -/
theorem bind_eq_ok {α β : Type} {x : Exec α} {f : α → Exec β} {s u : State} {b : β}
    (h : (x >>= f) s = .ok b u) : ∃ a t, x s = .ok a t ∧ f a t = .ok b u := by
  rw [bind_apply] at h
  cases hx : x s with
  | ok a t => rw [hx] at h; exact ⟨a, t, rfl, h⟩
  | error e t => rw [hx] at h; exact nomatch h

/-- A sequence that stops: its first part did, or its second after the first ended well. -/
theorem bind_eq_error {α β : Type} {x : Exec α} {f : α → Exec β} {s u : State} {e : Fault}
    (h : (x >>= f) s = .error e u) :
    x s = .error e u ∨ ∃ a t, x s = .ok a t ∧ f a t = .error e u := by
  rw [bind_apply] at h
  cases hx : x s with
  | ok a t => rw [hx] at h; exact .inr ⟨a, t, rfl, h⟩
  | error e' t => rw [hx] at h; exact .inl (by simpa using h)

/-! ## The outcome of an instruction -/

theorem finish_ok {m : Exec Unit} {s t : State} (h : m s = .ok () t) : finish m s = .next t := by
  simp only [finish, h]

theorem finish_error {m : Exec Unit} {s t : State} {f : Fault} (h : m s = .error f t) :
    finish m s = .next (takeFault f t) := by
  simp only [finish, h]

/-- Everything an instruction's outcome can be: the state its statements reach, or the state at the
faulting statement with the fault taken (60_exceptions R187, R188). -/
theorem finish_cases (m : Exec Unit) (s : State) :
    (∃ t, m s = .ok () t ∧ finish m s = .next t) ∨
    (∃ f t, m s = .error f t ∧ finish m s = .next (takeFault f t)) := by
  cases h : m s with
  | ok a t => exact .inl ⟨t, rfl, finish_ok h⟩
  | error f t => exact .inr ⟨f, t, rfl, finish_error h⟩

/-! ## Registers, the counter and the run state -/

theorem regRead_ok {i : Nat} (h : i < 12) (s : State) : regRead i s = .ok (s.reg i) s := by
  simp only [regRead, h, if_true]

theorem regRead_invalid {i : Nat} (h : ¬ i < 12) (s : State) :
    regRead i s = .error (.invalidRegister i) s := by
  simp only [regRead, h, if_false]

theorem regWrite_ok {i : Nat} (h : i < 12) (v : Word) (s : State) :
    regWrite i v s = .ok () (s.setReg i v) := by
  simp only [regWrite, h, if_true]

theorem regWrite_invalid {i : Nat} (h : ¬ i < 12) (v : Word) (s : State) :
    regWrite i v s = .error (.invalidRegister i) s := by
  simp only [regWrite, h, if_false]

@[simp] theorem regRead_ip (s : State) : regRead ipIdx s = .ok (s.reg ipIdx) s := rfl
@[simp] theorem regRead_acc (s : State) : regRead accIdx s = .ok (s.reg accIdx) s := rfl
@[simp] theorem regRead_sp (s : State) : regRead spIdx s = .ok (s.reg spIdx) s := rfl
@[simp] theorem regRead_fp (s : State) : regRead fpIdx s = .ok (s.reg fpIdx) s := rfl
@[simp] theorem regWrite_ip (v : Word) (s : State) : regWrite ipIdx v s = .ok () (s.setReg ipIdx v) := rfl
@[simp] theorem regWrite_acc (v : Word) (s : State) : regWrite accIdx v s = .ok () (s.setReg accIdx v) := rfl
@[simp] theorem regWrite_sp (v : Word) (s : State) : regWrite spIdx v s = .ok () (s.setReg spIdx v) := rfl
@[simp] theorem regWrite_fp (v : Word) (s : State) : regWrite fpIdx v s = .ok () (s.setReg fpIdx v) := rfl
@[simp] theorem setCfb_apply (v : Word) (s : State) : setCfb v s = .ok () (s.withCfb v) := rfl
@[simp] theorem getCfb_apply (s : State) : getCfb s = .ok s.cfb s := rfl
@[simp] theorem setRun_apply (v : RunState) (s : State) : setRun v s = .ok () (s.withRun v) := rfl

/-! ## Arithmetic on 16 bits -/

theorem toNat_trunc16 (v : Int) : (trunc16 v).toNat = (v % 65536).toNat := BitVec.toNat_ofInt v

theorem add16_eq (a b : Word) : add16 a b = a + b := by
  apply BitVec.eq_of_toNat_eq
  rw [add16, toNat_trunc16, BitVec.toNat_add]
  omega

theorem sub16_eq (a b : Word) : sub16 a b = a - b := by
  apply BitVec.eq_of_toNat_eq
  rw [sub16, toNat_trunc16, BitVec.toNat_sub]
  have := a.isLt
  have := b.isLt
  omega

theorem mul16_eq (a b : Word) : mul16 a b = a * b := by
  apply BitVec.eq_of_toNat_eq
  rw [mul16, toNat_trunc16, BitVec.toNat_mul, ← Int.natCast_mul]
  omega

theorem trunc16_natCast (n : Nat) : trunc16 (n : Int) = BitVec.ofNat 16 n := by
  simp [trunc16]

theorem not16_eq (v : Word) : not16 v = ~~~v := by
  have h : (0xFFFF : Int) - (v.toNat : Int) = ((65535 - v.toNat : Nat) : Int) := by
    have := v.isLt
    omega
  rw [not16, h, trunc16_natCast]
  apply BitVec.eq_of_toNat_eq
  simp only [BitVec.toNat_ofNat, BitVec.toNat_not]
  have := v.isLt
  omega

theorem lsh16_eq (v : Word) (n : Nat) : lsh16 v n = v <<< n := by
  apply BitVec.eq_of_toNat_eq
  unfold lsh16
  split
  · rw [trunc16_natCast]
    simp [Nat.shiftLeft_eq]
  · next h =>
    have : v <<< n = 0#16 := BitVec.shiftLeft_eq_zero (by omega)
    rw [this]
    rfl

theorem rsh16_eq (v : Word) (n : Nat) : rsh16 v n = v >>> n := by
  apply BitVec.eq_of_toNat_eq
  unfold rsh16
  split
  · rw [trunc16_natCast]
    have h1 : v.toNat / 2 ^ n < 2 ^ 16 := lt_of_le_of_lt (Nat.div_le_self _ _) v.isLt
    rw [BitVec.toNat_ofNat, BitVec.toNat_ushiftRight, Nat.shiftRight_eq_div_pow, Nat.mod_eq_of_lt h1]
  · next h =>
    have : v >>> n = 0#16 := BitVec.ushiftRight_eq_zero (by omega)
    rw [this]
    rfl

theorem addCfb_two (s : State) : addCfb 2 s = .ok () (s.withCfb (s.cfb + 2)) := by
  have : trunc16 ((s.cfb.toNat : Int) + 2) = s.cfb + 2 := add16_eq s.cfb 2
  simp only [addCfb, this]

theorem addCfb_neg_two (s : State) : addCfb (-2) s = .ok () (s.withCfb (s.cfb - 2)) := by
  have : trunc16 ((s.cfb.toNat : Int) + -2) = s.cfb - 2 := sub16_eq s.cfb 2
  simp only [addCfb, this]

/-! ## Memory accesses -/

theorem memRead_apply (addr : Nat) (w : Width) (s : State) :
    memRead addr w s = match s.resolve addr with
      | some (d, a) => deviceGet d a w s
      | none => .error (.unmappedAddress addr) s := by
  simp only [memRead, bind_apply, findRegion, State.resolve]
  cases s.mapper.find addr <;> rfl

theorem memWrite_apply (addr : Nat) (w : Width) (v : Word) (s : State) :
    memWrite addr w v s = match s.resolve addr with
      | some (d, a) => deviceSet d a w v s
      | none => .error (.unmappedAddress addr) s := by
  simp only [memWrite, bind_apply, findRegion, State.resolve]
  cases s.mapper.find addr <;> rfl

/-- A read that succeeds in RAM answers what `readAt` says and changes nothing. -/
theorem memRead_ram {s : State} {addr : Nat} {w : Width} {v : Word} (h : s.readAt addr w = some v) :
    memRead addr w s = .ok v s := by
  rw [memRead_apply]
  unfold State.readAt at h
  cases hr : s.resolve addr with
  | none => simp [hr] at h
  | some p =>
    obtain ⟨d, a⟩ := p
    simp only [hr] at h ⊢
    cases hd : s.device d with
    | peripheral => simp [hd] at h
    | ram n m =>
      simp only [hd] at h
      split at h
      · next hb => simp_all [deviceGet]
      · exact nomatch h

/-- A write where a read would succeed in RAM succeeds and gives the stored state. -/
theorem memWrite_ram {s : State} {addr : Nat} {w : Width} {v0 : Word} (v : Word)
    (h : s.readAt addr w = some v0) : memWrite addr w v s = .ok () (s.store addr w v) := by
  rw [memWrite_apply]
  unfold State.readAt at h
  unfold State.store
  cases hr : s.resolve addr with
  | none => simp [hr] at h
  | some p =>
    obtain ⟨d, a⟩ := p
    simp only [hr] at h ⊢
    cases hd : s.device d with
    | peripheral => simp [hd] at h
    | ram n m =>
      simp only [hd] at h
      split at h
      · next hb => simp_all [deviceSet]
      · exact nomatch h

/-- Everything a read that answers can do: nothing to the state but to count the access to a
peripheral. -/
theorem memRead_ok_cases {s t : State} {addr : Nat} {w : Width} {v : Word}
    (h : memRead addr w s = .ok v t) : (t = s ∧ s.readAt addr w = some v) ∨
      (∃ d a, s.resolve addr = some (d, a) ∧ s.device d = .peripheral ∧ t = s.countAccess) := by
  rw [memRead_apply] at h
  unfold State.readAt
  cases hr : s.resolve addr with
  | none => simp [hr] at h
  | some p =>
    obtain ⟨d, a⟩ := p
    simp only [hr, deviceGet] at h ⊢
    cases hd : s.device d with
    | peripheral =>
      simp only [hd] at h
      split at h
      · simp only [EStateM.Result.ok.injEq] at h
        exact .inr ⟨d, a, rfl, hd, h.2.symm⟩
      · exact nomatch h
    | ram n m =>
      simp only [hd] at h ⊢
      split at h
      · next hb =>
        simp only [EStateM.Result.ok.injEq] at h
        exact .inl ⟨h.2.symm, by simp [hb, h.1]⟩
      · exact nomatch h

/-- Everything a read that faults can do: the fault is one of three, and the state is as before but
for the count of accesses to peripherals. -/
theorem memRead_error_cases {s t : State} {addr : Nat} {w : Width} {f : Fault}
    (h : memRead addr w s = .error f t) :
    (t = s ∧ f = .unmappedAddress addr ∧ s.resolve addr = none) ∨
    (∃ d a n m, t = s ∧ s.resolve addr = some (d, a) ∧ s.device d = .ram n m ∧ ¬ a + w.bytes ≤ n ∧
      f = .outOfRange a w.bytes n) ∨
    (∃ d a, t = s.countAccess ∧ s.resolve addr = some (d, a) ∧ s.device d = .peripheral ∧
      f = .deviceFault d a w.bytes .read) := by
  rw [memRead_apply] at h
  cases hr : s.resolve addr with
  | none =>
    simp only [hr, EStateM.Result.error.injEq] at h
    exact .inl ⟨h.2.symm, h.1.symm, rfl⟩
  | some p =>
    obtain ⟨d, a⟩ := p
    simp only [hr, deviceGet] at h
    cases hd : s.device d with
    | peripheral =>
      simp only [hd] at h
      split at h
      · exact nomatch h
      · simp only [EStateM.Result.error.injEq] at h
        exact .inr (.inr ⟨d, a, h.2.symm, rfl, hd, h.1.symm⟩)
    | ram n m =>
      simp only [hd] at h
      split at h
      · exact nomatch h
      · next hb =>
        simp only [EStateM.Result.error.injEq] at h
        exact .inr (.inl ⟨d, a, n, m, h.2.symm, rfl, hd, hb, h.1.symm⟩)

/-- Everything a write that succeeds can do: store in RAM, or count and record an access to a
peripheral. -/
theorem memWrite_ok_cases {s t : State} {addr : Nat} {w : Width} {v : Word}
    (h : memWrite addr w v s = .ok () t) :
    (∃ d a n m, s.resolve addr = some (d, a) ∧ s.device d = .ram n m ∧ a + w.bytes ≤ n ∧
      t = s.setRam d n (m.set a v w)) ∨
    (∃ d a, s.resolve addr = some (d, a) ∧ s.device d = .peripheral ∧
      t = s.countAccess.logEvent { device := d, localAddr := a, width := w.bytes, value := v }) := by
  rw [memWrite_apply] at h
  cases hr : s.resolve addr with
  | none => simp [hr] at h
  | some p =>
    obtain ⟨d, a⟩ := p
    simp only [hr, deviceSet] at h
    cases hd : s.device d with
    | peripheral =>
      simp only [hd] at h
      split at h
      · simp only [EStateM.Result.ok.injEq] at h
        exact .inr ⟨d, a, rfl, hd, h.2.symm⟩
      · exact nomatch h
    | ram n m =>
      simp only [hd] at h
      split at h
      · next hb =>
        simp only [EStateM.Result.ok.injEq] at h
        exact .inl ⟨d, a, n, m, rfl, hd, hb, h.2.symm⟩
      · exact nomatch h

/-- Everything a write that faults can do: no byte changes. -/
theorem memWrite_error_cases {s t : State} {addr : Nat} {w : Width} {v : Word} {f : Fault}
    (h : memWrite addr w v s = .error f t) :
    (t = s ∧ f = .unmappedAddress addr ∧ s.resolve addr = none) ∨
    (∃ d a n m, t = s ∧ s.resolve addr = some (d, a) ∧ s.device d = .ram n m ∧ ¬ a + w.bytes ≤ n ∧
      f = .outOfRange a w.bytes n) ∨
    (∃ d a, t = s.countAccess ∧ s.resolve addr = some (d, a) ∧ s.device d = .peripheral ∧
      f = .deviceFault d a w.bytes .write) := by
  rw [memWrite_apply] at h
  cases hr : s.resolve addr with
  | none =>
    simp only [hr, EStateM.Result.error.injEq] at h
    exact .inl ⟨h.2.symm, h.1.symm, rfl⟩
  | some p =>
    obtain ⟨d, a⟩ := p
    simp only [hr, deviceSet] at h
    cases hd : s.device d with
    | peripheral =>
      simp only [hd] at h
      split at h
      · exact nomatch h
      · simp only [EStateM.Result.error.injEq] at h
        exact .inr (.inr ⟨d, a, h.2.symm, rfl, hd, h.1.symm⟩)
    | ram n m =>
      simp only [hd] at h
      split at h
      · exact nomatch h
      · next hb =>
        simp only [EStateM.Result.error.injEq] at h
        exact .inr (.inl ⟨d, a, n, m, h.2.symm, rfl, hd, hb, h.1.symm⟩)

/-! ## The stack primitives -/

/-- A push as its write and the two updates after it (41_stack R100). -/
theorem push_apply (v : Word) (s : State) :
    push v s = match memWrite (s.reg spIdx).toNat .w16 v s with
      | .ok _ t => .ok () ((t.setReg spIdx (s.reg spIdx - 2)).withCfb (t.cfb + 2))
      | .error f t => .error f t := by
  simp only [push, bind_apply, regRead_sp]
  cases memWrite (s.reg spIdx).toNat .w16 v s with
  | ok a t => simp only [regWrite_sp, addCfb_two, sub16_eq, State.setReg_cfb]
  | error f t => rfl

/-- A pop as its read after the two updates (41_stack R101). -/
theorem pop_apply (s : State) :
    pop s = memRead (s.reg spIdx + 2).toNat .w16
      ((s.setReg spIdx (s.reg spIdx + 2)).withCfb (s.cfb - 2)) := by
  simp only [pop, bind_apply, regRead_sp, regWrite_sp, addCfb_neg_two, add16_eq, State.setReg_cfb]

/-! ## Operand fetch -/

/-- A byte fetch as its read and the advance after it (30_encoding R62). -/
theorem fetch8_apply (s : State) :
    fetch8 s = match memRead (s.reg ipIdx).toNat .w8 s with
      | .ok v t => .ok (lowByte v) (t.setReg ipIdx (s.reg ipIdx + 1))
      | .error f t => .error f t := by
  simp only [fetch8, bind_apply, regRead_ip]
  cases memRead (s.reg ipIdx).toNat .w8 s with
  | ok a t => simp only [regWrite_ip, add16_eq, pure_apply]
  | error f t => rfl

/-- A word fetch as its read and the advance after it (30_encoding R62). -/
theorem fetch16_apply (s : State) :
    fetch16 s = match memRead (s.reg ipIdx).toNat .w16 s with
      | .ok v t => .ok v (t.setReg ipIdx (s.reg ipIdx + 2))
      | .error f t => .error f t := by
  simp only [fetch16, bind_apply, regRead_ip]
  cases memRead (s.reg ipIdx).toNat .w16 s with
  | ok a t => simp only [regWrite_ip, add16_eq, pure_apply]
  | error f t => rfl

/-- An instruction fetch as its opcode fetch and, where the byte is a code, its operand fetches
(30_encoding R66, R68). -/
theorem fetchInstr_apply (s : State) :
    fetchInstr s = match fetch8 s with
      | .ok b t =>
        match t.params.opcodeMap.lookup b with
        | none => .error (.illegalOpcode b (s.reg ipIdx)) t
        | some op =>
          match fetchOperands op.schema t with
          | .ok os u => .ok (op.assemble os) u
          | .error f u => .error f u
      | .error f t => .error f t := by
  unfold fetchInstr
  rw [bind_ok (regRead_ip s), bind_apply]
  cases fetch8 s with
  | error f t => rfl
  | ok b t =>
    simp only
    rw [bind_ok (get_apply t)]
    cases t.params.opcodeMap.lookup b with
    | none => rfl
    | some op =>
      show (fetchOperands op.schema >>= fun os => pure (op.assemble os)) t = _
      cases h : fetchOperands op.schema t <;> simp only [bind_apply, h, pure_apply]

end Sys2Proof.Machine
end

