-- ==== Sys2Proof/Laws/Access.lean ====
section
/-! SUPPORT. What an address reads, and what a store changes, in a state after an update. -/

namespace Sys2Proof.Machine

/-! ## Updates that touch no memory -/

@[simp] theorem State.readAt_setReg (s : State) (i : Nat) (v : Word) (addr : Nat) (w : Width) :
    (s.setReg i v).readAt addr w = s.readAt addr w := rfl
@[simp] theorem State.readAt_withCfb (s : State) (v : Word) (addr : Nat) (w : Width) :
    (s.withCfb v).readAt addr w = s.readAt addr w := rfl
@[simp] theorem State.readAt_withRun (s : State) (v : RunState) (addr : Nat) (w : Width) :
    (s.withRun v).readAt addr w = s.readAt addr w := rfl
@[simp] theorem State.ramAccess_setReg (s : State) (i : Nat) (v : Word) (addr : Nat) (w : Width) :
    (s.setReg i v).ramAccess addr w = s.ramAccess addr w := rfl
@[simp] theorem State.ramAccess_withCfb (s : State) (v : Word) (addr : Nat) (w : Width) :
    (s.withCfb v).ramAccess addr w = s.ramAccess addr w := rfl
@[simp] theorem State.accessFault_setReg (s : State) (i : Nat) (v : Word) (addr : Nat) (w : Width) :
    (s.setReg i v).accessFault addr w = s.accessFault addr w := rfl
@[simp] theorem State.accessFault_withCfb (s : State) (v : Word) (addr : Nat) (w : Width) :
    (s.withCfb v).accessFault addr w = s.accessFault addr w := rfl
theorem State.store_setReg (s : State) (i : Nat) (x : Word) (addr : Nat) (w : Width) (v : Word) :
    (s.setReg i x).store addr w v = (s.store addr w v).setReg i x := by
  unfold State.store
  simp only [State.setReg_resolve, State.setReg_device]
  split
  · split
    · split <;> rfl
    · rfl
  · rfl
theorem State.store_withCfb (s : State) (x : Word) (addr : Nat) (w : Width) (v : Word) :
    (s.withCfb x).store addr w v = (s.store addr w v).withCfb x := by
  unfold State.store
  simp only [State.withCfb_resolve, State.withCfb_device]
  split
  · split
    · split <;> rfl
    · rfl
  · rfl

/-! ## A store -/

/-- A store either leaves the state alone or replaces one RAM's contents. -/
theorem State.store_cases (s : State) (addr : Nat) (w : Width) (v : Word) :
    (∃ d a n m, s.resolve addr = some (d, a) ∧ s.device d = .ram n m ∧ a + w.bytes ≤ n ∧
      s.store addr w v = s.setRam d n (m.set a v w)) ∨
    (s.ramAccess addr w = false ∧ s.store addr w v = s) := by
  unfold State.store State.ramAccess State.readAt
  cases hr : s.resolve addr with
  | none => exact .inr ⟨rfl, rfl⟩
  | some p =>
    obtain ⟨d, a⟩ := p
    simp only
    cases hd : s.device d with
    | peripheral => exact .inr ⟨rfl, rfl⟩
    | ram n m =>
      by_cases hb : a + w.bytes ≤ n
      · exact .inl ⟨d, a, n, m, rfl, hd, hb, by simp [hb]⟩
      · exact .inr ⟨by simp [hb], by simp [hb]⟩

@[simp] theorem State.store_reg (s : State) (addr : Nat) (w : Width) (v : Word) (j : Nat) :
    (s.store addr w v).reg j = s.reg j := by
  rcases s.store_cases addr w v with ⟨_, _, _, _, _, _, _, h⟩ | ⟨_, h⟩ <;> rw [h]
  rfl
@[simp] theorem State.store_cfb (s : State) (addr : Nat) (w : Width) (v : Word) :
    (s.store addr w v).cfb = s.cfb := by
  rcases s.store_cases addr w v with ⟨_, _, _, _, _, _, _, h⟩ | ⟨_, h⟩ <;> rw [h]
  rfl
@[simp] theorem State.store_run (s : State) (addr : Nat) (w : Width) (v : Word) :
    (s.store addr w v).run = s.run := by
  rcases s.store_cases addr w v with ⟨_, _, _, _, _, _, _, h⟩ | ⟨_, h⟩ <;> rw [h]
  rfl
@[simp] theorem State.store_mapper (s : State) (addr : Nat) (w : Width) (v : Word) :
    (s.store addr w v).mapper = s.mapper := by
  rcases s.store_cases addr w v with ⟨_, _, _, _, _, _, _, h⟩ | ⟨_, h⟩ <;> rw [h]
  rfl
@[simp] theorem State.store_params (s : State) (addr : Nat) (w : Width) (v : Word) :
    (s.store addr w v).params = s.params := by
  rcases s.store_cases addr w v with ⟨_, _, _, _, _, _, _, h⟩ | ⟨_, h⟩ <;> rw [h]
  rfl
@[simp] theorem State.store_events (s : State) (addr : Nat) (w : Width) (v : Word) :
    (s.store addr w v).events = s.events := by
  rcases s.store_cases addr w v with ⟨_, _, _, _, _, _, _, h⟩ | ⟨_, h⟩ <;> rw [h]
  rfl
@[simp] theorem State.store_accesses (s : State) (addr : Nat) (w : Width) (v : Word) :
    (s.store addr w v).accesses = s.accesses := by
  rcases s.store_cases addr w v with ⟨_, _, _, _, _, _, _, h⟩ | ⟨_, h⟩ <;> rw [h]
  rfl
@[simp] theorem State.store_resolve (s : State) (addr : Nat) (w : Width) (v : Word) (b : Nat) :
    (s.store addr w v).resolve b = s.resolve b := by
  unfold State.resolve
  rw [State.store_mapper]

/-- A device after one RAM's contents are replaced. -/
theorem State.device_setRam {s : State} {d n : Nat} {m : Memory} (mem : Memory)
    (h : s.device d = .ram n m) (hn : 0 < n) (k : Nat) :
    (s.setRam d n mem).device k = if d = k then .ram n mem else s.device k := by
  have hd : d < s.devices.length := by
    by_contra hc
    simp only [State.device, List.getElem?_eq_none (Nat.le_of_not_lt hc)] at h
    simp at h
    omega
  simp only [State.device, State.setRam_devices, List.getElem?_set]
  split
  · simp
  · rfl

/-- A byte of a device after a store that succeeds: one of the access's bytes, or as before. -/
theorem State.deviceByte_store {s : State} {addr d a : Nat} {w : Width} (v : Word)
    (hr : s.resolve addr = some (d, a)) (h : s.ramAccess addr w = true) (d' a' : Nat) :
    (s.store addr w v).deviceByte d' a' =
      if d = d' ∧ a ≤ a' ∧ a' < a + w.bytes then
        some (if w = .w16 ∧ a' = a then highByte v else lowByte v)
      else s.deviceByte d' a' := by
  rcases s.store_cases addr w v with ⟨d1, a1, n, m, hr1, hd, hb, h1⟩ | ⟨h1, _⟩
  · obtain ⟨rfl, rfl⟩ := Prod.mk.inj (Option.some.inj (hr.symm.trans hr1))
    have hn : 0 < n := by cases w <;> simp [Width.bytes] at hb <;> omega
    unfold State.deviceByte
    rw [h1, State.device_setRam _ hd hn]
    by_cases hdd : d = d'
    · subst hdd
      simp only [if_true, hd, true_and]
      cases w
      · simp only [Width.bytes, Memory.set, Memory.read_write] at hb ⊢
        by_cases e : a = a'
        · subst e
          simp
          omega
        · have : ¬ (a ≤ a' ∧ a' < a + 1) := by omega
          simp only [e, this, if_false]
      · simp only [Width.bytes, Memory.set, Memory.read_write] at hb ⊢
        by_cases e : a + 1 = a'
        · subst e
          simp
          omega
        · by_cases e2 : a = a'
          · subst e2
            simp
            omega
          · have : ¬ (a ≤ a' ∧ a' < a + 2) := by omega
            simp [e, e2, this]
    · simp [hdd]
  · rw [h] at h1
    exact nomatch h1

/-- What a read gives, in terms of the bytes it reads. -/
theorem State.readAt_eq (s : State) (addr : Nat) (w : Width) : s.readAt addr w =
    match s.resolve addr, w with
    | none, _ => none
    | some (d, a), .w8 => (s.deviceByte d a).map zext16
    | some (d, a), .w16 =>
      match s.deviceByte d a, s.deviceByte d (a + 1) with
      | some h, some l => some (joinBytes h l)
      | _, _ => none := by
  unfold State.readAt State.deviceByte
  cases s.resolve addr with
  | none => rfl
  | some p =>
    obtain ⟨d, a⟩ := p
    cases hd : s.device d with
    | peripheral => cases w <;> simp [hd]
    | ram n m =>
      cases w
      · simp only [hd, Width.bytes, Memory.get]
        by_cases hb : a + 1 ≤ n
        · have : a < n := by omega
          simp [hb, this]
        · have : ¬ a < n := by omega
          simp [hb, this]
      · simp only [hd, Width.bytes, Memory.get]
        by_cases hb : a + 2 ≤ n
        · have h1 : a < n := by omega
          have h2 : a + 1 < n := by omega
          simp [hb, h1, h2]
        · have : ¬ a + 1 < n := by omega
          simp only [hb, this, if_false]
          split <;> simp_all

/-- A read after a store at the same address. -/
theorem State.readAt_store_same {s : State} {addr : Nat} (v : Word) (h : s.ramAccess addr .w16 = true) :
    (s.store addr .w16 v).readAt addr .w16 = some v := by
  cases hr : s.resolve addr with
  | none => simp [State.ramAccess, State.readAt, hr] at h
  | some p =>
    obtain ⟨d, a⟩ := p
    rw [State.readAt_eq, State.store_resolve, hr]
    simp only [State.deviceByte_store v hr h, Width.bytes]
    simp

/-- A read after a store whose bytes it does not touch. -/
theorem State.readAt_store_disjoint {s : State} {addr d a : Nat} {w : Width} (v : Word)
    (hr : s.resolve addr = some (d, a)) (addr' : Nat) (w' : Width)
    (hd : ∀ a', s.resolve addr' = some (d, a') → a' + w'.bytes ≤ a ∨ a + w.bytes ≤ a') :
    (s.store addr w v).readAt addr' w' = s.readAt addr' w' := by
  by_cases h : s.ramAccess addr w = true
  · rw [State.readAt_eq, State.readAt_eq, State.store_resolve]
    cases hr' : s.resolve addr' with
    | none => rfl
    | some p =>
      obtain ⟨d', a'⟩ := p
      have key : ∀ k, k < w'.bytes →
          (s.store addr w v).deviceByte d' (a' + k) = s.deviceByte d' (a' + k) := by
        intro k hk
        rw [State.deviceByte_store v hr h]
        have : ¬ (d = d' ∧ a ≤ a' + k ∧ a' + k < a + w.bytes) := by
          rintro ⟨rfl, h1, h2⟩
          have := hd a' hr'
          omega
        simp only [this, if_false]
      cases w'
      · have k0 := key 0 (by decide)
        simp only [Nat.add_zero] at k0
        simp only [k0]
      · have k0 := key 0 (by decide)
        have k1 := key 1 (by decide)
        simp only [Nat.add_zero] at k0
        simp only [k0, k1]
  · rcases s.store_cases addr w v with ⟨d1, a1, n, m, hr1, hd1, hb, h1⟩ | ⟨_, h1⟩
    · exact absurd (by simp [State.ramAccess, State.readAt, hr1, hd1, hb]) h
    · rw [h1]

/-- Which accesses succeed in RAM is not changed by a store. -/
@[simp] theorem State.ramAccess_store (s : State) (addr : Nat) (w : Width) (v : Word) (b : Nat) (x : Width) :
    (s.store addr w v).ramAccess b x = s.ramAccess b x := by
  rcases s.store_cases addr w v with ⟨d, a, n, m, hr, hd, hb, h⟩ | ⟨_, h⟩
  · have hn : 0 < n := by cases w <;> simp [Width.bytes] at hb <;> omega
    unfold State.ramAccess State.readAt
    rw [h, State.setRam_resolve]
    cases s.resolve b with
    | none => rfl
    | some p =>
      obtain ⟨d', a'⟩ := p
      simp only [State.device_setRam _ hd hn]
      by_cases e : d = d'
      · subst e
        simp only [if_true, hd]
        split <;> rfl
      · simp only [e, if_false]
  · rw [h]

/-- Which fault an access raises is not changed by a store. -/
@[simp] theorem State.accessFault_store (s : State) (addr : Nat) (w : Width) (v : Word) (b : Nat) (x : Width) :
    (s.store addr w v).accessFault b x = s.accessFault b x := by
  rcases s.store_cases addr w v with ⟨d, a, n, m, hr, hd, hb, h⟩ | ⟨_, h⟩
  · have hn : 0 < n := by cases w <;> simp [Width.bytes] at hb <;> omega
    unfold State.accessFault
    rw [h, State.setRam_resolve]
    cases s.resolve b with
    | none => rfl
    | some p =>
      obtain ⟨d', a'⟩ := p
      simp only [State.device_setRam _ hd hn]
      by_cases e : d = d'
      · subst e
        simp only [if_true, hd]
      · simp only [e, if_false]
  · rw [h]

/-! ## Accesses -/

/-- A write that succeeds in RAM. -/
theorem memWrite_of_ramAccess {s : State} {addr : Nat} {w : Width} (v : Word)
    (h : s.ramAccess addr w = true) : memWrite addr w v s = .ok () (s.store addr w v) := by
  obtain ⟨x, hx⟩ := Option.isSome_iff_exists.mp h
  exact memWrite_ram v hx

/-- A read of the fault that `accessFault` names. -/
theorem memRead_of_accessFault {s : State} {addr : Nat} {w : Width} {f : Fault}
    (h : s.accessFault addr w = some f) : memRead addr w s = .error f s := by
  rw [memRead_apply]
  unfold State.accessFault at h
  cases hr : s.resolve addr with
  | none => simp_all
  | some p =>
    obtain ⟨d, a⟩ := p
    simp only [hr] at h ⊢
    cases hd : s.device d with
    | peripheral => simp [hd] at h
    | ram n m =>
      simp only [hd] at h
      split at h
      · exact nomatch h
      · next hb => simp_all [deviceGet]

/-- A write of the fault that `accessFault` names. -/
theorem memWrite_of_accessFault {s : State} {addr : Nat} {w : Width} {f : Fault} (v : Word)
    (h : s.accessFault addr w = some f) : memWrite addr w v s = .error f s := by
  rw [memWrite_apply]
  unfold State.accessFault at h
  cases hr : s.resolve addr with
  | none => simp_all
  | some p =>
    obtain ⟨d, a⟩ := p
    simp only [hr] at h ⊢
    cases hd : s.device d with
    | peripheral => simp [hd] at h
    | ram n m =>
      simp only [hd] at h
      split at h
      · exact nomatch h
      · next hb => simp_all [deviceSet]

/-- What a read that succeeds, on any device, leaves as it was. -/
theorem memRead_ok_keeps {s t : State} {addr : Nat} {w : Width} {v : Word}
    (h : memRead addr w s = .ok v t) :
    t.regs = s.regs ∧ t.cfb = s.cfb ∧ t.run = s.run ∧ t.devices = s.devices ∧
    t.params = s.params ∧ t.events = s.events := by
  rcases memRead_ok_cases h with ⟨rfl, -⟩ | ⟨d, a, -, -, rfl⟩ <;>
    exact ⟨rfl, rfl, rfl, rfl, rfl, rfl⟩

/-- What a read that faults, on any device, leaves as it was. -/
theorem memRead_error_keeps {s t : State} {addr : Nat} {w : Width} {f : Fault}
    (h : memRead addr w s = .error f t) :
    t.regs = s.regs ∧ t.cfb = s.cfb ∧ t.run = s.run ∧ t.devices = s.devices ∧
    t.params = s.params ∧ t.events = s.events := by
  rcases memRead_error_cases h with ⟨rfl, -⟩ | ⟨d, a, n, m, rfl, -⟩ | ⟨d, a, rfl, -⟩ <;>
    exact ⟨rfl, rfl, rfl, rfl, rfl, rfl⟩

/-- A write that succeeds, on any device, changes no register, `cfb` or run state. -/
theorem memWrite_ok_keeps {s t : State} {addr : Nat} {w : Width} {v : Word}
    (h : memWrite addr w v s = .ok () t) :
    (∀ j, t.reg j = s.reg j) ∧ t.cfb = s.cfb ∧ t.run = s.run := by
  rcases memWrite_ok_cases h with ⟨d, a, n, m, -, -, -, rfl⟩ | ⟨d, a, -, -, rfl⟩ <;>
    exact ⟨fun _ => rfl, rfl, rfl⟩

/-- A push whose write succeeds, on any device (41_stack R100). -/
theorem push_ok {s t : State} {v : Word}
    (h : memWrite (s.reg spIdx).toNat .w16 v s = .ok () t) :
    push v s = .ok () ((t.setReg spIdx (s.reg spIdx - 2)).withCfb (s.cfb + 2)) := by
  rw [push_apply, h, ← (memWrite_ok_keeps h).2.1]

/-- A push whose write faults moves neither `sp` nor `cfb` (41_stack R100). -/
theorem push_error {s t : State} {v : Word} {f : Fault}
    (h : memWrite (s.reg spIdx).toNat .w16 v s = .error f t) : push v s = .error f t := by
  rw [push_apply, h]

/-- What a push that completes leaves, on any device (41_stack R100). -/
theorem push_ok_keeps {s u : State} {v : Word} (h : push v s = .ok () u) :
    (∀ j, j ≠ spIdx → u.reg j = s.reg j) ∧ u.reg spIdx = s.reg spIdx - 2 ∧ u.cfb = s.cfb + 2 := by
  rw [push_apply] at h
  cases hm : memWrite (s.reg spIdx).toNat .w16 v s with
  | error f t => rw [hm] at h; exact nomatch h
  | ok a t =>
    rw [hm] at h
    simp only [EStateM.Result.ok.injEq, true_and] at h
    subst h
    obtain ⟨hr, hc, -⟩ := memWrite_ok_keeps hm
    refine ⟨fun j hj => ?_, ?_, ?_⟩
    · simp [hr, State.reg_setReg_ne _ _ _ _ (Ne.symm hj)]
    · simp [State.reg_setReg_self _ _ _ (show spIdx < 12 by decide)]
    · simp [hc]

/-- A push where the word at `sp` is RAM (41_stack R100). -/
theorem push_ram {s : State} (v : Word) (h : s.ramAccess (s.reg spIdx).toNat .w16 = true) :
    push v s = .ok () (((s.store (s.reg spIdx).toNat .w16 v).setReg spIdx (s.reg spIdx - 2)).withCfb
      (s.cfb + 2)) := by
  rw [push_apply, memWrite_of_ramAccess v h]
  simp only [State.store_cfb]

/-- A push that faults changes nothing (41_stack R100). -/
theorem push_fault {s : State} (v : Word) {f : Fault}
    (h : s.accessFault (s.reg spIdx).toNat .w16 = some f) : push v s = .error f s := by
  rw [push_apply, memWrite_of_accessFault v h]

/-- A pop where the word at `sp + 2` is RAM (41_stack R101). -/
theorem pop_ram {s : State} {v : Word} (h : s.readAt (s.reg spIdx + 2).toNat .w16 = some v) :
    pop s = .ok v ((s.setReg spIdx (s.reg spIdx + 2)).withCfb (s.cfb - 2)) := by
  rw [pop_apply]
  exact memRead_ram h

/-- A pop that faults has moved `sp` and `cfb` (41_stack R101). -/
theorem pop_fault {s : State} {f : Fault}
    (h : s.accessFault (s.reg spIdx + 2).toNat .w16 = some f) :
    pop s = .error f ((s.setReg spIdx (s.reg spIdx + 2)).withCfb (s.cfb - 2)) := by
  rw [pop_apply]
  exact memRead_of_accessFault h

/-- What a pop that completes leaves, on any device (41_stack R101). -/
theorem pop_ok_keeps {s u : State} {v : Word} (h : pop s = .ok v u) :
    (∀ j, j ≠ spIdx → u.reg j = s.reg j) ∧ u.reg spIdx = s.reg spIdx + 2 ∧ u.cfb = s.cfb - 2 ∧
    u.run = s.run ∧ u.devices = s.devices := by
  rw [pop_apply] at h
  obtain ⟨hr, hc, hrun, hd, -⟩ := memRead_ok_keeps h
  have e (j : Nat) : u.reg j = (s.setReg spIdx (s.reg spIdx + 2)).reg j := by
    simp only [State.reg, hr, State.withCfb_regs]
  refine ⟨fun j hj => ?_, ?_, hc, hrun, hd⟩
  · rw [e, State.reg_setReg_ne _ _ _ _ (Ne.symm hj)]
  · rw [e, State.reg_setReg_self _ _ _ (by decide)]

/-- What a pop that faults leaves, on any device: `sp` and `cfb` have moved (41_stack R101). -/
theorem pop_error_keeps {s u : State} {f : Fault} (h : pop s = .error f u) :
    (∀ j, j ≠ spIdx → u.reg j = s.reg j) ∧ u.reg spIdx = s.reg spIdx + 2 ∧ u.cfb = s.cfb - 2 ∧
    u.run = s.run ∧ u.devices = s.devices := by
  rw [pop_apply] at h
  obtain ⟨hr, hc, hrun, hd, -⟩ := memRead_error_keeps h
  have e (j : Nat) : u.reg j = (s.setReg spIdx (s.reg spIdx + 2)).reg j := by
    simp only [State.reg, hr, State.withCfb_regs]
  refine ⟨fun j hj => ?_, ?_, hc, hrun, hd⟩
  · rw [e, State.reg_setReg_ne _ _ _ _ (Ne.symm hj)]
  · rw [e, State.reg_setReg_self _ _ _ (by decide)]

end Sys2Proof.Machine
end

