-- ==== Sys2Proof/Laws/Decode.lean ====
section
/-! SUPPORT. The opcode map read in both directions, and what decoding an operand list gives. -/

namespace Sys2Proof

/-! ## The opcode map -/

/-- The list of all opcodes is in table order. -/
theorem Opcode.all_index (op : Opcode) : Opcode.all[op.index.val]? = some op := by
  cases op <;> rfl

theorem Opcode.mem_all (op : Opcode) : op ∈ Opcode.all :=
  List.mem_of_getElem? op.all_index

theorem Opcode.index_inj {a b : Opcode} (h : a.index = b.index) : a = b :=
  Option.some.inj (a.all_index.symm.trans (h ▸ b.all_index))

/-- A map that separates the opcodes gives two opcodes two bytes (30_encoding R67). -/
theorem OpcodeMap.code_inj {m : OpcodeMap} (h : m.wf) {a b : Opcode} (e : m.code a = m.code b) :
    a = b := by
  have ha : a.index.val < m.codes.toList.length := by simp
  have hb : b.index.val < m.codes.toList.length := by simp
  exact Opcode.index_inj (Fin.ext ((List.Nodup.getElem_inj_iff h (hi := ha) (hj := hb)).mp
    (by simpa [OpcodeMap.code] using e)))

/-- The byte of an opcode is looked up as that opcode. -/
theorem OpcodeMap.lookup_code {m : OpcodeMap} (h : m.wf) (op : Opcode) :
    m.lookup (m.code op) = some op := by
  unfold OpcodeMap.lookup
  cases hf : Opcode.all.find? (fun o => m.code o == m.code op) with
  | none => exact absurd (List.find?_eq_none.mp hf op (Opcode.mem_all op)) (by simp)
  | some o => exact congrArg some (OpcodeMap.code_inj h (by simpa using List.find?_some hf))

/-- An opcode that a byte is looked up as has that byte. -/
theorem OpcodeMap.code_of_lookup {m : OpcodeMap} {b : Byte} {op : Opcode} (h : m.lookup b = some op) :
    m.code op = b := by
  simpa using List.find?_some h

/-! ## Operands -/

/-- A register index survives its encoding (30_encoding R63). -/
theorem regOfByte_index {r : Nat} (h : r < 12) : regOfByte (lowByte (BitVec.ofNat 16 r)) = r := by
  simp only [regOfByte, lowByte, BitVec.toNat_ofNat]
  omega

/-- A decoded operand took as many bytes as its kind has, and a register is one of the twelve. -/
theorem decodeOperand_ok {k : OperandKind} {bs rest : List Byte} {v : Word}
    (h : decodeOperand k bs = .ok (v, rest)) :
    (∃ used, bs = used ++ rest ∧ used.length = k.width) ∧ (k = .reg → v.toNat < 12) := by
  cases k <;> rcases bs with _ | ⟨b, _ | ⟨c, t⟩⟩ <;> simp only [decodeOperand] at h <;>
    try (exfalso; simp at h; done)
  all_goals simp only [Except.ok.injEq, Prod.mk.injEq] at h
  all_goals obtain ⟨rfl, rfl⟩ := h
  all_goals first
    | exact ⟨⟨[b], rfl, rfl⟩, fun _ => by rw [BitVec.toNat_ofNat, regOfByte]; omega⟩
    | exact ⟨⟨[b], rfl, rfl⟩, nofun⟩
    | exact ⟨⟨[b, c], rfl, rfl⟩, nofun⟩

/-- Decoded operands took as many bytes as their kinds have, there are as many as kinds, and the
registers among them are of the twelve. -/
theorem decodeOperands_ok {ks : List OperandKind} {bs rest : List Byte} {vs : List Word}
    (h : decodeOperands ks bs = .ok (vs, rest)) :
    (∃ used, bs = used ++ rest ∧ used.length = (ks.map OperandKind.width).sum) ∧
    vs.length = ks.length ∧ ∀ j : Nat, ks[j]? = some .reg → (vs.getD j 0).toNat < 12 := by
  induction ks generalizing bs vs with
  | nil =>
    simp only [decodeOperands, Except.ok.injEq, Prod.mk.injEq] at h
    obtain ⟨rfl, rfl⟩ := h
    exact ⟨⟨[], rfl, rfl⟩, rfl, fun j hj => by simp at hj⟩
  | cons k ks ih =>
    simp only [decodeOperands] at h
    split at h
    · exact nomatch h
    · next v r1 h1 =>
      split at h
      · exact nomatch h
      · next vs' r2 h2 =>
        simp only [Except.ok.injEq, Prod.mk.injEq] at h
        obtain ⟨rfl, rfl⟩ := h
        obtain ⟨⟨u1, rfl, l1⟩, hr⟩ := decodeOperand_ok h1
        obtain ⟨⟨u2, rfl, l2⟩, hl, hj⟩ := ih h2
        refine ⟨⟨u1 ++ u2, by simp, by simp [l1, l2]⟩, by simp [hl], fun j hk => ?_⟩
        cases j with
        | zero => exact hr (by simpa using hk)
        | succ j => exact hj j (by simpa using hk)

/-! ## Assembling -/

theorem Opcode.assemble_opcode (op : Opcode) (os : List Word) : (op.assemble os).opcode = op := by
  cases op <;> rfl

/-- An instruction assembled from register values of the twelve is well formed. -/
theorem Opcode.assemble_wellFormed (op : Opcode) (os : List Word)
    (h : ∀ j : Nat, op.schema[j]? = some .reg → (os.getD j 0).toNat < 12) :
    (op.assemble os).wellFormed = true := by
  have h0 := h 0
  have h1 := h 1
  have h2 := h 2
  cases op <;>
    simp only [Opcode.assemble, Instr.wellFormed, Instr.regOperands, List.all_cons, List.all_nil,
      Bool.and_true, Bool.and_eq_true, decide_eq_true_eq] <;>
    first
      | exact h0 rfl
      | exact h1 rfl
      | exact ⟨h0 rfl, h1 rfl⟩
      | exact ⟨h1 rfl, h2 rfl⟩

end Sys2Proof
end

