-- ==== Sys2Proof/Laws/Fetch.lean ====
section
/-! SUPPORT. Fetching code: where the bytes stand at `ip`, a fetch answers what decoding those bytes
answers and moves `ip` past them (30_encoding R62, R63, R66). -/

namespace Sys2Proof.Machine

/-- The byte after an address of a region stands after it in the device. -/
theorem Region.localAddr_succ {r : Region} {addr : Nat} (h : r.covers addr = true) :
    r.localAddr (addr + 1) = r.localAddr addr + 1 := by
  simp only [Region.covers, Bool.and_eq_true, decide_eq_true_eq] at h
  unfold Region.localAddr
  split <;> omega

/-- A region found covers the address. -/
theorem Mapper.covers_of_find {m : Mapper} {addr : Nat} {r : Region} (h : m.find addr = some r) :
    r.covers addr = true :=
  List.find?_some (p := fun r : Region => r.covers addr) h

/-- Code after its first bytes is code at the moved `ip`. -/
theorem CodeAt.drop {s : State} {as bs : List Byte} (h : CodeAt s (as ++ bs)) :
    CodeAt (s.setReg ipIdx (s.reg ipIdx + BitVec.ofNat 16 as.length)) bs := by
  obtain ⟨r, n, m, hd, hl, hb⟩ := h
  rw [List.length_append] at hl
  refine ⟨r, n, m, hd, ?_, fun k b hk => ?_⟩
  · rw [State.reg_setReg_self _ _ _ (by decide), BitVec.toNat_add, BitVec.toNat_ofNat]
    have := Nat.mod_le ((s.reg ipIdx).toNat + as.length % 2 ^ 16) (2 ^ 16)
    have := Nat.mod_le as.length (2 ^ 16)
    omega
  · have hk' : k < bs.length := (List.getElem?_eq_some_iff.mp hk).1
    have e : (s.reg ipIdx + BitVec.ofNat 16 as.length).toNat + k =
        (s.reg ipIdx).toNat + (as.length + k) := by
      rw [BitVec.toNat_add, BitVec.toNat_ofNat]
      omega
    rw [State.reg_setReg_self _ _ _ (by decide), e]
    exact hb _ _ (by rwa [List.getElem?_append_right (by omega), Nat.add_sub_cancel_left])

theorem readAt_code8 {s : State} {b : Byte} {rest : List Byte} (h : CodeAt s (b :: rest)) :
    s.readAt (s.reg ipIdx).toNat .w8 = some (zext16 b) := by
  obtain ⟨r, n, m, hd, -, hb⟩ := h
  obtain ⟨h1, h2, h3⟩ := hb 0 b rfl
  rw [Nat.add_zero] at h1 h2 h3
  have : r.localAddr (s.reg ipIdx).toNat + 1 ≤ n := h2
  simp only [State.readAt, State.resolve, h1, Option.map_some, hd, Width.bytes, this, if_true,
    Memory.get, h3]

theorem readAt_code16 {s : State} {hi lo : Byte} {rest : List Byte} (h : CodeAt s (hi :: lo :: rest)) :
    s.readAt (s.reg ipIdx).toNat .w16 = some (joinBytes hi lo) := by
  obtain ⟨r, n, m, hd, -, hb⟩ := h
  obtain ⟨h1, h2, h3⟩ := hb 0 hi rfl
  obtain ⟨-, h5, h6⟩ := hb 1 lo rfl
  rw [Nat.add_zero] at h1 h2 h3
  rw [Region.localAddr_succ (Mapper.covers_of_find h1)] at h5 h6
  have : r.localAddr (s.reg ipIdx).toNat + 2 ≤ n := h5
  simp only [State.readAt, State.resolve, h1, Option.map_some, hd, Width.bytes, this, if_true,
    Memory.get, h3, h6]

/-- A byte fetch of code. -/
theorem fetch8_code {s : State} {b : Byte} {rest : List Byte} (h : CodeAt s (b :: rest)) :
    fetch8 s = .ok b (s.setReg ipIdx (s.reg ipIdx + 1)) := by
  rw [fetch8_apply, memRead_ram (readAt_code8 h)]
  simp only [lowByte_zext16]

/-- A word fetch of code. -/
theorem fetch16_code {s : State} {hi lo : Byte} {rest : List Byte} (h : CodeAt s (hi :: lo :: rest)) :
    fetch16 s = .ok (joinBytes hi lo) (s.setReg ipIdx (s.reg ipIdx + 2)) := by
  rw [fetch16_apply, memRead_ram (readAt_code16 h)]

/-- An operand fetch of code. -/
theorem fetchOperand_code {s : State} {k : OperandKind} {bs rest : List Byte} {v : Word}
    (h : CodeAt s bs) (hd : decodeOperand k bs = .ok (v, rest)) : ∃ used, bs = used ++ rest ∧
      fetchOperand k s = .ok v (s.setReg ipIdx (s.reg ipIdx + BitVec.ofNat 16 used.length)) := by
  cases k <;> rcases bs with _ | ⟨b, _ | ⟨c, t⟩⟩ <;> simp only [decodeOperand] at hd <;>
    try (exfalso; simp at hd; done)
  all_goals simp only [Except.ok.injEq, Prod.mk.injEq] at hd
  all_goals obtain ⟨rfl, rfl⟩ := hd
  all_goals first
    | exact ⟨[b], rfl, by
        simp only [fetchOperand, fetchReg, bind_assoc]
        rw [bind_ok (fetch8_code h)]
        rfl⟩
    | exact ⟨[b, c], rfl, fetch16_code h⟩

/-- The fetch of a schema's operands from code. -/
theorem fetchOperands_code {s : State} {ks : List OperandKind} {bs rest : List Byte} {vs : List Word}
    (h : CodeAt s bs) (hd : decodeOperands ks bs = .ok (vs, rest)) : ∃ used, bs = used ++ rest ∧
      fetchOperands ks s = .ok vs (s.setReg ipIdx (s.reg ipIdx + BitVec.ofNat 16 used.length)) := by
  induction ks generalizing s bs vs with
  | nil =>
    simp only [decodeOperands, Except.ok.injEq, Prod.mk.injEq] at hd
    obtain ⟨rfl, rfl⟩ := hd
    refine ⟨[], rfl, ?_⟩
    rw [fetchOperands, List.length_nil, BitVec.add_zero, State.setReg_reg s _ (by decide)]
    rfl
  | cons k ks ih =>
    simp only [decodeOperands] at hd
    split at hd
    · exact nomatch hd
    · next v r1 h1 =>
      split at hd
      · exact nomatch hd
      · next vs' r2 h2 =>
        simp only [Except.ok.injEq, Prod.mk.injEq] at hd
        obtain ⟨rfl, rfl⟩ := hd
        obtain ⟨u1, rfl, f1⟩ := fetchOperand_code h h1
        obtain ⟨u2, rfl, f2⟩ := ih h.drop h2
        refine ⟨u1 ++ u2, by simp, ?_⟩
        rw [fetchOperands, bind_ok f1, bind_ok f2, pure_apply, State.setReg_setReg,
          State.reg_setReg_self _ _ _ (by decide), List.length_append, BitVec.add_assoc,
          BitVec.ofNat_add]

/-! ## Fetches by accesses of their own -/

/-- The low byte of a byte with the high byte zero. -/
theorem lowByte_setWidth (b : Byte) : lowByte (b.setWidth 16) = b := by
  apply BitVec.eq_of_toNat_eq
  have := b.isLt
  simp only [lowByte, BitVec.toNat_ofNat, BitVec.toNat_setWidth]
  omega

/-- A byte fetch whose access succeeds. -/
theorem fetch8_ok {s t : State} {b : Byte}
    (h : memRead (s.reg ipIdx).toNat .w8 s = .ok (b.setWidth 16) t) :
    fetch8 s = .ok b (t.setReg ipIdx (s.reg ipIdx + 1)) := by
  rw [fetch8_apply, h]
  simp only [lowByte_setWidth]

/-- A word fetch whose one access succeeds. -/
theorem fetch16_ok {s t : State} {hi lo : Byte}
    (h : memRead (s.reg ipIdx).toNat .w16 s = .ok (hi ++ lo) t) :
    fetch16 s = .ok (joinBytes hi lo) (t.setReg ipIdx (s.reg ipIdx + 2)) := by
  rw [fetch16_apply, h, joinBytes_eq_append]

/-- An operand fetch whose one access faults takes that fault, `ip` not having moved. -/
theorem fetchOperand_error {s t : State} {k : OperandKind} {f : Fault}
    (h : memRead (s.reg ipIdx).toNat (operandAccess k) s = .error f t) :
    fetchOperand k s = .error f t := by
  have h8 (e : operandAccess k = .w8) : fetch8 s = .error f t := by
    rw [fetch8_apply, ← e, h]
  have h16 (e : operandAccess k = .w16) : fetch16 s = .error f t := by
    rw [fetch16_apply, ← e, h]
  cases k
  · exact bind_error (bind_error (h8 rfl))
  · exact bind_error (h8 rfl)
  · exact h16 rfl
  · exact bind_error (h8 rfl)
  · exact h16 rfl

/-- What operand fetches by accesses of their own answer and leave: the operands that the bytes
decode to, `ip` past the bytes, and everything else but the count of peripheral accesses as it was. -/
theorem FetchedBytes.fetchOperands {ks : List OperandKind} {bs : List Byte} {s u : State}
    (h : FetchedBytes ks bs s u) :
    (∃ vs, decodeOperands ks bs = .ok (vs, []) ∧ Machine.fetchOperands ks s = .ok vs u) ∧
    u.reg ipIdx = s.reg ipIdx + BitVec.ofNat 16 bs.length ∧
    (∀ j, j ≠ ipIdx → u.reg j = s.reg j) ∧ u.cfb = s.cfb ∧ u.devices = s.devices := by
  induction ks generalizing s bs with
  | nil =>
    obtain ⟨rfl, rfl⟩ := h
    exact ⟨⟨[], rfl, rfl⟩, by simp, fun _ _ => rfl, rfl, rfl⟩
  | cons k ks ih =>
    have one {t : State} {v : Word} {b : List Byte} {rest : List Byte} {n : Word}
        (hn : n = BitVec.ofNat 16 b.length) (e : bs = b ++ rest)
        (hd : decodeOperand k bs = .ok (v, rest))
        (hf : fetchOperand k s = .ok v (t.setReg ipIdx (s.reg ipIdx + n)))
        (hk : t.regs = s.regs ∧ t.cfb = s.cfb ∧ t.devices = s.devices)
        (hu : FetchedBytes ks rest (t.setReg ipIdx (s.reg ipIdx + n)) u) :
        (∃ vs, decodeOperands (k :: ks) bs = .ok (vs, []) ∧
          Machine.fetchOperands (k :: ks) s = .ok vs u) ∧
        u.reg ipIdx = s.reg ipIdx + BitVec.ofNat 16 bs.length ∧
        (∀ j, j ≠ ipIdx → u.reg j = s.reg j) ∧ u.cfb = s.cfb ∧ u.devices = s.devices := by
      obtain ⟨⟨vs, d, f⟩, hip, hj, hc, hv⟩ := ih hu
      have hr (j : Nat) : t.reg j = s.reg j := by simp only [State.reg, hk.1]
      refine ⟨⟨v :: vs, ?_, ?_⟩, ?_, fun j h => ?_, hc.trans hk.2.1, hv.trans hk.2.2⟩
      · simp only [decodeOperands, hd, d]
      · rw [Machine.fetchOperands, bind_ok hf, bind_ok f, pure_apply]
      · rw [hip, State.reg_setReg_self _ _ _ (by decide), hn, e, List.length_append,
          BitVec.add_assoc, BitVec.ofNat_add]
      · rw [hj j h, State.reg_setReg_ne _ _ _ _ (Ne.symm h), hr]
    cases k <;> rcases bs with _ | ⟨b, _ | ⟨c, rest⟩⟩ <;>
      simp only [FetchedBytes, operandAccess] at h <;> obtain ⟨t, hm, hu⟩ := h
    all_goals have hk := memRead_ok_keeps hm
    all_goals first
      | exact one (b := [b]) rfl rfl rfl (bind_ok (bind_ok (fetch8_ok hm)))
          ⟨hk.1, hk.2.1, hk.2.2.2.1⟩ hu
      | exact one (b := [b]) rfl rfl rfl (bind_ok (fetch8_ok hm)) ⟨hk.1, hk.2.1, hk.2.2.2.1⟩ hu
      | exact one (b := [b, c]) rfl rfl rfl (fetch16_ok hm)
          ⟨hk.1, hk.2.1, hk.2.2.2.1⟩ hu

/-- Operand fetches of which one faults, those before it having succeeded. -/
theorem fetchOperands_error {ks rest : List OperandKind} {k : OperandKind} {vs : List Word}
    {s u v : State} {f : Fault} (h : fetchOperands ks s = .ok vs u)
    (hf : fetchOperand k u = .error f v) : fetchOperands (ks ++ k :: rest) s = .error f v := by
  induction ks generalizing s vs with
  | nil =>
    cases h
    exact bind_error hf
  | cons x xs ih =>
    rw [fetchOperands] at h
    obtain ⟨a, t, h1, h2⟩ := bind_eq_ok h
    obtain ⟨as, t2, h3, -⟩ := bind_eq_ok h2
    have : t2 = u := by
      rw [bind_ok h3] at h2
      cases h2
      rfl
    subst this
    rw [List.cons_append, fetchOperands, bind_ok h1, bind_error (ih h3)]

end Sys2Proof.Machine
end

