-- ==== Sys2Proof/Laws/Host.lean ====
section
/-! SUPPORT. What the host's load of an image does. -/

namespace Sys2Proof.Machine

/-- An image stored where consecutive addresses lead to consecutive bytes of one RAM device: the load
answers, only that device's contents differ, and they are the image's bytes there and what they were
elsewhere (70_reset_and_hazards R213). -/
theorem storeImage_ram {d n : Nat} (bs : List Byte) {s : State} {mem : Memory} {addr a : Nat}
    (hd : s.device d = .ram n mem) (hn : 0 < n) (hb : a + bs.length ≤ n)
    (hr : ∀ k, k < bs.length → s.resolve (addr + k) = some (d, a + k)) :
    ∃ mem', storeImage addr bs s = .ok () (s.setRam d n mem') ∧
      ∀ c, mem'.read c = if a ≤ c then (bs[c - a]?).getD (mem.read c) else mem.read c := by
  induction bs generalizing s mem addr a with
  | nil =>
    refine ⟨mem, ?_, by simp⟩
    have : s.setRam d n mem = s := by
      have hs : s.devices.set d (.ram n mem) = s.devices := by
        apply List.ext_getElem?
        intro k
        rw [List.getElem?_set]
        split
        · next e =>
          subst e
          simp only [State.device] at hd
          split
          · next hl =>
            rw [List.getElem?_eq_getElem hl] at hd ⊢
            exact congrArg some hd.symm
          · next hl => exact (List.getElem?_eq_none (Nat.le_of_not_lt hl)).symm
        · rfl
      simp only [State.setRam, hs]
    rw [this]
    rfl
  | cons b bs ih =>
    simp only [List.length_cons] at hb hr
    have h0 : memWrite addr .w8 (zext16 b) s = .ok () (s.setRam d n (mem.write a b)) := by
      have hr0 := hr 0 (by omega)
      simp only [Nat.add_zero] at hr0
      have hl : lowByte (zext16 b) = b := by
        apply BitVec.eq_of_toNat_eq
        simp [lowByte, zext16]
        omega
      have : a + 1 ≤ n := by omega
      simp [memWrite_apply, hr0, deviceSet, hd, Width.bytes, this, Memory.set, hl]
    obtain ⟨mem', h1, h2⟩ := ih (s := s.setRam d n (mem.write a b)) (mem := mem.write a b)
      (addr := addr + 1) (a := a + 1) (by rw [State.device_setRam _ hd hn]; simp) (by omega)
      (fun k hk => by
        have := hr (k + 1) (by omega)
        simpa only [State.setRam_resolve, Nat.add_assoc, Nat.add_comm 1 k] using this)
    refine ⟨mem', ?_, fun c => ?_⟩
    · rw [storeImage, bind_ok h0, h1]
      simp [State.setRam]
    · rw [h2, Memory.read_write]
      by_cases hc : a ≤ c
      · by_cases e : a = c
        · subst e
          simp
        · obtain ⟨k, rfl⟩ : ∃ k, c = a + 1 + k := ⟨c - (a + 1), by omega⟩
          have : a + 1 + k - a = k + 1 := by omega
          simp [hc, this, e]
      · have : ¬ a + 1 ≤ c := by omega
        have e : a ≠ c := by omega
        simp [hc, this, e]

end Sys2Proof.Machine
end

