-- ==== Sys2Proof/Laws/Meanings.lean ====
section
/-! SUPPORT. What each operation shared by several meanings does, said once. -/

namespace Sys2Proof.Machine

/-! ## Moves -/

theorem moveTo_ok {d : Nat} {x : Exec Word} {s t : State} {v : Word} (hd : d < 12)
    (hx : x s = .ok v t) : finish (moveTo d x) s = .next (t.setReg d v) := by
  apply finish_ok
  rw [moveTo, bind_ok hx, regWrite_ok hd]

theorem moveTo_fault {d : Nat} {x : Exec Word} {s t : State} {f : Fault} (hx : x s = .error f t) :
    finish (moveTo d x) s = .next (takeFault f t) :=
  finish_error (bind_error hx)

theorem moveToMem_ram {addr : Nat} {w : Width} {x : Exec Word} {s : State} {v : Word}
    (hx : x s = .ok v s) (h : s.ramAccess addr w = true) :
    finish (moveToMem addr w x) s = .next (s.store addr w v) := by
  apply finish_ok
  rw [moveToMem, bind_ok hx, memWrite_of_ramAccess v h]

theorem moveToMem_fault {addr : Nat} {w : Width} {x : Exec Word} {s : State} {v : Word} {f : Fault}
    (hx : x s = .ok v s) (h : s.accessFault addr w = some f) :
    finish (moveToMem addr w x) s = .next (takeFault f s) := by
  apply finish_error
  rw [moveToMem, bind_ok hx, memWrite_of_accessFault v h]

/-! ## Computing and jumping -/

theorem binaryToAcc_ok {f : Word → Word → Word} {x y : Exec Word} {s : State} {a b : Word}
    (hx : x s = .ok a s) (hy : y s = .ok b s) :
    finish (binaryToAcc f x y) s = .next (s.setReg accIdx (f a b)) := by
  apply finish_ok
  rw [binaryToAcc, bind_ok hx, bind_ok hy, regWrite_acc]

theorem shiftInPlace_ok {f : Word → Nat → Word} {r : Nat} {x : Exec Nat} {s : State} {n : Nat}
    (hr : r < 12) (hx : x s = .ok n s) :
    finish (shiftInPlace f r x) s = .next (s.setReg r (f (s.reg r) n)) := by
  apply finish_ok
  rw [shiftInPlace, bind_ok (regRead_ok hr s), bind_ok hx, regWrite_ok hr]

theorem updateReg_ok {f : Word → Word} {r : Nat} (hr : r < 12) (s : State) :
    finish (updateReg r f) s = .next (s.setReg r (f (s.reg r))) := by
  apply finish_ok
  rw [updateReg, bind_ok (regRead_ok hr s), regWrite_ok hr]

theorem jumpIf_ok {rel : Relation} {x : Exec Word} {s : State} {v : Word} (t : Word)
    (hx : x s = .ok v s) : finish (jumpIf rel x t) s =
      .next (if rel.holds v (s.reg accIdx) = true then s.setReg ipIdx t else s) := by
  unfold finish jumpIf
  rw [bind_ok hx, bind_ok (regRead_acc s)]
  by_cases h : rel.holds v (s.reg accIdx) = true <;> simp [h]

/-! ## Steps of a list of pushes or pops -/

theorem pushRegs_cons_ok {r : Nat} (rs : List Nat) {s t : State} (hr : r < 12)
    (h : push (s.reg r) s = .ok () t) : pushRegs (r :: rs) s = pushRegs rs t := by
  rw [pushRegs, bind_ok (regRead_ok hr s), bind_ok h]

theorem pushRegs_cons_error {r : Nat} (rs : List Nat) {s t : State} {f : Fault} (hr : r < 12)
    (h : push (s.reg r) s = .error f t) : pushRegs (r :: rs) s = .error f t := by
  rw [pushRegs, bind_ok (regRead_ok hr s), bind_error h]

theorem popRegs_cons_ok {r : Nat} (rs : List Nat) {s t : State} {v : Word} (hr : r < 12)
    (h : pop s = .ok v t) : popRegs (r :: rs) s = popRegs rs (t.setReg r v) := by
  rw [popRegs, bind_ok h, bind_ok (regWrite_ok hr v t)]

theorem popRegs_cons_error {r : Nat} (rs : List Nat) {s t : State} {f : Fault}
    (h : pop s = .error f t) : popRegs (r :: rs) s = .error f t := by
  rw [popRegs, bind_error h]

/-- Discarding `n` words that are all RAM moves `sp` up and `cfb` down by `2n` (46_call_return R169). -/
theorem popDiscard_ram {s : State} (n : Nat)
    (h : ∀ k, k < n → s.ramAccess (s.reg spIdx + 2 + BitVec.ofNat 16 (2 * k)).toNat .w16 = true) :
    popDiscard n s = .ok () ((s.setReg spIdx (s.reg spIdx + BitVec.ofNat 16 (2 * n))).withCfb
      (s.cfb - BitVec.ofNat 16 (2 * n))) := by
  induction n generalizing s with
  | zero =>
    rw [popDiscard, pure_apply, Nat.mul_zero, BitVec.add_zero, BitVec.sub_zero,
      State.setReg_reg s spIdx (by decide)]
    rfl
  | succ n ih =>
    obtain ⟨v, hv⟩ := Option.isSome_iff_exists.mp (by simpa [State.ramAccess] using h 0 (by omega))
    rw [popDiscard, bind_ok (pop_ram hv), ih]
    · simp only [State.withCfb_reg, State.reg_setReg_self _ _ _ (show spIdx < 12 by decide),
        State.withCfb_cfb]
      have e1 : s.reg spIdx + 2 + BitVec.ofNat 16 (2 * n) = s.reg spIdx + BitVec.ofNat 16 (2 * (n + 1)) := by
        bv_omega
      have e2 : s.cfb - 2 - BitVec.ofNat 16 (2 * n) = s.cfb - BitVec.ofNat 16 (2 * (n + 1)) := by
        bv_omega
      rw [e1, e2, State.setReg_withCfb, State.withCfb_withCfb, State.setReg_setReg]
    · intro k hk
      have := h (k + 1) (by omega)
      simp only [State.ramAccess_withCfb, State.ramAccess_setReg, State.withCfb_reg,
        State.reg_setReg_self _ _ _ (show spIdx < 12 by decide)]
      have e : s.reg spIdx + 2 + 2 + BitVec.ofNat 16 (2 * k) =
          s.reg spIdx + 2 + BitVec.ofNat 16 (2 * (k + 1)) := by
        bv_omega
      rwa [e]

end Sys2Proof.Machine
end

