-- ==== Sys2Proof/Laws/PerInstr.lean ====
section
/-! SUPPORT. Statements about every instruction as syntax, one lemma per constructor of `Instr`.
`EncodedSize`: the encoding of an instruction has the size that the opcode table records
(30_encoding R60, R65, R70). -/

namespace Sys2Proof.Laws.EncodedSize

/-- Under every opcode map an instruction is encoded in as many bytes as the table's size column
says for its opcode. -/
def Statement (i : Instr) : Prop :=
  ∀ m : OpcodeMap, (encodeWith m i).length = i.opcode.size

theorem nop : Statement .nop := fun _ => rfl
theorem movLitReg (lit : Word) (reg : Nat) : Statement (.movLitReg lit reg) := fun _ => rfl
theorem movRegReg (src : Nat) (dst : Nat) : Statement (.movRegReg src dst) := fun _ => rfl
theorem movRegMem (reg : Nat) (addr : Word) : Statement (.movRegMem reg addr) := fun _ => rfl
theorem movMemReg (addr : Word) (reg : Nat) : Statement (.movMemReg addr reg) := fun _ => rfl
theorem addRegReg (ra : Nat) (rb : Nat) : Statement (.addRegReg ra rb) := fun _ => rfl
theorem jmpNotEq (lit : Word) (addr : Word) : Statement (.jmpNotEq lit addr) := fun _ => rfl
theorem subLitReg (lit : Word) (reg : Nat) : Statement (.subLitReg lit reg) := fun _ => rfl
theorem pshLit (lit : Word) : Statement (.pshLit lit) := fun _ => rfl
theorem pshReg (reg : Nat) : Statement (.pshReg reg) := fun _ => rfl
theorem pop (reg : Nat) : Statement (.pop reg) := fun _ => rfl
theorem movLitMem (lit : Word) (addr : Word) : Statement (.movLitMem lit addr) := fun _ => rfl
theorem movRegPtrReg (ptr : Nat) (dst : Nat) : Statement (.movRegPtrReg ptr dst) := fun _ => rfl
theorem movLitOffReg (base : Word) (off : Nat) (dst : Nat) : Statement (.movLitOffReg base off dst) := fun _ => rfl
theorem subRegLit (reg : Nat) (lit : Word) : Statement (.subRegLit reg lit) := fun _ => rfl
theorem subRegReg (ra : Nat) (rb : Nat) : Statement (.subRegReg ra rb) := fun _ => rfl
theorem mulLitReg (lit : Word) (reg : Nat) : Statement (.mulLitReg lit reg) := fun _ => rfl
theorem mulRegReg (ra : Nat) (rb : Nat) : Statement (.mulRegReg ra rb) := fun _ => rfl
theorem lshRegLit (reg : Nat) (lit8 : Byte) : Statement (.lshRegLit reg lit8) := fun _ => rfl
theorem lshRegReg (ra : Nat) (rb : Nat) : Statement (.lshRegReg ra rb) := fun _ => rfl
theorem rshRegLit (reg : Nat) (lit8 : Byte) : Statement (.rshRegLit reg lit8) := fun _ => rfl
theorem rshRegReg (ra : Nat) (rb : Nat) : Statement (.rshRegReg ra rb) := fun _ => rfl
theorem andRegLit (reg : Nat) (lit : Word) : Statement (.andRegLit reg lit) := fun _ => rfl
theorem andRegReg (ra : Nat) (rb : Nat) : Statement (.andRegReg ra rb) := fun _ => rfl
theorem orRegLit (reg : Nat) (lit : Word) : Statement (.orRegLit reg lit) := fun _ => rfl
theorem orRegReg (ra : Nat) (rb : Nat) : Statement (.orRegReg ra rb) := fun _ => rfl
theorem xorRegLit (reg : Nat) (lit : Word) : Statement (.xorRegLit reg lit) := fun _ => rfl
theorem xorRegReg (ra : Nat) (rb : Nat) : Statement (.xorRegReg ra rb) := fun _ => rfl
theorem notReg (reg : Nat) : Statement (.notReg reg) := fun _ => rfl
theorem incReg (reg : Nat) : Statement (.incReg reg) := fun _ => rfl
theorem decReg (reg : Nat) : Statement (.decReg reg) := fun _ => rfl
theorem jeqReg (reg : Nat) (addr : Word) : Statement (.jeqReg reg addr) := fun _ => rfl
theorem addLitReg (lit : Word) (reg : Nat) : Statement (.addLitReg lit reg) := fun _ => rfl
theorem jneReg (reg : Nat) (addr : Word) : Statement (.jneReg reg addr) := fun _ => rfl
theorem jeqLit (lit : Word) (addr : Word) : Statement (.jeqLit lit addr) := fun _ => rfl
theorem jltReg (reg : Nat) (addr : Word) : Statement (.jltReg reg addr) := fun _ => rfl
theorem jltLit (lit : Word) (addr : Word) : Statement (.jltLit lit addr) := fun _ => rfl
theorem jgtReg (reg : Nat) (addr : Word) : Statement (.jgtReg reg addr) := fun _ => rfl
theorem jgtLit (lit : Word) (addr : Word) : Statement (.jgtLit lit addr) := fun _ => rfl
theorem jleReg (reg : Nat) (addr : Word) : Statement (.jleReg reg addr) := fun _ => rfl
theorem jleLit (lit : Word) (addr : Word) : Statement (.jleLit lit addr) := fun _ => rfl
theorem jgeReg (reg : Nat) (addr : Word) : Statement (.jgeReg reg addr) := fun _ => rfl
theorem jgeLit (lit : Word) (addr : Word) : Statement (.jgeLit lit addr) := fun _ => rfl
theorem mov8LitMem (lit8 : Byte) (addr : Word) : Statement (.mov8LitMem lit8 addr) := fun _ => rfl
theorem mov8RegMem (reg : Nat) (addr : Word) : Statement (.mov8RegMem reg addr) := fun _ => rfl
theorem mov8MemReg (addr : Word) (reg : Nat) : Statement (.mov8MemReg addr reg) := fun _ => rfl
theorem calLit (addr : Word) : Statement (.calLit addr) := fun _ => rfl
theorem calReg (reg : Nat) : Statement (.calReg reg) := fun _ => rfl
theorem ret : Statement .ret := fun _ => rfl
theorem hlt : Statement .hlt := fun _ => rfl

end Sys2Proof.Laws.EncodedSize
end

