-- ==== Sys2Proof/Laws/Preserve.lean ====
section
/-! SUPPORT. A relation between states that every single update keeps is kept by every operation,
every meaning and the step: an invariant or a frame over all instructions is proved by looking at the
seven updates only. -/

namespace Sys2Proof.Machine

/-- The computation relates its start to where it ends or stops. -/
def Keeps (R : State → State → Prop) {α : Type} (m : Exec α) : Prop :=
  ∀ s t, (∀ a, m s = .ok a t → R s t) ∧ ∀ f, m s = .error f t → R s t

/-- The relation holds between a state and itself, and composes. -/
structure Chain (R : State → State → Prop) : Prop where
  refl : ∀ s, R s s
  trans : ∀ s t u, R s t → R t u → R s u

/-- Every single update keeps the relation. -/
structure Updates (R : State → State → Prop) : Prop extends Chain R where
  setReg : ∀ s i v, R s (s.setReg i v)
  withCfb : ∀ s v, R s (s.withCfb v)
  withRun : ∀ s v, R s (s.withRun v)
  countAccess : ∀ s, R s s.countAccess
  logEvent : ∀ s e, R s (s.logEvent e)
  setRam : ∀ s d a n m v w, s.device d = .ram n m → a + Width.bytes w ≤ n →
    R s (s.setRam d n (m.set a v w))

namespace Keeps

variable {R : State → State → Prop}

theorem bind (c : Chain R) {α β : Type} {x : Exec α} {f : α → Exec β} (hx : Keeps R x)
    (hf : ∀ a, Keeps R (f a)) : Keeps R (x >>= f) := by
  intro s t
  constructor
  · intro b h
    obtain ⟨a, u, h1, h2⟩ := bind_eq_ok h
    exact c.trans _ _ _ ((hx s u).1 a h1) ((hf a u t).1 b h2)
  · intro e h
    rcases bind_eq_error h with h | ⟨a, u, h1, h2⟩
    · exact (hx s t).2 e h
    · exact c.trans _ _ _ ((hx s u).1 a h1) ((hf a u t).2 e h2)

theorem pure (c : Chain R) {α : Type} (a : α) : Keeps R (Pure.pure a : Exec α) := by
  intro s t
  constructor <;> intro b h <;> cases h
  exact c.refl s

theorem raise (c : Chain R) {α : Type} (f : Fault) : Keeps R (Machine.raise f : Exec α) := by
  intro s t
  constructor <;> intro b h <;> cases h
  exact c.refl s

theorem get (c : Chain R) : Keeps R (MonadState.get : Exec State) := by
  intro s t
  constructor <;> intro b h <;> cases h
  exact c.refl s

section

variable (p : Updates R)
include p

/-! The operations -/

theorem regRead (i : Nat) : Keeps R (Machine.regRead i) := by
  intro s t
  unfold Machine.regRead
  split <;> constructor <;> intro x h <;> cases h <;> exact p.refl s

theorem regWrite (i : Nat) (v : Word) : Keeps R (Machine.regWrite i v) := by
  intro s t
  unfold Machine.regWrite
  split <;> constructor <;> intro x h <;> cases h
  · exact p.setReg _ _ _
  · exact p.refl s

theorem setCfb (v : Word) : Keeps R (Machine.setCfb v) := by
  intro s t
  constructor <;> intro x h <;> cases h
  exact p.withCfb _ _

theorem addCfb (k : Int) : Keeps R (Machine.addCfb k) := by
  intro s t
  constructor <;> intro x h <;> cases h
  exact p.withCfb _ _

theorem getCfb : Keeps R Machine.getCfb := by
  intro s t
  constructor <;> intro x h <;> cases h
  exact p.refl _

theorem setRun (v : RunState) : Keeps R (Machine.setRun v) := by
  intro s t
  constructor <;> intro x h <;> cases h
  exact p.withRun _ _

theorem memRead (addr : Nat) (w : Width) : Keeps R (Machine.memRead addr w) := by
  intro s t
  constructor
  · intro v h
    rcases memRead_ok_cases h with ⟨rfl, _⟩ | ⟨_, _, _, _, rfl⟩
    · exact p.refl _
    · exact p.countAccess _
  · intro f h
    rcases memRead_error_cases h with ⟨rfl, _⟩ | ⟨_, _, _, _, rfl, _⟩ | ⟨_, _, rfl, _⟩
    · exact p.refl _
    · exact p.refl _
    · exact p.countAccess _

theorem memWrite (addr : Nat) (w : Width) (v : Word) : Keeps R (Machine.memWrite addr w v) := by
  intro s t
  constructor
  · intro u h
    rcases memWrite_ok_cases h with ⟨d, a, n, m, _, hd, hb, rfl⟩ | ⟨_, _, _, _, rfl⟩
    · exact p.setRam _ _ _ _ _ _ _ hd hb
    · exact p.trans _ _ _ (p.countAccess _) (p.logEvent _ _)
  · intro f h
    rcases memWrite_error_cases h with ⟨rfl, _⟩ | ⟨_, _, _, _, rfl, _⟩ | ⟨_, _, rfl, _⟩
    · exact p.refl _
    · exact p.refl _
    · exact p.countAccess _

theorem push (v : Word) : Keeps R (Machine.push v) :=
  .bind p.toChain (regRead p _) fun _ => .bind p.toChain (memWrite p _ _ _) fun _ =>
    .bind p.toChain (regWrite p _ _) fun _ => addCfb p _

theorem pop : Keeps R Machine.pop :=
  .bind p.toChain (regRead p _) fun _ => .bind p.toChain (regWrite p _ _) fun _ =>
    .bind p.toChain (addCfb p _) fun _ => memRead p _ _

theorem pushRegs (l : List Nat) : Keeps R (Machine.pushRegs l) := by
  induction l with
  | nil => exact .pure p.toChain _
  | cons r rs ih =>
    exact .bind p.toChain (regRead p _) fun _ => .bind p.toChain (push p _) fun _ => ih

theorem popRegs (l : List Nat) : Keeps R (Machine.popRegs l) := by
  induction l with
  | nil => exact .pure p.toChain _
  | cons r rs ih =>
    exact .bind p.toChain (pop p) fun _ => .bind p.toChain (regWrite p _ _) fun _ => ih

theorem popDiscard (n : Nat) : Keeps R (Machine.popDiscard n) := by
  induction n with
  | zero => exact .pure p.toChain _
  | succ n ih => exact .bind p.toChain (pop p) fun _ => ih

theorem callTo (t : Word) : Keeps R (Machine.callTo t) :=
  .bind p.toChain (pushRegs p _) fun _ => .bind p.toChain (regRead p _) fun _ =>
    .bind p.toChain (push p _) fun _ => .bind p.toChain (getCfb p) fun _ =>
    .bind p.toChain (push p _) fun _ => .bind p.toChain (regRead p _) fun _ =>
    .bind p.toChain (regWrite p _ _) fun _ => .bind p.toChain (setCfb p _) fun _ => regWrite p _ _

theorem returnSequence : Keeps R Machine.returnSequence :=
  .bind p.toChain (regRead p _) fun _ => .bind p.toChain (regWrite p _ _) fun _ =>
    .bind p.toChain (pop p) fun _ => .bind p.toChain (setCfb p _) fun _ =>
    .bind p.toChain (pop p) fun _ => .bind p.toChain (regWrite p _ _) fun _ =>
    .bind p.toChain (popRegs p _) fun _ => .bind p.toChain (pop p) fun _ =>
    .bind p.toChain (popDiscard p _) fun _ => regWrite p _ _

theorem jumpIf (rel : Relation) (x : Exec Word) (t : Word) (hx : Keeps R x) :
    Keeps R (Machine.jumpIf rel x t) :=
  .bind p.toChain hx fun _ => .bind p.toChain (regRead p _) fun _ => by
    split
    · exact regWrite p _ _
    · exact .pure p.toChain _

/-! The fetch -/

theorem fetch8 : Keeps R Machine.fetch8 :=
  .bind p.toChain (regRead p _) fun _ => .bind p.toChain (memRead p _ _) fun _ =>
    .bind p.toChain (regWrite p _ _) fun _ => .pure p.toChain _

theorem fetch16 : Keeps R Machine.fetch16 :=
  .bind p.toChain (regRead p _) fun _ => .bind p.toChain (memRead p _ _) fun _ =>
    .bind p.toChain (regWrite p _ _) fun _ => .pure p.toChain _

theorem fetchOperand (k : OperandKind) : Keeps R (Machine.fetchOperand k) := by
  cases k
  · exact .bind p.toChain (.bind p.toChain (fetch8 p) fun _ => .pure p.toChain _)
      fun _ => .pure p.toChain _
  · exact .bind p.toChain (fetch8 p) fun _ => .pure p.toChain _
  · exact fetch16 p
  · exact .bind p.toChain (fetch8 p) fun _ => .pure p.toChain _
  · exact fetch16 p

theorem fetchOperands (ks : List OperandKind) : Keeps R (Machine.fetchOperands ks) := by
  induction ks with
  | nil => exact .pure p.toChain _
  | cons k ks ih =>
    exact .bind p.toChain (fetchOperand p k) fun _ => .bind p.toChain ih fun _ => .pure p.toChain _

theorem fetchInstr : Keeps R Machine.fetchInstr :=
  .bind p.toChain (regRead p _) fun _ => .bind p.toChain (fetch8 p) fun _ =>
    .bind p.toChain (.get p.toChain) fun _ => by
      split
      · exact .raise p.toChain _
      · exact .bind p.toChain (fetchOperands p _) fun _ => .pure p.toChain _

/-! The outcomes -/

theorem finish {m : Exec Unit} (h : Keeps R m) {s t : State} (e : Machine.finish m s = .next t) :
    R s t := by
  rcases finish_cases m s with ⟨u, h1, h2⟩ | ⟨f, u, h1, h2⟩ <;> rw [h2] at e <;> cases e
  · exact (h s t).1 _ h1
  · exact p.trans _ _ _ ((h s u).2 _ h1) (p.withRun _ _)

/-- Every meaning keeps what the updates keep. -/
theorem exec (i : Instr) {s t : State} (h : Machine.exec i s = .next t) : R s t := by
  have c := p.toChain
  have rr := fun i => regRead p i
  have rw' := fun i v => regWrite p i v
  have mr := fun a w => memRead p a w
  have mw := fun a w v => memWrite p a w v
  have pu : ∀ {α : Type} (a : α), Keeps R (Pure.pure a : Exec α) := fun a => .pure c a
  cases i with
  | nop => exact finish p (pu ()) h
  | hlt => exact finish p (setRun p .halted) h
  | _ =>
    refine finish p ?_ h
    first
      | exact .bind c (rr _) fun _ => rw' _ _
      | exact .bind c (pu _) fun _ => rw' _ _
      | exact .bind c (rr _) fun _ => mw _ _ _
      | exact .bind c (pu _) fun _ => mw _ _ _
      | exact .bind c (mr _ _) fun _ => rw' _ _
      | exact .bind c (.bind c (rr _) fun _ => mr _ _) fun _ => rw' _ _
      | exact .bind c (.bind c (rr _) fun _ => pu _) fun _ => mw _ _ _
      | exact .bind c (rr _) fun _ => .bind c (rr _) fun _ => rw' _ _
      | exact .bind c (pu _) fun _ => .bind c (rr _) fun _ => rw' _ _
      | exact .bind c (rr _) fun _ => .bind c (pu _) fun _ => rw' _ _
      | exact .bind c (rr _) fun _ => .bind c (.bind c (rr _) fun _ => pu _) fun _ => rw' _ _
      | exact jumpIf p _ _ _ (rr _)
      | exact jumpIf p _ _ _ (pu _)
      | exact push p _
      | exact .bind c (rr _) fun _ => push p _
      | exact .bind c (pop p) fun _ => rw' _ _
      | exact callTo p _
      | exact .bind c (rr _) fun _ => callTo p _
      | exact returnSequence p

/-- The step keeps what the updates keep. -/
theorem step {s t : State} (h : Machine.step s = .next t) : R s t := by
  unfold Machine.step at h
  split at h
  · split at h
    · next i u hf => exact p.trans _ _ _ ((fetchInstr p s u).1 _ hf) (exec p _ h)
    · next f u hf =>
      cases h
      exact p.trans _ _ _ ((fetchInstr p s u).2 _ hf) (p.withRun _ _)
  · exact nomatch h
  · exact nomatch h

end

end Keeps

end Sys2Proof.Machine
end

