-- ==== Sys2Proof/Laws/Stack.lean ====
section
/-! SUPPORT. Lists of stores, of pushes and of pops in RAM. -/

namespace Sys2Proof.Machine

/-! ## A list of stores -/

@[simp] theorem State.storeWords_reg (s : State) (a : Word) (vs : List Word) (j : Nat) :
    (s.storeWords a vs).reg j = s.reg j := by
  induction vs generalizing s a with
  | nil => rfl
  | cons v vs ih => rw [State.storeWords, ih, State.store_reg]

@[simp] theorem State.storeWords_cfb (s : State) (a : Word) (vs : List Word) :
    (s.storeWords a vs).cfb = s.cfb := by
  induction vs generalizing s a with
  | nil => rfl
  | cons v vs ih => rw [State.storeWords, ih, State.store_cfb]

@[simp] theorem State.storeWords_resolve (s : State) (a : Word) (vs : List Word) (addr : Nat) :
    (s.storeWords a vs).resolve addr = s.resolve addr := by
  induction vs generalizing s a with
  | nil => rfl
  | cons v vs ih => rw [State.storeWords, ih, State.store_resolve]

@[simp] theorem State.storeWords_ramAccess (s : State) (a : Word) (vs : List Word) (addr : Nat)
    (w : Width) : (s.storeWords a vs).ramAccess addr w = s.ramAccess addr w := by
  induction vs generalizing s a with
  | nil => rfl
  | cons v vs ih => rw [State.storeWords, ih, State.ramAccess_store]

@[simp] theorem State.storeWords_accessFault (s : State) (a : Word) (vs : List Word) (addr : Nat)
    (w : Width) : (s.storeWords a vs).accessFault addr w = s.accessFault addr w := by
  induction vs generalizing s a with
  | nil => rfl
  | cons v vs ih => rw [State.storeWords, ih, State.accessFault_store]

theorem State.storeWords_setReg (s : State) (i : Nat) (x a : Word) (vs : List Word) :
    (s.setReg i x).storeWords a vs = (s.storeWords a vs).setReg i x := by
  induction vs generalizing s a with
  | nil => rfl
  | cons v vs ih => rw [State.storeWords, State.storeWords, State.store_setReg, ih]

theorem State.storeWords_withCfb (s : State) (x a : Word) (vs : List Word) :
    (s.withCfb x).storeWords a vs = (s.storeWords a vs).withCfb x := by
  induction vs generalizing s a with
  | nil => rfl
  | cons v vs ih => rw [State.storeWords, State.storeWords, State.store_withCfb, ih]

theorem State.storeWords_append (s : State) (a : Word) (vs ws : List Word) :
    s.storeWords a (vs ++ ws) =
      (s.storeWords a vs).storeWords (a - BitVec.ofNat 16 (2 * vs.length)) ws := by
  induction vs generalizing s a with
  | nil => simp [State.storeWords]
  | cons v vs ih =>
    rw [List.cons_append, State.storeWords, State.storeWords, ih, List.length_cons]
    have e : a - 2 - BitVec.ofNat 16 (2 * vs.length) = a - BitVec.ofNat 16 (2 * (vs.length + 1)) := by
      bv_omega
    rw [e]

/-- The state after a list of pushes: the words stored downwards from `sp`, then `sp` and `cfb`
moved. -/
def State.pushed (s : State) (vs : List Word) : State :=
  ((s.storeWords (s.reg spIdx) vs).setReg spIdx (s.reg spIdx - BitVec.ofNat 16 (2 * vs.length))).withCfb
    (s.cfb + BitVec.ofNat 16 (2 * vs.length))

theorem State.pushed_nil (s : State) : s.pushed [] = s := by
  simp only [State.pushed, State.storeWords, List.length_nil, Nat.mul_zero, BitVec.sub_zero,
    BitVec.add_zero, State.setReg_reg s spIdx (by decide)]
  rfl

@[simp] theorem State.pushed_sp (s : State) (vs : List Word) :
    (s.pushed vs).reg spIdx = s.reg spIdx - BitVec.ofNat 16 (2 * vs.length) := by
  simp [State.pushed, State.reg_setReg_self _ _ _ (show spIdx < 12 by decide)]

theorem State.pushed_reg (s : State) (vs : List Word) {j : Nat} (h : j ≠ spIdx) :
    (s.pushed vs).reg j = s.reg j := by
  simp [State.pushed, State.reg_setReg_ne _ _ _ _ (Ne.symm h)]

@[simp] theorem State.pushed_cfb (s : State) (vs : List Word) :
    (s.pushed vs).cfb = s.cfb + BitVec.ofNat 16 (2 * vs.length) := rfl

@[simp] theorem State.pushed_ramAccess (s : State) (vs : List Word) (addr : Nat) (w : Width) :
    (s.pushed vs).ramAccess addr w = s.ramAccess addr w := by
  simp [State.pushed]

@[simp] theorem State.pushed_accessFault (s : State) (vs : List Word) (addr : Nat) (w : Width) :
    (s.pushed vs).accessFault addr w = s.accessFault addr w := by
  simp [State.pushed]

/-- One more push. -/
theorem push_pushed {s : State} (vs : List Word) (v : Word)
    (h : s.ramAccess (s.reg spIdx - BitVec.ofNat 16 (2 * vs.length)).toNat .w16 = true) :
    push v (s.pushed vs) = .ok () (s.pushed (vs ++ [v])) := by
  rw [push_ram v (by simpa using h)]
  simp only [State.pushed, State.withCfb_reg, State.withCfb_cfb,
    State.reg_setReg_self _ _ _ (show spIdx < 12 by decide), State.store_withCfb, State.store_setReg,
    State.setReg_withCfb, State.withCfb_withCfb, State.setReg_setReg, State.storeWords_append,
    State.storeWords, List.length_append, List.length_singleton]
  have e1 : s.reg spIdx - BitVec.ofNat 16 (2 * vs.length) - 2 =
      s.reg spIdx - BitVec.ofNat 16 (2 * (vs.length + 1)) := by bv_omega
  have e2 : s.cfb + BitVec.ofNat 16 (2 * vs.length) + 2 =
      s.cfb + BitVec.ofNat 16 (2 * (vs.length + 1)) := by bv_omega
  rw [e1, e2]

theorem push_pushed_fault {s : State} (vs : List Word) (v : Word) {f : Fault}
    (h : s.accessFault (s.reg spIdx - BitVec.ofNat 16 (2 * vs.length)).toNat .w16 = some f) :
    push v (s.pushed vs) = .error f (s.pushed vs) :=
  push_fault v (by simpa using h)

/-- Pushes of registers other than `sp`, all in RAM. -/
theorem pushRegs_pushed {s : State} (vs : List Word) (rs : List Nat)
    (hr : ∀ r ∈ rs, r < 12 ∧ r ≠ spIdx)
    (h : ∀ k, vs.length ≤ k → k < vs.length + rs.length →
      s.ramAccess (s.reg spIdx - BitVec.ofNat 16 (2 * k)).toNat .w16 = true) :
    pushRegs rs (s.pushed vs) = .ok () (s.pushed (vs ++ rs.map s.reg)) := by
  induction rs generalizing vs with
  | nil => simp [pushRegs]
  | cons r rs ih =>
    obtain ⟨h1, h2⟩ := hr r (by simp)
    rw [pushRegs_cons_ok rs h1 (by
      rw [State.pushed_reg s vs h2]
      exact push_pushed vs _ (h _ (by omega) (by simp)))]
    rw [ih _ (fun x hx => hr x (by simp [hx])) (fun k hk hk2 => h k (by simp at hk; omega) (by simp at hk2 ⊢; omega))]
    simp

/-- Pushes of registers other than `sp`, one of which faults. -/
theorem pushRegs_pushed_fault {s : State} (vs : List Word) (rs : List Nat) {n : Nat} {f : Fault}
    (hr : ∀ r ∈ rs, r < 12 ∧ r ≠ spIdx) (hn : n < rs.length)
    (h : ∀ k, vs.length ≤ k → k < vs.length + n →
      s.ramAccess (s.reg spIdx - BitVec.ofNat 16 (2 * k)).toNat .w16 = true)
    (hf : s.accessFault (s.reg spIdx - BitVec.ofNat 16 (2 * (vs.length + n))).toNat .w16 = some f) :
    pushRegs rs (s.pushed vs) = .error f (s.pushed (vs ++ (rs.take n).map s.reg)) := by
  induction rs generalizing vs n with
  | nil => simp at hn
  | cons r rs ih =>
    obtain ⟨h1, h2⟩ := hr r (by simp)
    cases n with
    | zero =>
      rw [pushRegs_cons_error rs h1 (push_pushed_fault vs _ (by simpa using hf))]
      simp
    | succ n =>
      rw [pushRegs_cons_ok rs h1 (by
        rw [State.pushed_reg s vs h2]
        exact push_pushed vs _ (h _ (by omega) (by omega)))]
      rw [ih (n := n) _ (fun x hx => hr x (by simp [hx])) (by simpa using hn)
        (fun k hk hk2 => h k (by simp at hk; omega) (by simp at hk2 ⊢; omega))
        (by simpa [Nat.add_assoc, Nat.add_comm 1 n] using hf)]
      simp

/-! ## A list of register writes -/

@[simp] theorem State.setRegs_readAt (s : State) (l : List (Nat × Word)) (addr : Nat) (w : Width) :
    (s.setRegs l).readAt addr w = s.readAt addr w := by
  induction l generalizing s with
  | nil => rfl
  | cons x l ih => rw [State.setRegs, ih, State.readAt_setReg]

@[simp] theorem State.setRegs_accessFault (s : State) (l : List (Nat × Word)) (addr : Nat)
    (w : Width) : (s.setRegs l).accessFault addr w = s.accessFault addr w := by
  induction l generalizing s with
  | nil => rfl
  | cons x l ih => rw [State.setRegs, ih, State.accessFault_setReg]

@[simp] theorem State.setRegs_cfb (s : State) (l : List (Nat × Word)) :
    (s.setRegs l).cfb = s.cfb := by
  induction l generalizing s with
  | nil => rfl
  | cons x l ih => rw [State.setRegs, ih, State.setReg_cfb]

/-- A register that a list of register writes does not name is as before. -/
theorem State.setRegs_reg_of_not_mem (s : State) (l : List (Nat × Word)) {j : Nat}
    (h : ∀ x ∈ l, x.1 ≠ j) : (s.setRegs l).reg j = s.reg j := by
  induction l generalizing s with
  | nil => rfl
  | cons x l ih =>
    rw [State.setRegs, ih _ (fun y hy => h y (by simp [hy])),
      State.reg_setReg_ne _ _ _ _ (h x (by simp))]

theorem State.setRegs_setReg (s : State) (l : List (Nat × Word)) (i : Nat) (v : Word)
    (h : ∀ x ∈ l, x.1 ≠ i) : (s.setReg i v).setRegs l = (s.setRegs l).setReg i v := by
  induction l generalizing s with
  | nil => rfl
  | cons x l ih =>
    rw [State.setRegs, State.setRegs, State.setReg_comm _ _ _ _ _ (Ne.symm (h x (by simp))),
      ih _ (fun y hy => h y (by simp [hy]))]

theorem State.setRegs_withCfb (s : State) (l : List (Nat × Word)) (v : Word) :
    (s.withCfb v).setRegs l = (s.setRegs l).withCfb v := by
  induction l generalizing s with
  | nil => rfl
  | cons x l ih => rw [State.setRegs, State.setRegs, State.setReg_withCfb, ih]

/-! ## A list of pops -/

/-- The state after as many pops as there are registers, each register given the word popped for
it, `sp` and `cfb` moved. -/
def State.popped (s : State) (l : List (Nat × Word)) : State :=
  ((s.setRegs l).setReg spIdx (s.reg spIdx + BitVec.ofNat 16 (2 * l.length))).withCfb
    (s.cfb - BitVec.ofNat 16 (2 * l.length))

theorem State.popped_nil (s : State) : s.popped [] = s := by
  simp only [State.popped, State.setRegs, List.length_nil, Nat.mul_zero, BitVec.sub_zero,
    BitVec.add_zero, State.setReg_reg s spIdx (by decide)]
  rfl

/-- Pops into registers other than `sp`, all in RAM. -/
theorem popRegs_ram {s : State} (l : List (Nat × Word)) (hr : ∀ x ∈ l, x.1 < 12 ∧ x.1 ≠ spIdx)
    (h : ∀ (k : Nat) (x : Nat × Word), l[k]? = some x →
      s.readAt (s.reg spIdx + BitVec.ofNat 16 (2 + 2 * k)).toNat .w16 = some x.2) :
    popRegs (l.map Prod.fst) s = .ok () (s.popped l) := by
  induction l generalizing s with
  | nil => rw [State.popped_nil]; rfl
  | cons x l ih =>
    obtain ⟨h1, h2⟩ := hr x (by simp)
    have h0 := h 0 x (by simp)
    rw [List.map_cons, popRegs_cons_ok _ h1 (pop_ram h0), ih (fun y hy => hr y (by simp [hy]))]
    · simp only [State.popped, State.setRegs, State.setReg_withCfb, State.withCfb_reg, State.withCfb_cfb,
        State.setRegs_withCfb, State.withCfb_withCfb,
        State.reg_setReg_ne _ _ _ _ h2, State.reg_setReg_self _ _ _ (show spIdx < 12 by decide)]
      rw [State.setReg_comm s spIdx x.1 _ _ (Ne.symm h2),
        State.setRegs_setReg _ l spIdx _ (fun y hy => (hr y (by simp [hy])).2), State.setReg_setReg,
        List.length_cons]
      have e1 : s.reg spIdx + 2 + BitVec.ofNat 16 (2 * l.length) =
          s.reg spIdx + BitVec.ofNat 16 (2 * (l.length + 1)) := by bv_omega
      have e2 : s.cfb - 2 - BitVec.ofNat 16 (2 * l.length) =
          s.cfb - BitVec.ofNat 16 (2 * (l.length + 1)) := by bv_omega
      rw [e1, e2]
    · intro k y hy
      have := h (k + 1) y (by simpa using hy)
      simp only [State.readAt_setReg, State.readAt_withCfb, State.withCfb_reg,
        State.reg_setReg_ne _ _ _ _ h2, State.reg_setReg_self _ _ _ (show spIdx < 12 by decide)]
      have e : s.reg spIdx + 2 + BitVec.ofNat 16 (2 + 2 * k) =
          s.reg spIdx + BitVec.ofNat 16 (2 + 2 * (k + 1)) := by bv_omega
      rwa [e]

/-- Pops into registers other than `sp`, the one after those that succeed faulting. -/
theorem popRegs_fault {s : State} (l : List (Nat × Word)) (r : Nat) (rs : List Nat) {f : Fault}
    (hr : ∀ x ∈ l, x.1 < 12 ∧ x.1 ≠ spIdx)
    (h : ∀ (k : Nat) (x : Nat × Word), l[k]? = some x →
      s.readAt (s.reg spIdx + BitVec.ofNat 16 (2 + 2 * k)).toNat .w16 = some x.2)
    (hf : s.accessFault (s.reg spIdx + BitVec.ofNat 16 (2 + 2 * l.length)).toNat .w16 = some f) :
    popRegs (l.map Prod.fst ++ r :: rs) s = .error f
      (((s.setRegs l).setReg spIdx (s.reg spIdx + BitVec.ofNat 16 (2 + 2 * l.length))).withCfb
        (s.cfb - BitVec.ofNat 16 (2 + 2 * l.length))) := by
  induction l generalizing s with
  | nil =>
    have e : s.reg spIdx + 2 = s.reg spIdx + BitVec.ofNat 16 (2 + 2 * ([] : List (Nat × Word)).length) := rfl
    exact popRegs_cons_error rs (pop_fault (by rw [e]; exact hf))
  | cons x l ih =>
    obtain ⟨h1, h2⟩ := hr x (by simp)
    have h0 := h 0 x (by simp)
    have a1 : s.reg spIdx + 2 + BitVec.ofNat 16 (2 + 2 * l.length) =
        s.reg spIdx + BitVec.ofNat 16 (2 + 2 * (l.length + 1)) := by bv_omega
    have a2 : s.cfb - 2 - BitVec.ofNat 16 (2 + 2 * l.length) =
        s.cfb - BitVec.ofNat 16 (2 + 2 * (l.length + 1)) := by bv_omega
    rw [List.map_cons, List.cons_append, popRegs_cons_ok _ h1 (pop_ram h0),
      ih (fun y hy => hr y (by simp [hy]))]
    · simp only [State.setRegs, State.setReg_withCfb, State.withCfb_reg, State.withCfb_cfb,
        State.setRegs_withCfb, State.withCfb_withCfb,
        State.reg_setReg_ne _ _ _ _ h2, State.reg_setReg_self _ _ _ (show spIdx < 12 by decide)]
      rw [State.setReg_comm s spIdx x.1 _ _ (Ne.symm h2),
        State.setRegs_setReg _ l spIdx _ (fun y hy => (hr y (by simp [hy])).2), State.setReg_setReg,
        List.length_cons, a1, a2]
    · intro k y hy
      have := h (k + 1) y (by simpa using hy)
      simp only [State.readAt_setReg, State.readAt_withCfb, State.withCfb_reg,
        State.reg_setReg_ne _ _ _ _ h2, State.reg_setReg_self _ _ _ (show spIdx < 12 by decide)]
      have e : s.reg spIdx + 2 + BitVec.ofNat 16 (2 + 2 * k) =
          s.reg spIdx + BitVec.ofNat 16 (2 + 2 * (k + 1)) := by bv_omega
      rwa [e]
    · simp only [State.accessFault_setReg, State.accessFault_withCfb, State.withCfb_reg,
        State.reg_setReg_ne _ _ _ _ h2, State.reg_setReg_self _ _ _ (show spIdx < 12 by decide)]
      rwa [a1]

/-! ## Pushes to any device -/

/-- Pushes made one list after another. -/
theorem pushWords_append (vs ws : List Word) (s : State) :
    pushWords (vs ++ ws) s = (do pushWords vs; pushWords ws : Exec Unit) s := by
  induction vs generalizing s with
  | nil => rfl
  | cons x xs ih =>
    simp only [List.cons_append, pushWords, bind_assoc]
    rw [bind_apply, bind_apply]
    cases push x s with
    | error f t => rfl
    | ok u t => exact ih t

/-- What a list of pushes that completes leaves. -/
theorem pushWords_ok_keeps {vs : List Word} {s u : State} (h : pushWords vs s = .ok () u) :
    (∀ j, j ≠ spIdx → u.reg j = s.reg j) ∧
    u.reg spIdx = s.reg spIdx - BitVec.ofNat 16 (2 * vs.length) ∧
    u.cfb = s.cfb + BitVec.ofNat 16 (2 * vs.length) := by
  induction vs generalizing s with
  | nil => cases h; simp
  | cons v vs ih =>
    rw [pushWords] at h
    obtain ⟨_, t, h1, h2⟩ := bind_eq_ok h
    obtain ⟨hr, hsp, hc⟩ := ih h2
    obtain ⟨hr', hsp', hc'⟩ := push_ok_keeps h1
    refine ⟨fun j hj => (hr j hj).trans (hr' j hj), ?_, ?_⟩
    · rw [hsp, hsp', List.length_cons]; bv_omega
    · rw [hc, hc', List.length_cons]; bv_omega

/-- Pushes of registers are pushes of the words they held before the first one. -/
theorem pushRegs_eq_pushWords (rs : List Nat) {s s0 : State} (hr : ∀ r ∈ rs, r < 12 ∧ r ≠ spIdx)
    (h0 : ∀ j, j ≠ spIdx → s.reg j = s0.reg j) :
    pushRegs rs s = pushWords (rs.map s0.reg) s := by
  induction rs generalizing s with
  | nil => rfl
  | cons r rs ih =>
    obtain ⟨hlt, hne⟩ := hr r (by simp)
    rw [pushRegs, List.map_cons, pushWords, bind_ok (regRead_ok hlt s), h0 r hne, bind_apply,
      bind_apply]
    cases hp : push (s0.reg r) s with
    | error f t => rfl
    | ok a t =>
      exact ih (fun x hx => hr x (by simp [hx]))
        (fun j hj => ((push_ok_keeps hp).1 j hj).trans (h0 j hj))

/-! ## Pops from any device -/

/-- A read does not depend on the registers, and leaves them. -/
theorem memRead_setReg (s : State) (j : Nat) (x : Word) (addr : Nat) (w : Width) :
    memRead addr w (s.setReg j x) = match memRead addr w s with
      | .ok v u => .ok v (u.setReg j x)
      | .error f u => .error f (u.setReg j x) := by
  rw [memRead_apply, memRead_apply, State.setReg_resolve]
  cases s.resolve addr with
  | none => rfl
  | some p =>
    simp only [deviceGet, State.setReg_device, State.setReg_accesses]
    cases s.device p.1 with
    | ram n m => dsimp only; split <;> rfl
    | peripheral => dsimp only; split <;> rfl

/-- A read does not depend on `cfb`, and leaves it. -/
theorem memRead_withCfb (s : State) (c : Word) (addr : Nat) (w : Width) :
    memRead addr w (s.withCfb c) = match memRead addr w s with
      | .ok v u => .ok v (u.withCfb c)
      | .error f u => .error f (u.withCfb c) := by
  rw [memRead_apply, memRead_apply, State.withCfb_resolve]
  cases s.resolve addr with
  | none => rfl
  | some p =>
    simp only [deviceGet, State.withCfb_device, State.withCfb_accesses]
    cases s.device p.1 with
    | ram n m => dsimp only; split <;> rfl
    | peripheral => dsimp only; split <;> rfl

/-- A pop does not depend on `cfb`, which falls by 2 from what it was. -/
theorem pop_withCfb (s : State) (c : Word) :
    pop (s.withCfb c) = match pop s with
      | .ok v u => .ok v (u.withCfb (c - 2))
      | .error f u => .error f (u.withCfb (c - 2)) := by
  rw [pop_apply, pop_apply]
  simp only [State.withCfb_reg, State.withCfb_cfb, State.setReg_withCfb, State.withCfb_withCfb]
  rw [memRead_withCfb, memRead_withCfb]
  cases memRead (s.reg spIdx + 2).toNat .w16 (s.setReg spIdx (s.reg spIdx + 2)) <;>
    simp only [State.withCfb_withCfb]

/-- A pop does not depend on the registers other than `sp`, and leaves them. -/
theorem pop_setReg (s : State) (j : Nat) (x : Word) (h : j ≠ spIdx) :
    pop (s.setReg j x) = match pop s with
      | .ok v u => .ok v (u.setReg j x)
      | .error f u => .error f (u.setReg j x) := by
  rw [pop_apply, pop_apply, State.reg_setReg_ne _ _ _ _ h, State.setReg_cfb,
    State.setReg_comm s j spIdx _ _ h, ← State.setReg_withCfb, memRead_setReg]

/-- The same of a list of register writes. -/
theorem pop_setRegs (s : State) (l : List (Nat × Word)) (h : ∀ x ∈ l, x.1 ≠ spIdx) :
    pop (s.setRegs l) = match pop s with
      | .ok v u => .ok v (u.setRegs l)
      | .error f u => .error f (u.setRegs l) := by
  induction l generalizing s with
  | nil => simp only [State.setRegs]; cases pop s <;> rfl
  | cons a l ih =>
    rw [State.setRegs, ih _ (fun x hx => h x (by simp [hx])), pop_setReg _ _ _ (h a (by simp))]
    cases pop s <;> rfl

/-- Pops do not depend on `cfb`, which falls by 2 for each. -/
theorem popWords_withCfb {n : Nat} {s u : State} {ws : List Word} (c : Word)
    (h : popWords n s = .ok ws u) :
    popWords n (s.withCfb c) = .ok ws (u.withCfb (c - BitVec.ofNat 16 (2 * n))) := by
  induction n generalizing s c ws with
  | zero => cases h; simp [popWords]
  | succ n ih =>
    rw [popWords] at h ⊢
    obtain ⟨v, t, h1, h2⟩ := bind_eq_ok h
    obtain ⟨vs, t', h3, h4⟩ := bind_eq_ok h2
    cases h4
    have e : c - 2 - BitVec.ofNat 16 (2 * n) = c - BitVec.ofNat 16 (2 * (n + 1)) := by bv_omega
    have h1' : pop (s.withCfb c) = .ok v (t.withCfb (c - 2)) := by rw [pop_withCfb, h1]
    rw [bind_ok h1', bind_ok (ih (c - 2) h3), pure_apply, e]

/-- Pops do not depend on the registers other than `sp`, and leave them. -/
theorem popWords_setRegs {n : Nat} {s u : State} {ws : List Word} (l : List (Nat × Word))
    (hl : ∀ x ∈ l, x.1 ≠ spIdx) (h : popWords n s = .ok ws u) :
    popWords n (s.setRegs l) = .ok ws (u.setRegs l) := by
  induction n generalizing s ws with
  | zero => cases h; rfl
  | succ n ih =>
    rw [popWords] at h ⊢
    obtain ⟨v, t, h1, h2⟩ := bind_eq_ok h
    obtain ⟨vs, t', h3, h4⟩ := bind_eq_ok h2
    cases h4
    have h1' : pop (s.setRegs l) = .ok v (t.setRegs l) := by rw [pop_setRegs _ _ hl, h1]
    rw [bind_ok h1', bind_ok (ih h3), pure_apply]

/-- Pops of one number of words after another. -/
theorem popWords_add (m n : Nat) {s u : State} {ws : List Word} (h : popWords (m + n) s = .ok ws u) :
    ∃ t, popWords m s = .ok (ws.take m) t ∧ popWords n t = .ok (ws.drop m) u := by
  induction m generalizing s ws with
  | zero => rw [Nat.zero_add] at h; exact ⟨s, rfl, h⟩
  | succ m ih =>
    rw [Nat.succ_add] at h
    rw [popWords] at h
    obtain ⟨v, t, h1, h2⟩ := bind_eq_ok h
    obtain ⟨vs, t', h3, h4⟩ := bind_eq_ok h2
    cases h4
    obtain ⟨x, ha, hb⟩ := ih h3
    refine ⟨x, ?_, hb⟩
    rw [popWords, bind_ok h1, bind_ok ha]
    rfl

/-- What a number of pops that completes answers and leaves. -/
theorem popWords_ok_keeps {n : Nat} {s u : State} {ws : List Word} (h : popWords n s = .ok ws u) :
    ws.length = n ∧ (∀ j, j ≠ spIdx → u.reg j = s.reg j) ∧
    u.reg spIdx = s.reg spIdx + BitVec.ofNat 16 (2 * n) ∧
    u.cfb = s.cfb - BitVec.ofNat 16 (2 * n) ∧ u.run = s.run ∧ u.devices = s.devices := by
  induction n generalizing s ws with
  | zero => cases h; simp
  | succ n ih =>
    rw [popWords] at h
    obtain ⟨v, t, h1, h2⟩ := bind_eq_ok h
    obtain ⟨vs, t', h3, h4⟩ := bind_eq_ok h2
    cases h4
    obtain ⟨a, b, c, d, e, f⟩ := ih h3
    obtain ⟨b', c', d', e', f'⟩ := pop_ok_keeps h1
    refine ⟨by simp [a], fun j hj => (b j hj).trans (b' j hj), ?_, ?_, e.trans e', f.trans f'⟩
    · rw [c, c']; bv_omega
    · rw [d, d']; bv_omega

/-- Pops into registers are pops of words, written to the registers at the end. -/
theorem popRegs_popWords (rs : List Nat) {s u : State} {ws : List Word}
    (hr : ∀ r ∈ rs, r < 12 ∧ r ≠ spIdx) (h : popWords rs.length s = .ok ws u) :
    popRegs rs s = .ok () (u.setRegs (rs.zip ws)) := by
  induction rs generalizing s u ws with
  | nil => cases h; rfl
  | cons r rs ih =>
    obtain ⟨hlt, hne⟩ := hr r (by simp)
    rw [List.length_cons, popWords] at h
    obtain ⟨v, t, h1, h2⟩ := bind_eq_ok h
    obtain ⟨vs, t', h3, h4⟩ := bind_eq_ok h2
    cases h4
    have h5 : popWords rs.length (t.setReg r v) = .ok vs (u.setReg r v) :=
      popWords_setRegs [(r, v)] (by simpa using hne) h3
    rw [popRegs_cons_ok _ hlt h1, ih (fun x hx => hr x (by simp [hx])) h5]
    rfl

/-- The same where the pop after them faults. -/
theorem popRegs_popWords_fault (rs : List Nat) (r : Nat) (rest : List Nat) {s u v : State}
    {ws : List Word} {f : Fault} (hr : ∀ r ∈ rs, r < 12 ∧ r ≠ spIdx)
    (h : popWords rs.length s = .ok ws u) (hf : pop u = .error f v) :
    popRegs (rs ++ r :: rest) s = .error f (v.setRegs (rs.zip ws)) := by
  induction rs generalizing s ws u v with
  | nil => cases h; exact popRegs_cons_error _ hf
  | cons x rs ih =>
    obtain ⟨hlt, hne⟩ := hr x (by simp)
    rw [List.length_cons, popWords] at h
    obtain ⟨a, t, h1, h2⟩ := bind_eq_ok h
    obtain ⟨vs, t', h3, h4⟩ := bind_eq_ok h2
    cases h4
    have h5 : popWords rs.length (t.setReg x a) = .ok vs (u.setReg x a) :=
      popWords_setRegs [(x, a)] (by simpa using hne) h3
    have hf' : pop (u.setReg x a) = .error f (v.setReg x a) := by
      rw [pop_setReg _ _ _ hne, hf]
    rw [List.cons_append, popRegs_cons_ok _ hlt h1, ih (fun y hy => hr y (by simp [hy])) h5 hf']
    rfl

/-- Discarding words is popping them. -/
theorem popDiscard_popWords {n : Nat} {s u : State} {ws : List Word} (h : popWords n s = .ok ws u) :
    popDiscard n s = .ok () u := by
  induction n generalizing s ws with
  | zero => cases h; rfl
  | succ n ih =>
    rw [popWords] at h
    obtain ⟨v, t, h1, h2⟩ := bind_eq_ok h
    obtain ⟨vs, t', h3, h4⟩ := bind_eq_ok h2
    cases h4
    rw [popDiscard, bind_ok h1, ih h3]

/-- The same where the pop after them faults. -/
theorem popDiscard_popWords_fault {m n : Nat} {s u v : State} {ws : List Word} {f : Fault} (hm : m < n)
    (h : popWords m s = .ok ws u) (hf : pop u = .error f v) : popDiscard n s = .error f v := by
  induction m generalizing s ws n with
  | zero =>
    cases h
    obtain ⟨k, rfl⟩ : ∃ k, n = k + 1 := ⟨n - 1, by omega⟩
    exact bind_error hf
  | succ m ih =>
    obtain ⟨k, rfl⟩ : ∃ k, n = k + 1 := ⟨n - 1, by omega⟩
    rw [popWords] at h
    obtain ⟨a, t, h1, h2⟩ := bind_eq_ok h
    obtain ⟨vs, t', h3, h4⟩ := bind_eq_ok h2
    cases h4
    rw [popDiscard, bind_ok h1, ih (by omega) h3]

/-- A return whose pop of the frame size completes is its later pops from the state in which `cfb` is
the frame size, the return address being popped into `ip` as the registers are (46_call_return R169). -/
theorem returnSequence_after {s s1 : State} {w0 : Word}
    (h : pop (s.setReg spIdx (s.reg fpIdx)) = .ok w0 s1) :
    returnSequence s = (do
      popRegs returnTargets
      let n ← pop
      popDiscard n.toNat
      regWrite fpIdx (add16 (s.reg fpIdx) w0) : Exec Unit) (s1.withCfb w0) := by
  unfold returnSequence
  rw [bind_ok (regRead_fp s), bind_ok (regWrite_sp _ _), bind_ok h, bind_ok (setCfb_apply _ _),
    show popRegs returnTargets = (do
      let v ← pop
      regWrite ipIdx v
      popRegs savedRegs.reverse) from rfl]
  simp only [bind_assoc]

end Sys2Proof.Machine
end

