-- ==== Sys2Proof/Tests/Slice0.lean ====
section
/-! SUPPORT. Tests: the check of well-formedness, the decoder on bytes written out from the spec's
encodings, the vectors of 95_test_vectors, and for every statement with hypotheses a state and
operands that meet them. -/

namespace Sys2Proof.Tests

open Sys2Proof.Machine

/- Elaborated one after another: many tests at once exhaust the memory limit. -/
set_option Elab.async false

/-! ## Well-formedness -/

/-- The one check: a register operand above 11 is refused, in every place; 11 is admitted. -/
theorem test_wellFormed :
    (Instr.pshReg 12).wellFormed = false ∧ (Instr.movRegReg 12 0).wellFormed = false ∧
    (Instr.movRegReg 0 12).wellFormed = false ∧ (Instr.movLitOffReg 0 12 0).wellFormed = false ∧
    (Instr.movLitOffReg 0 0 12).wellFormed = false ∧
    (Instr.lshRegLit 12 0xFF).wellFormed = false ∧
    (Instr.movLitOffReg 0xFFFF 11 11).wellFormed = true := by
  decide

/-- An opcode map that gives two opcodes one byte is refused. -/
theorem test_opcodeMap_wf :
    ¬ (OpcodeMap.mk (Vector.replicate 50 0)).wf ∧ OpcodeMap.reference.wf := by
  decide +kernel

/-! ## Decoding -/

/-- The moves, from the layouts of 30_encoding R64 and the codes of R67. -/
theorem test_decode_moves :
    decode [0x10, 0x12, 0x34, 0xFF] = .ok (.movLitReg 0x1234 3, []) ∧
    decode [0x12, 0x02, 0x20, 0x00] = .ok (.movRegMem 2 0x2000, []) ∧
    decode [0x13, 0x20, 0x01, 0x03] = .ok (.movMemReg 0x2001 3, []) ∧
    decode [0x1B, 0x12, 0x34, 0xDE, 0xAD] = .ok (.movLitMem 0x1234 0xDEAD, []) ∧
    decode [0x1C, 0x02, 0x03] = .ok (.movRegPtrReg 2 3, []) ∧
    decode [0x1D, 0x20, 0x00, 0x02, 0x03] = .ok (.movLitOffReg 0x2000 2 3, []) ∧
    decode [0x50, 0xAB, 0x20, 0x00] = .ok (.mov8LitMem 0xAB 0x2000, []) ∧
    decode [0x51, 0x02, 0xFF, 0xFF] = .ok (.mov8RegMem 2 0xFFFF, []) ∧
    decode [0x52, 0x20, 0x01, 0x02] = .ok (.mov8MemReg 0x2001 2, []) ∧
    decode [0x11, 0x0E, 0x1B] = .ok (.movRegReg 2 3, []) := by
  decide +kernel

/-- The stack instructions, from the layouts of 30_encoding R64 and the codes of R67. -/
theorem test_decode_stack :
    decode [0x17, 0x12, 0x34] = .ok (.pshLit 0x1234, []) ∧
    decode [0x18, 0x0A] = .ok (.pshReg 10, []) ∧
    decode [0x1A, 0x03] = .ok (.pop 3, []) := by
  decide +kernel

/-- The arithmetic instructions, from the layouts of 30_encoding R64 and the codes of R67. -/
theorem test_decode_arithmetic :
    decode [0x3F, 0x80, 0x00, 0x02] = .ok (.addLitReg 0x8000 2, []) ∧
    decode [0x16, 0x00, 0x0A, 0x02] = .ok (.subLitReg 0x000A 2, []) ∧
    decode [0x1E, 0x02, 0x00, 0x0A] = .ok (.subRegLit 2 0x000A, []) ∧
    decode [0x1F, 0x02, 0x03] = .ok (.subRegReg 2 3, []) ∧
    decode [0x20, 0x01, 0x00, 0x02] = .ok (.mulLitReg 0x0100 2, []) ∧
    decode [0x21, 0x02, 0x03] = .ok (.mulRegReg 2 3, []) ∧
    decode [0x14, 0x0C, 0x0D] = .ok (.addRegReg 0 1, []) := by
  decide +kernel

/-- The logic instructions, from the layouts of 30_encoding R64 and the codes of R67. -/
theorem test_decode_logic :
    decode [0x2E, 0x02, 0x0F, 0xF0] = .ok (.andRegLit 2 0x0FF0, []) ∧
    decode [0x2F, 0x02, 0x03] = .ok (.andRegReg 2 3, []) ∧
    decode [0x30, 0x02, 0x00, 0x0F] = .ok (.orRegLit 2 0x000F, []) ∧
    decode [0x31, 0x02, 0x03] = .ok (.orRegReg 2 3, []) ∧
    decode [0x32, 0x02, 0xFF, 0xFF] = .ok (.xorRegLit 2 0xFFFF, []) ∧
    decode [0x33, 0x03, 0x0B] = .ok (.xorRegReg 3 11, []) ∧
    decode [0x34, 0x02] = .ok (.notReg 2, []) := by
  decide +kernel

/-- The shifts, from the layouts of 30_encoding R64 and the codes of R67. -/
theorem test_decode_shift :
    decode [0x26, 0x02, 0x04] = .ok (.lshRegLit 2 0x04, []) ∧
    decode [0x27, 0x02, 0x03] = .ok (.lshRegReg 2 3, []) ∧
    decode [0x2A, 0x02, 0x0F] = .ok (.rshRegLit 2 0x0F, []) ∧
    decode [0x2B, 0x02, 0x03] = .ok (.rshRegReg 2 3, []) := by
  decide +kernel

/-- Increment and decrement, from the layouts of 30_encoding R64 and the codes of R67. -/
theorem test_decode_inc_dec :
    decode [0x35, 0x02] = .ok (.incReg 2, []) ∧
    decode [0x36, 0x02] = .ok (.decReg 2, []) := by
  decide +kernel

/-- The equality jumps, from the layouts of 30_encoding R64 and the codes of R67. -/
theorem test_decode_equality_jumps :
    decode [0x15, 0x00, 0x03, 0x00, 0x40] = .ok (.jmpNotEq 0x0003 0x0040, []) ∧
    decode [0x40, 0x02, 0x00, 0x06] = .ok (.jneReg 2 0x0006, []) ∧
    decode [0x3E, 0x02, 0x12, 0x00] = .ok (.jeqReg 2 0x1200, []) ∧
    decode [0x41, 0x00, 0x00, 0x12, 0x00] = .ok (.jeqLit 0x0000 0x1200, []) := by
  decide +kernel

/-- The ordered jumps, from the layouts of 30_encoding R64 and the codes of R67. -/
theorem test_decode_ordered_jumps :
    decode [0x42, 0x02, 0x12, 0x00] = .ok (.jltReg 2 0x1200, []) ∧
    decode [0x43, 0x00, 0x03, 0x12, 0x00] = .ok (.jltLit 0x0003 0x1200, []) ∧
    decode [0x44, 0x02, 0x12, 0x00] = .ok (.jgtReg 2 0x1200, []) ∧
    decode [0x45, 0x00, 0x0A, 0x12, 0x00] = .ok (.jgtLit 0x000A 0x1200, []) ∧
    decode [0x46, 0x02, 0x12, 0x00] = .ok (.jleReg 2 0x1200, []) ∧
    decode [0x47, 0x00, 0x00, 0x12, 0x00] = .ok (.jleLit 0x0000 0x1200, []) ∧
    decode [0x48, 0x02, 0x12, 0x00] = .ok (.jgeReg 2 0x1200, []) ∧
    decode [0x49, 0xFF, 0xFF, 0x12, 0x00] = .ok (.jgeLit 0xFFFF 0x1200, []) := by
  decide +kernel

/-- The calls and the return, from the layouts of 30_encoding R64 and the codes of R67. -/
theorem test_decode_call_return :
    decode [0x5E, 0x30, 0x00] = .ok (.calLit 0x3000, []) ∧
    decode [0x5F, 0x04] = .ok (.calReg 4, []) ∧
    decode [0x60] = .ok (.ret, []) := by
  decide +kernel

/-- No-op and halt, from the layouts of 30_encoding R64 and the codes of R67. -/
theorem test_decode_system :
    decode [0x00] = .ok (.nop, []) ∧
    decode [0xFF] = .ok (.hlt, []) := by
  decide +kernel

/-- An opcode byte of no instruction and an instruction cut short are rejected by name (30_encoding
R68); the bytes after an instruction are left alone. -/
theorem test_decode_rejects :
    decode [0x01] = .error (.illegalOpcode 0x01) ∧ decode [] = .error (.truncated none) ∧
    decode [0x1B, 0x12, 0x34, 0xDE] = .error (.truncated (some .addr16)) ∧
    decode [0x18] = .error (.truncated (some .reg)) ∧
    decode [0x1A, 0x03, 0xFF] = .ok (.pop 3, [0xFF]) := by
  decide +kernel

/-- The encoder writes the bytes of 30_encoding R64. -/
theorem test_encode :
    encode (.movLitOffReg 0x2000 2 3) = [0x1D, 0x20, 0x00, 0x02, 0x03] ∧
    encode (.mov8LitMem 0xAB 0x2000) = [0x50, 0xAB, 0x20, 0x00] ∧ encode .hlt = [0xFF] := by
  decide +kernel

/-- The opcode table's bit numbering: the first byte is the lowest. -/
theorem test_decodeTableWord :
    decodeTableWord 32 0xFF341210 = some (.movLitReg 0x1234 3) ∧
    decodeTableWord 8 0x30005E = some (.calLit 0) := by
  decide +kernel

/-- The word placed for the next step runs as the first instruction after reset. -/
theorem test_withFetchWord :
    (match step (State.reset.withFetchWord 32 0xFF341210) with
      | .next t => some (t.reg ipIdx, t.reg 3)
      | .fault _ => none
      | .refused _ => none) = some (4, 0x1234) := by
  decide +kernel

/-! ## One step on a small state: the vectors of 95_test_vectors, each named by its id there -/

/-- What a vector lists: the memory size and the place of the instruction where they are not the
standard ones, the registers, `cfb`, the run state and the memory bytes. -/
structure Setting where
  size : Nat := 0x10000
  at_ : Word := 0x0100
  regs : List (Nat × Word) := []
  cfb : Word := 0
  run : RunState := .running
  mem : List (Nat × List Byte) := []

/-- The reference configuration with a RAM of another size, reset. -/
def machine (size : Nat) : State :=
  hostCreate [.emptyRam size] (Mapper.reference size) Params.reference

/-- A state with everything that a setting lists put in place. -/
def Setting.over (e : Setting) (s : State) : State :=
  ((e.mem.foldl (fun t b => t.pokeAll b.1 b.2) (s.setRegs e.regs)).withCfb e.cfb).withRun e.run

/-- One step, the instruction's bytes placed as the setting says, answers exactly the state that the
second setting describes, every other register and byte as at the start. -/
def Setting.steps (start : Setting) (bytes : List Byte) (expected : Setting) : Bool :=
  let s := ((start.over (machine start.size)).setReg ipIdx start.at_).pokeAll start.at_.toNat bytes
  match step s with
  | .next t => decide (t = expected.over s)
  | .fault _ => false
  | .refused _ => false

/-- `MOV_LIT_REG 0x0200, ip` (R81, R91). -/
theorem test_M2 : Setting.steps {} [0x10, 0x02, 0x00, 0x00]
    { regs := [(0, 0x0200)] } = true := by decide +kernel

/-- `MOV_LIT_REG 0x1234, r2 (byte 0xFF)` (R81, R63). -/
theorem test_M3 : Setting.steps {} [0x10, 0x12, 0x34, 0xFF]
    { regs := [(0, 0x0104), (3, 0x1234)] } = true := by decide +kernel

/-- `MOV_REG_REG r1, r2` (R82). -/
theorem test_M4 : Setting.steps { regs := [(2, 0xCAFE)] } [0x11, 0x02, 0x03]
    { regs := [(0, 0x0103), (2, 0xCAFE), (3, 0xCAFE)] } = true := by decide +kernel

/-- `MOV_REG_REG ip, r1` (R82, R91). -/
theorem test_M5 : Setting.steps {} [0x11, 0x00, 0x02]
    { regs := [(0, 0x0103), (2, 0x0103)] } = true := by decide +kernel

/-- `MOV_REG_MEM r1, 0x2000` (R83). -/
theorem test_M6 : Setting.steps { regs := [(2, 0xABCD)] } [0x12, 0x02, 0x20, 0x00]
    { regs := [(0, 0x0104)], mem := [(0x2000, [0xAB, 0xCD])] } = true := by decide +kernel

/-- `MOV_REG_MEM r1, 0xFFFF` (R83, R40). -/
theorem test_M7 : Setting.steps { regs := [(2, 0xABCD)] } [0x12, 0x02, 0xFF, 0xFF]
    { regs := [(0, 0x0104)],
      mem := [(0xFFFF, [0x00])], run := .faulted (.outOfRange 0xFFFF 2 0x10000) }
    = true := by decide +kernel

/-- `MOV_MEM_REG 0x2001, r2` (R84, R43). -/
theorem test_M10 : Setting.steps { mem := [(0x2000, [0x11, 0x22, 0x33])] } [0x13, 0x20, 0x01, 0x03]
    { regs := [(0, 0x0104), (3, 0x2233)] } = true := by decide +kernel

/-- `MOV_LIT_MEM 0x1234, 0xDEAD` (R85). -/
theorem test_M12 : Setting.steps {} [0x1B, 0x12, 0x34, 0xDE, 0xAD]
    { regs := [(0, 0x0105)], mem := [(0xDEAD, [0x12, 0x34])] } = true := by decide +kernel

/-- `MOV_REG_PTR_REG r1, r1` (R86). -/
theorem test_M14 : Setting.steps
    { regs := [(2, 0x2000)], mem := [(0x2000, [0xDE, 0xAD])] }
    [0x1C, 0x02, 0x02]
    { regs := [(0, 0x0103), (2, 0xDEAD)] } = true := by decide +kernel

/-- `MOV_LIT_OFF_REG 0x2000, r1, r2` (R87). -/
theorem test_M15 : Setting.steps
    { regs := [(2, 0x0004)], mem := [(0x2004, [0x55, 0x66])] }
    [0x1D, 0x20, 0x00, 0x02, 0x03]
    { regs := [(0, 0x0105), (3, 0x5566)] } = true := by decide +kernel

/-- `MOV_LIT_OFF_REG 0xFFF0, r1, r2` (R87). -/
theorem test_M16 : Setting.steps
    { regs := [(2, 0x0020), (3, 0x7777)] }
    [0x1D, 0xFF, 0xF0, 0x02, 0x03]
    { regs := [(0, 0x0105), (3, 0x7777)], run := .faulted (.unmappedAddress 0x10010) }
    = true := by decide +kernel

/-- `MOV8_LIT_MEM 0xAB, 0x2000` (R88). -/
theorem test_M18 : Setting.steps { mem := [(0x2000, [0x11, 0x22])] } [0x50, 0xAB, 0x20, 0x00]
    { regs := [(0, 0x0104)], mem := [(0x2000, [0xAB, 0x22])] } = true := by decide +kernel

/-- `MOV8_REG_MEM r1, 0xFFFF` (R89). -/
theorem test_M19 : Setting.steps { regs := [(2, 0x12CD)] } [0x51, 0x02, 0xFF, 0xFF]
    { regs := [(0, 0x0104)], mem := [(0xFFFF, [0xCD])] } = true := by decide +kernel

/-- `MOV8_MEM_REG 0x2001, r1` (R90). -/
theorem test_M20 : Setting.steps
    { regs := [(2, 0xFFFF)], mem := [(0x2001, [0x80])] }
    [0x52, 0x20, 0x01, 0x02]
    { regs := [(0, 0x0104), (2, 0x0080)] } = true := by decide +kernel

/-- `MOV8_MEM_REG 0x0200, r1` (R90, R37). -/
theorem test_M21 : Setting.steps { size := 0x0200, regs := [(2, 0xFFFF)] } [0x52, 0x02, 0x00, 0x02]
    { regs := [(0, 0x0104), (2, 0xFFFF)], run := .faulted (.unmappedAddress 0x0200) }
    = true := by decide +kernel

/-- `MOV_MEM_REG 0xFFFF, r1` (R84, R40). -/
theorem test_M23 : Setting.steps { regs := [(2, 0x7777)] } [0x13, 0xFF, 0xFF, 0x02]
    { regs := [(0, 0x0104), (2, 0x7777)], run := .faulted (.outOfRange 0xFFFF 2 0x10000) }
    = true := by decide +kernel

/-- `PSH_LIT 0x1234` (R102, R100). -/
theorem test_S1 : Setting.steps {} [0x17, 0x12, 0x34]
    { regs := [(0, 0x0103), (10, 0xFFFC)], cfb := 0x0002, mem := [(0xFFFE, [0x12, 0x34])] }
    = true := by decide +kernel

/-- `PSH_REG r1` (R103). -/
theorem test_S2 : Setting.steps { regs := [(2, 0xBEEF), (10, 0x8000)], cfb := 0x0006 } [0x18, 0x02]
    { regs := [(0, 0x0102), (10, 0x7FFE)], cfb := 0x0008, mem := [(0x8000, [0xBE, 0xEF])] }
    = true := by decide +kernel

/-- `PSH_REG sp` (R103). -/
theorem test_S3 : Setting.steps { regs := [(10, 0x8000)] } [0x18, 0x0A]
    { regs := [(0, 0x0102), (10, 0x7FFE)], cfb := 0x0002, mem := [(0x8000, [0x80, 0x00])] }
    = true := by decide +kernel

/-- `PSH_LIT 0x1234` (R100, R40). -/
theorem test_S5 : Setting.steps { regs := [(10, 0xFFFF)] } [0x17, 0x12, 0x34]
    { regs := [(0, 0x0103), (10, 0xFFFF)],
      mem := [(0xFFFF, [0x00])], run := .faulted (.outOfRange 0xFFFF 2 0x10000) }
    = true := by decide +kernel

/-- `POP sp` (R104). -/
theorem test_S10 : Setting.steps
    { regs := [(10, 0x7FFE)], cfb := 0x0002, mem := [(0x8000, [0x40, 0x00])] }
    [0x1A, 0x0A]
    { regs := [(0, 0x0102), (10, 0x4000)] } = true := by decide +kernel

/-- `POP r2` (R101, R188). -/
theorem test_S12 : Setting.steps { regs := [(10, 0xFFFD), (3, 0x7777)] } [0x1A, 0x03]
    { regs := [(0, 0x0102), (3, 0x7777), (10, 0xFFFF)],
      cfb := 0xFFFE, run := .faulted (.outOfRange 0xFFFF 2 0x10000) } = true := by decide +kernel

/-- `ADD_REG_REG r1, r2` (R111, R110). -/
theorem test_A2 : Setting.steps { regs := [(2, 0xFFFF), (3, 0x0002)] } [0x14, 0x02, 0x03]
    { regs := [(0, 0x0103), (1, 0x0001)] } = true := by decide +kernel

/-- `ADD_LIT_REG 0x8000, r1` (R112). -/
theorem test_A4 : Setting.steps { regs := [(2, 0x8000), (1, 0x5555)] } [0x3F, 0x80, 0x00, 0x02]
    { regs := [(0, 0x0104), (1, 0x0000), (2, 0x8000)] } = true := by decide +kernel

/-- `SUB_LIT_REG 0x000A, r1` (R113). -/
theorem test_A5 : Setting.steps { regs := [(2, 0x0003)] } [0x16, 0x00, 0x0A, 0x02]
    { regs := [(0, 0x0104), (1, 0x0007)] } = true := by decide +kernel

/-- `SUB_REG_LIT r1, 0x000A` (R114). -/
theorem test_A7 : Setting.steps { regs := [(2, 0x0003)] } [0x1E, 0x02, 0x00, 0x0A]
    { regs := [(0, 0x0104), (1, 0xFFF9)] } = true := by decide +kernel

/-- `SUB_REG_REG r1, r2` (R115). -/
theorem test_A10 : Setting.steps { regs := [(2, 0x0000), (3, 0xFFFF)] } [0x1F, 0x02, 0x03]
    { regs := [(0, 0x0103), (1, 0x0001)] } = true := by decide +kernel

/-- `MUL_LIT_REG 0x0100, r1` (R116). -/
theorem test_A11 : Setting.steps { regs := [(2, 0x0101)] } [0x20, 0x01, 0x00, 0x02]
    { regs := [(0, 0x0104), (1, 0x0100)] } = true := by decide +kernel

/-- `MUL_REG_REG r1, r2` (R117). -/
theorem test_A12 : Setting.steps { regs := [(2, 0xFFFF), (3, 0xFFFF)] } [0x21, 0x02, 0x03]
    { regs := [(0, 0x0103), (1, 0x0001)] } = true := by decide +kernel

/-- `AND_REG_LIT r1, 0x0FF0` (R121). -/
theorem test_L1 : Setting.steps { regs := [(2, 0xABCD)] } [0x2E, 0x02, 0x0F, 0xF0]
    { regs := [(0, 0x0104), (1, 0x0BC0), (2, 0xABCD)] } = true := by decide +kernel

/-- `AND_REG_REG r1, r2` (R122). -/
theorem test_L2 : Setting.steps { regs := [(2, 0xFF00), (3, 0x0FF0)] } [0x2F, 0x02, 0x03]
    { regs := [(0, 0x0103), (1, 0x0F00)] } = true := by decide +kernel

/-- `OR_REG_LIT r1, 0x000F` (R123). -/
theorem test_L3 : Setting.steps { regs := [(2, 0xAB00)] } [0x30, 0x02, 0x00, 0x0F]
    { regs := [(0, 0x0104), (1, 0xAB0F)] } = true := by decide +kernel

/-- `OR_REG_REG r1, r2` (R124). -/
theorem test_L4 : Setting.steps { regs := [(2, 0xF000), (3, 0x000F)] } [0x31, 0x02, 0x03]
    { regs := [(0, 0x0103), (1, 0xF00F)] } = true := by decide +kernel

/-- `XOR_REG_LIT r1, 0xFFFF` (R125). -/
theorem test_L5 : Setting.steps { regs := [(2, 0xAAAA)] } [0x32, 0x02, 0xFF, 0xFF]
    { regs := [(0, 0x0104), (1, 0x5555)] } = true := by decide +kernel

/-- `XOR_REG_REG r1, r1` (R126). -/
theorem test_L6 : Setting.steps { regs := [(2, 0x1234), (1, 0xFFFF)] } [0x33, 0x02, 0x02]
    { regs := [(0, 0x0103), (1, 0x0000), (2, 0x1234)] } = true := by decide +kernel

/-- `NOT acc` (R127). -/
theorem test_L8 : Setting.steps { regs := [(1, 0x0000)] } [0x34, 0x01]
    { regs := [(0, 0x0102), (1, 0xFFFF)] } = true := by decide +kernel

/-- `LSH_REG_LIT r1, 0x04` (R129). -/
theorem test_L9 : Setting.steps { regs := [(2, 0x1234), (1, 0x7777)] } [0x26, 0x02, 0x04]
    { regs := [(0, 0x0103), (1, 0x7777), (2, 0x2340)] } = true := by decide +kernel

/-- `LSH_REG_LIT r1, 0x20` (R128). -/
theorem test_L13 : Setting.steps { regs := [(2, 0xFFFF)] } [0x26, 0x02, 0x20]
    { regs := [(0, 0x0103), (2, 0x0000)] } = true := by decide +kernel

/-- `LSH_REG_REG r1, r2` (R130). -/
theorem test_L16 : Setting.steps { regs := [(2, 0x0001), (3, 0x0100)] } [0x27, 0x02, 0x03]
    { regs := [(0, 0x0103), (2, 0x0000)] } = true := by decide +kernel

/-- `LSH_REG_REG r1, r1` (R130). -/
theorem test_L17 : Setting.steps { regs := [(2, 0x0003)] } [0x27, 0x02, 0x02]
    { regs := [(0, 0x0103), (2, 0x0018)] } = true := by decide +kernel

/-- `RSH_REG_LIT r1, 0x04` (R131). -/
theorem test_L18 : Setting.steps { regs := [(2, 0x8234)] } [0x2A, 0x02, 0x04]
    { regs := [(0, 0x0103), (2, 0x0823)] } = true := by decide +kernel

/-- `RSH_REG_LIT r1, 0x10` (R131, R128). -/
theorem test_L20 : Setting.steps { regs := [(2, 0x8000)] } [0x2A, 0x02, 0x10]
    { regs := [(0, 0x0103), (2, 0x0000)] } = true := by decide +kernel

/-- `RSH_REG_REG r1, r2` (R132). -/
theorem test_L21 : Setting.steps { regs := [(2, 0xFFFF), (3, 0x0008)] } [0x2B, 0x02, 0x03]
    { regs := [(0, 0x0103), (2, 0x00FF)] } = true := by decide +kernel

/-- `RSH_REG_REG r1, r2` (R132). -/
theorem test_L22 : Setting.steps { regs := [(2, 0xFFFF), (3, 0xFFFF)] } [0x2B, 0x02, 0x03]
    { regs := [(0, 0x0103), (2, 0x0000)] } = true := by decide +kernel

/-- `INC_REG r1` (R140). -/
theorem test_I2 : Setting.steps { regs := [(2, 0xFFFF)] } [0x35, 0x02]
    { regs := [(0, 0x0102), (2, 0x0000)] } = true := by decide +kernel

/-- `DEC_REG r1` (R141). -/
theorem test_I3 : Setting.steps { regs := [(2, 0x0000)] } [0x36, 0x02]
    { regs := [(0, 0x0102), (2, 0xFFFF)] } = true := by decide +kernel

/-- `INC_REG ip` (R140). -/
theorem test_I5 : Setting.steps {} [0x35, 0x00]
    { regs := [(0, 0x0103)] } = true := by decide +kernel

/-- `DEC_REG sp` (R141). -/
theorem test_I6 : Setting.steps {} [0x36, 0x0A]
    { regs := [(0, 0x0102), (10, 0xFFFD)] } = true := by decide +kernel

/-- `JMP_NOT_EQ 0x0003, 0x0040` (R146). -/
theorem test_J1 : Setting.steps { regs := [(1, 0x0003)] } [0x15, 0x00, 0x03, 0x00, 0x40]
    { regs := [(0, 0x0105)] } = true := by decide +kernel

/-- `JMP_NOT_EQ 0x0003, 0x0040` (R146). -/
theorem test_J2 : Setting.steps { regs := [(1, 0x0002)] } [0x15, 0x00, 0x03, 0x00, 0x40]
    { regs := [(0, 0x0040)] } = true := by decide +kernel

/-- `JNE_REG r1, 0x0006` (R147). -/
theorem test_J3 : Setting.steps { regs := [(2, 0x0005), (1, 0x0000)] } [0x40, 0x02, 0x00, 0x06]
    { regs := [(0, 0x0006)] } = true := by decide +kernel

/-- `JNE_REG acc, 0x0006` (R147). -/
theorem test_J4 : Setting.steps { regs := [(1, 0x0009)] } [0x40, 0x01, 0x00, 0x06]
    { regs := [(0, 0x0104)] } = true := by decide +kernel

/-- `JEQ_REG r1, 0x1200` (R148). -/
theorem test_J5 : Setting.steps { regs := [(2, 0x0005), (1, 0x0005)] } [0x3E, 0x02, 0x12, 0x00]
    { regs := [(0, 0x1200)] } = true := by decide +kernel

/-- `JEQ_LIT 0x0000, 0x1200` (R149). -/
theorem test_J7 : Setting.steps { regs := [(1, 0x0000)] } [0x41, 0x00, 0x00, 0x12, 0x00]
    { regs := [(0, 0x1200)] } = true := by decide +kernel

/-- `JEQ_LIT 0x0001, 0x1200` (R149). -/
theorem test_J8 : Setting.steps { regs := [(1, 0x0000)] } [0x41, 0x00, 0x01, 0x12, 0x00]
    { regs := [(0, 0x0105)] } = true := by decide +kernel

/-- `JLT_REG r1, 0x1200` (R150). -/
theorem test_J9 : Setting.steps { regs := [(2, 0x0003), (1, 0x0005)] } [0x42, 0x02, 0x12, 0x00]
    { regs := [(0, 0x1200)] } = true := by decide +kernel

/-- `JLT_REG r1, 0x1200` (R150). -/
theorem test_J10 : Setting.steps { regs := [(2, 0xFFFF), (1, 0x0005)] } [0x42, 0x02, 0x12, 0x00]
    { regs := [(0, 0x0104)] } = true := by decide +kernel

/-- `JLT_LIT 0x0003, 0x1200` (R151). -/
theorem test_J12 : Setting.steps { regs := [(1, 0x0005)] } [0x43, 0x00, 0x03, 0x12, 0x00]
    { regs := [(0, 0x1200)] } = true := by decide +kernel

/-- `JLT_LIT 0x0005, 0x1200` (R151). -/
theorem test_J13 : Setting.steps { regs := [(1, 0x0005)] } [0x43, 0x00, 0x05, 0x12, 0x00]
    { regs := [(0, 0x0105)] } = true := by decide +kernel

/-- `JGT_REG r1, 0x1200` (R152). -/
theorem test_J14 : Setting.steps { regs := [(2, 0x8000), (1, 0x7FFF)] } [0x44, 0x02, 0x12, 0x00]
    { regs := [(0, 0x1200)] } = true := by decide +kernel

/-- `JGT_REG r1, 0x1200` (R152). -/
theorem test_J15 : Setting.steps { regs := [(2, 0x7FFF), (1, 0x8000)] } [0x44, 0x02, 0x12, 0x00]
    { regs := [(0, 0x0104)] } = true := by decide +kernel

/-- `JGT_LIT 0x000A, 0x1200` (R153). -/
theorem test_J16 : Setting.steps { regs := [(1, 0x0005)] } [0x45, 0x00, 0x0A, 0x12, 0x00]
    { regs := [(0, 0x1200)] } = true := by decide +kernel

/-- `JGT_LIT 0x0005, 0x1200` (R153). -/
theorem test_J17 : Setting.steps { regs := [(1, 0x0005)] } [0x45, 0x00, 0x05, 0x12, 0x00]
    { regs := [(0, 0x0105)] } = true := by decide +kernel

/-- `JLE_REG r1, 0x1200` (R154). -/
theorem test_J18 : Setting.steps { regs := [(2, 0x0005), (1, 0x0005)] } [0x46, 0x02, 0x12, 0x00]
    { regs := [(0, 0x1200)] } = true := by decide +kernel

/-- `JLE_REG r1, 0x1200` (R154). -/
theorem test_J19 : Setting.steps { regs := [(2, 0x0006), (1, 0x0005)] } [0x46, 0x02, 0x12, 0x00]
    { regs := [(0, 0x0104)] } = true := by decide +kernel

/-- `JLE_LIT 0x0000, 0x1200` (R155). -/
theorem test_J20 : Setting.steps { regs := [(1, 0x0000)] } [0x47, 0x00, 0x00, 0x12, 0x00]
    { regs := [(0, 0x1200)] } = true := by decide +kernel

/-- `JLE_LIT 0x0006, 0x1200` (R155). -/
theorem test_J21 : Setting.steps { regs := [(1, 0x0005)] } [0x47, 0x00, 0x06, 0x12, 0x00]
    { regs := [(0, 0x0105)] } = true := by decide +kernel

/-- `JGE_REG r1, 0x1200` (R156). -/
theorem test_J22 : Setting.steps { regs := [(2, 0x0005), (1, 0x0005)] } [0x48, 0x02, 0x12, 0x00]
    { regs := [(0, 0x1200)] } = true := by decide +kernel

/-- `JGE_REG r1, 0x1200` (R156). -/
theorem test_J23 : Setting.steps { regs := [(2, 0x0004), (1, 0x0005)] } [0x48, 0x02, 0x12, 0x00]
    { regs := [(0, 0x0104)] } = true := by decide +kernel

/-- `JGE_LIT 0xFFFF, 0x1200` (R157). -/
theorem test_J24 : Setting.steps { regs := [(1, 0xFFFF)] } [0x49, 0xFF, 0xFF, 0x12, 0x00]
    { regs := [(0, 0x1200)] } = true := by decide +kernel

/-- `JGE_LIT 0x0004, 0x1200` (R157). -/
theorem test_J25 : Setting.steps { regs := [(1, 0x0005)] } [0x49, 0x00, 0x04, 0x12, 0x00]
    { regs := [(0, 0x0105)] } = true := by decide +kernel

/-- `JEQ_REG ip, 0xFFFF` (R148). -/
theorem test_J26 : Setting.steps { regs := [(1, 0x0104)] } [0x3E, 0x00, 0xFF, 0xFF]
    { regs := [(0, 0xFFFF)] } = true := by decide +kernel

/-- `CAL_LIT 0x3000` (R167, R166). -/
theorem test_C1 : Setting.steps
    { regs := [(2, 0x1111), (5, 0x2222), (10, 0xFFFC)], cfb := 0x0002 }
    [0x5E, 0x30, 0x00]
    { regs := [(0, 0x3000), (10, 0xFFE8), (11, 0xFFE8)],
      mem := [(0xFFEA, [0x00, 0x16, 0x01, 0x03, 0x00, 0x00, 0x00, 0x00, 0x00, 0x00, 0x00, 0x00,
        0x22, 0x22, 0x00, 0x00, 0x00, 0x00, 0x11, 0x11])] } = true := by decide +kernel

/-- `CAL_REG r3` (R168). -/
theorem test_C2 : Setting.steps { regs := [(4, 0x3000)] } [0x5F, 0x04]
    { regs := [(0, 0x3000), (10, 0xFFEA), (11, 0xFFEA)],
      mem := [(0xFFEC, [0x00, 0x14, 0x01, 0x02, 0x00, 0x00, 0x00, 0x00, 0x00, 0x00, 0x00, 0x00,
        0x00, 0x00, 0x30, 0x00, 0x00, 0x00, 0x00, 0x00])] } = true := by decide +kernel

/-- `CAL_REG sp` (R168). -/
theorem test_C3 : Setting.steps {} [0x5F, 0x0A]
    { regs := [(0, 0xFFFE), (10, 0xFFEA), (11, 0xFFEA)],
      mem := [(0xFFEC, [0x00, 0x14, 0x01, 0x02])] } = true := by decide +kernel

/-- `CAL_LIT 0x3000` (R166, R188). -/
theorem test_C6 : Setting.steps
    { size := 0x0200, regs := [(10, 0x0006), (2, 0xAAAA), (3, 0xBBBB), (4, 0xCCCC), (5,
      0xDDDD)] }
    [0x5E, 0x30, 0x00]
    { regs := [(0, 0x0103), (10, 0xFFFE)], cfb := 0x0008,
      mem := [(0x0000, [0xDD, 0xDD, 0xCC, 0xCC, 0xBB, 0xBB, 0xAA, 0xAA])],
        run := .faulted (.unmappedAddress 0xFFFE) } = true := by decide +kernel

/-- `RET` (R169). -/
theorem test_C8 : Setting.steps
    { regs := [(11, 0xFFE4), (10, 0xFFE4), (3, 0x0006)],
      mem := [(0xFFE6, [0x00, 0x1A, 0x00, 0x0F, 0x00, 0x00, 0x00, 0x00, 0x00, 0x00, 0x00, 0x00,
        0x00, 0x00, 0x00, 0x00, 0x00, 0x00, 0x00, 0x07, 0x00, 0x02, 0x00, 0x07, 0x00, 0x06])] }
    [0x60]
    { regs := [(0, 0x000F), (2, 0x0007), (3, 0x0000), (10, 0xFFFE), (11, 0xFFFE)],
      cfb := 0x0002 } = true := by decide +kernel

/-- `RET` (R169, R188). -/
theorem test_C11 : Setting.steps
    { size := 0x0200, regs := [(11, 0x01F6), (10, 0x01F0), (6, 0x5555), (7, 0x6666), (8,
      0x7777), (9, 0x8888)],
      mem := [(0x01F8, [0x00, 0x20, 0x00, 0x0E, 0x00, 0x08, 0x00, 0x07])] }
    [0x60]
    { regs := [(0, 0x000E), (7, 0x6666), (8, 0x0007), (9, 0x0008), (10, 0x0200), (11, 0x01F6)],
      cfb := 0x0018, run := .faulted (.unmappedAddress 0x0200) } = true := by decide +kernel

/-- `HLT` (R176). -/
theorem test_Y2 : Setting.steps {} [0xFF]
    { regs := [(0, 0x0101)], run := .halted } = true := by decide +kernel

/-- `NOP` (R175, R13). -/
theorem test_Y3 : Setting.steps { at_ := 0xFFFF } [0x00]
    { regs := [(0, 0x0000)] } = true := by decide +kernel

/-- `(no instruction)` (R68, R185). -/
theorem test_Y4 : Setting.steps {} [0x01]
    { regs := [(0, 0x0101)], run := .faulted (.illegalOpcode 0x01 0x0100) }
    = true := by decide +kernel

/-- `MOV_LIT_REG 0x1234, r1` (R62, R188). -/
theorem test_Y9 : Setting.steps { size := 0x0200, at_ := 0x01FD } [0x10, 0x12, 0x34, 0x02]
    { regs := [(0, 0x0200)], run := .faulted (.unmappedAddress 0x0200) }
    = true := by decide +kernel

/-- `MOV_LIT_REG 0x1234, r1`, its literal at the last address (R74, R40). -/
theorem test_Y7 : Setting.steps { at_ := 0xFFFE, mem := [(0, [0x34, 0x02])] } [0x10, 0x12]
    { regs := [(0, 0xFFFF)], run := .faulted (.outOfRange 0xFFFF 2 0x10000) }
    = true := by decide +kernel

/-- `MOV_LIT_REG 0x1234, r1`, its register byte past the last address (R74, D36). -/
theorem test_wrapping_instruction :
    Setting.steps { at_ := 0xFFFD, mem := [(0, [0x02])] } [0x10, 0x12, 0x34]
    { regs := [(0, 0x0001), (2, 0x1234)] } = true := by decide +kernel

/-- `NOP` (R66). -/
theorem test_Y11 : Setting.steps { size := 0x0200, at_ := 0x0200 } [0x00]
    { regs := [(0, 0x0200)], run := .faulted (.unmappedAddress 0x0200) }
    = true := by decide +kernel


/-- A stopped core refuses the step (10_state R19). -/
theorem test_stopped :
    step (State.reset.withRun .halted) = .refused .halted ∧
    step (State.reset.withRun (.faulted (.unmappedAddress 7))) =
      .refused (.faulted (.unmappedAddress 7)) :=
  ⟨rfl, rfl⟩

/-! ## Registers, devices, mapper, reset and the host: the vectors H, D, G and Z -/

/-- The answer of a host's access. -/
def answer {α : Type} (r : Except Fault α × State) : Except Fault α := r.1

/-- H1, H3, H4: a write keeps 16 bits, an index above 11 is refused unreduced. -/
theorem test_H_index :
    answer (hostReadReg 11 (hostWriteReg 11 0x1ABCD State.reset).2) = .ok 0xABCD ∧
    answer (hostReadReg 12 State.reset) = .error (.invalidRegister 12) ∧
    hostWriteReg 255 1 State.reset = (.error (.invalidRegister 255), State.reset) := by
  decide +kernel

/-- H5, H6: access by name. -/
theorem test_H_name :
    answer (hostReadRegByName "sp" State.reset) = .ok 0xFFFE ∧
    answer (hostReadRegByName "r9" State.reset) = .error (.unknownRegisterName "r9") ∧
    answer (hostReadRegByName "SP" State.reset) = .error (.unknownRegisterName "SP") := by
  decide +kernel

/-- D1, D3, D5, D6: a RAM of 16 bytes. -/
theorem test_D :
    let s := machine 16
    let t := (hostWriteMem 4 .w16 0xABCD s).2
    answer (hostReadMem 4 .w16 t) = .ok 0xABCD ∧ answer (hostReadMem 4 .w8 t) = .ok 0xAB ∧
    answer (hostReadMem 5 .w8 t) = .ok 0xCD ∧
    answer (hostReadMem 15 .w16 s) = .error (.outOfRange 15 2 16) ∧
    answer (hostReadMem 16 .w8 s) = .error (.unmappedAddress 16) ∧
    hostWriteMem 15 .w16 0xFFFF s = (.error (.outOfRange 15 2 16), s) := by
  decide +kernel

/-- M-a of 95_test_vectors: a RAM of 256 bytes at 0x3000 over the full RAM. -/
def shadowed : State :=
  hostCreate [.emptyRam 0x10000, .emptyRam 0x100]
    ((Mapper.reference 0x10000).map { device := 1, start := 0x3000, last := 0x30FF, remap := true })
    Params.reference

/-- G1, G3, G4, G5, and the token that takes the shadow away. -/
theorem test_G_shadow :
    let s := (hostWriteMem 0x3000 .w8 0x99
      (shadowed.setRam 0 0x10000 [(0x2FFF, 0x12), (0x3000, 0x34)])).2
    (hostWriteMem 0x3010 .w16 0xBEEF shadowed).2.devices =
      [.emptyRam 0x10000, .ram 0x100 [(0x10, 0xBE), (0x11, 0xEF)]] ∧
    answer (hostReadMem 0x30FF .w16 s) = .error (.outOfRange 0xFF 2 0x100) ∧
    answer (hostReadMem 0x2FFF .w16 s) = .ok 0x1234 ∧
    answer (hostReadMem 0x3000 .w8 s) = .ok 0x99 ∧ s.mapper.byteLength = 0x10000 ∧
    answer (hostReadMem 0x3000 .w8 (hostUnmap 1 (s.withRun .halted)).2) = .ok 0x34 := by
  decide +kernel

/-- U20 of 93_implementation_defined: during a run `map` and `unmap` are refused, and nothing changes;
after the run `map` is done. -/
theorem test_configuration_during_run :
    hostMap 0 0 0xFF true shadowed = (.error .duringRun, shadowed) ∧
    hostUnmap 1 shadowed = (.error .duringRun, shadowed) ∧
    (let t := (hostMap 0 0 0xFF true (shadowed.withRun .halted)).2
     t.mapper.regions.map Region.last = [0xFF, 0x30FF, 0xFFFF] ∧ t.mapper.nextToken = 3) := by
  decide +kernel

/-- A token invoked a second time, and one never handed out (log entry 35). -/
theorem test_token_without_region :
    let s := shadowed.withRun .halted
    let t := (hostUnmap 1 s).2
    hostUnmap 1 t = (.ok (), t) ∧ hostUnmap 7 s = (.ok (), s) := by
  decide +kernel

/-- A load that fails part-way (log entry 34): in 0x200 bytes from 0x1FF the first byte stands and `ip`
is as it was. -/
theorem test_load_fails :
    let r := hostLoad 0x1FF [0xAA, 0xBB] (machine 0x200)
    r.2.byteAt 0x1FF = some 0xAA ∧ r.2.reg ipIdx = 0 ∧
    (match r.1 with
      | .ok _ => none
      | .error f => some f) = some (.unmappedAddress 0x200) := by
  decide +kernel

/-- One region on device 0. -/
def oneRegion (start last : Nat) (remap : Bool) : Mapper :=
  Mapper.empty.map { device := 0, start, last, remap }

/-- One RAM at a range of addresses. -/
def oneRam (size : Nat) (mem : Memory) (start last : Nat) (remap : Bool) : State :=
  hostCreate [.ram size mem] (oneRegion start last remap) Params.reference

/-- G6 to G10, G12: regions without translation and regions shorter or longer than their device. -/
theorem test_G_regions :
    let s := oneRam 0x4000 [] 0x2000 0x2FFF false
    let t := oneRam 0x200 [(0xFF, 0xAA), (0x100, 0xBB)] 0x4000 0x40FF true
    (hostWriteMem 0x2004 .w16 0xCAFE s).2.devices =
      [.ram 0x4000 [(0x2004, 0xCA), (0x2005, 0xFE)]] ∧
    answer (hostReadMem 0x2FFF .w16 s) = .ok 0 ∧
    answer (hostReadMem 0x1FFF .w8 s) = .error (.unmappedAddress 0x1FFF) ∧
    (hostReset s).reg spIdx = 0x2FFE ∧
    answer (hostReadMem 0x40FF .w16 t) = .ok 0xAABB ∧
    answer (hostReadMem 0x4100 .w8 t) = .error (.unmappedAddress 0x4100) ∧
    answer (hostReadMem 0x2000 .w8 (oneRam 0x100 [] 0x2000 0x20FF false)) =
      .error (.outOfRange 0x2000 1 0x100) := by
  decide +kernel

/-- Z1 to Z5 and G11: what reset gives. -/
theorem test_Z :
    hostReset State.reset = State.reset ∧
    State.reset.regs.toList = [0, 0, 0, 0, 0, 0, 0, 0, 0, 0, 0xFFFE, 0xFFFE] ∧
    (machine 0x200).reg spIdx = 0x01FE ∧ (machine 1).reg fpIdx = 0xFFFF ∧
    (hostCreate [] Mapper.empty Params.reference).reg spIdx = 0xFFFE ∧
    (hostCreate [.emptyRam 0x8000, .peripheral] ((oneRegion 0 0x7FFF true).map
      { device := 1, start := 0xC000, last := 0xC0FF, remap := true }) Params.reference).reg spIdx =
        0xC0FE ∧
    hostCreate [.emptyRam referenceMemSize] (Mapper.reference referenceMemSize) Params.reference =
      State.reset ∧
    (hostReset { State.reset with
      params := { Params.reference with ipReset := 0x400 } }).reg ipIdx = 0x400 := by
  decide +kernel

/-! ## Witnesses: states and operands that meet the hypotheses of the statements -/

/-- The state that a setting describes. -/
def Setting.state (e : Setting) : State := e.over (machine e.size)

/-- The contents of the first device. -/
def ramOf (s : State) : Memory :=
  match s.device 0 with
  | .ram _ mem => mem
  | .peripheral => []

/-- Bytes that stand at `ip` in one RAM region are code there. -/
theorem codeAt_of (s : State) (bs : List Byte) (r : Region) (size : Nat) (mem : Memory)
    (hd : s.device r.device = .ram size mem) (hl : (s.reg ipIdx).toNat + bs.length ≤ 65536)
    (h : ∀ k, k < bs.length → s.mapper.find ((s.reg ipIdx).toNat + k) = some r ∧
      r.localAddr ((s.reg ipIdx).toNat + k) < size ∧
      mem.read (r.localAddr ((s.reg ipIdx).toNat + k)) = bs[k]?.getD 0) : CodeAt s bs := by
  refine ⟨r, size, mem, hd, hl, fun k b hb => ?_⟩
  obtain ⟨hk, -⟩ := List.getElem?_eq_some_iff.mp hb
  simpa [hb] using h k hk

/-- The one region of the reference configuration with a memory of `size` bytes. -/
def wholeRam (size : Nat) : Region := { device := 0, start := 0, last := size - 1, remap := true }

/-- One full RAM, as at reset, with the stack words pushed so far anything. -/
theorem flatRam_of (s : State) (hm : s.mapper = State.reset.mapper)
    (hd : s.devices[0]? = some (.ram 0x10000 (ramOf s))) : s.FlatRam :=
  ⟨0, ramOf s, by rw [hm]; decide +kernel, hd⟩

theorem test_witness_DecodeInvertsEncode :
    OpcodeMap.reference.wf ∧ (Instr.movLitOffReg 0xFFFF 11 11).wellFormed = true := by
  decide +kernel

theorem test_witness_DecodedInstructionIsWellFormed :
    decodeWith OpcodeMap.reference [0x18, 0xFF, 0x00] = .ok (.pshReg 3, [0x00]) := by
  decide +kernel

/-- A computation answers. -/
def succeeds {α : Type} : EStateM.Result Fault State α → Bool
  | .ok _ _ => true
  | .error _ _ => false

theorem exists_ok {α : Type} {r : EStateM.Result Fault State α} (h : succeeds r = true) :
    ∃ a t, r = .ok a t := by
  cases r with
  | ok a t => exact ⟨a, t, rfl⟩
  | error f t => exact nomatch h

theorem exists_error {α : Type} {r : EStateM.Result Fault State α} (h : succeeds r = false) :
    ∃ f t, r = .error f t := by
  cases r with
  | ok a t => exact nomatch h
  | error f t => exact ⟨f, t, rfl⟩

/-- A computation that answers a given value, and the state it leaves. -/
def leaves {α : Type} [DecidableEq α] (a : α) : EStateM.Result Fault State α → Option State
  | .ok b t => if b = a then some t else none
  | .error _ _ => none

theorem eq_of_leaves {α : Type} [DecidableEq α] {a : α} {r : EStateM.Result Fault State α} {t : State}
    (h : leaves a r = some t) : r = .ok a t := by
  cases r with
  | ok b u =>
    simp only [leaves, Option.ite_none_right_eq_some, Option.some.injEq] at h
    rw [h.1, h.2]
  | error f u => exact nomatch h

/-- The state after the fetch of operands from given bytes, each by an access of its own. -/
def fetched : List OperandKind → List Byte → State → Option State
  | [], [], s => some s
  | [], _ :: _, _ => none
  | k :: ks, bs, s =>
    match operandAccess k, bs with
    | .w8, b :: rest =>
      (leaves (b.setWidth 16) (memRead (s.reg ipIdx).toNat .w8 s)).bind fun t =>
        fetched ks rest (t.setReg ipIdx (s.reg ipIdx + 1))
    | .w16, hi :: lo :: rest =>
      (leaves (hi ++ lo) (memRead (s.reg ipIdx).toNat .w16 s)).bind fun t =>
        fetched ks rest (t.setReg ipIdx (s.reg ipIdx + 2))
    | .w8, [] => none
    | .w16, [] => none
    | .w16, [_] => none

theorem fetchedBytes_of {ks : List OperandKind} {bs : List Byte} {s u : State}
    (h : fetched ks bs s = some u) : FetchedBytes ks bs s u := by
  induction ks generalizing bs s with
  | nil =>
    cases bs with
    | nil => exact ⟨rfl, (Option.some.inj h).symm⟩
    | cons b bs => exact nomatch h
  | cons k ks ih =>
    unfold fetched at h
    unfold FetchedBytes
    cases hk : operandAccess k <;> rcases bs with _ | ⟨b, _ | ⟨c, bs⟩⟩ <;> rw [hk] at h <;>
      simp only [Option.bind_eq_some_iff, reduceCtorEq] at h ⊢ <;>
      first
      | obtain ⟨t, h1, h2⟩ := h
        exact ⟨t, eq_of_leaves h1, ih h2⟩

/-- An opcode byte is fetched, and then the operands of the kinds. -/
def fetchedCode (ks : List OperandKind) (b : Byte) (bs : List Byte) (s : State) : Option State :=
  (leaves (b.setWidth 16) (memRead (s.reg ipIdx).toNat .w8 s)).bind fun t =>
    fetched ks bs (t.setReg ipIdx (s.reg ipIdx + 1))

theorem fetchedCode_of {ks : List OperandKind} {b : Byte} {bs : List Byte} {s : State}
    {p : State → Bool} (h : (fetchedCode ks b bs s).any p = true) :
    ∃ t u, memRead (s.reg ipIdx).toNat .w8 s = .ok (b.setWidth 16) t ∧
      FetchedBytes ks bs (t.setReg ipIdx (s.reg ipIdx + 1)) u ∧ p u = true := by
  obtain ⟨u, h1, hp⟩ := (Option.any_eq_true _ _).mp h
  obtain ⟨t, h2, h3⟩ := Option.bind_eq_some_iff.mp h1
  exact ⟨t, u, eq_of_leaves h2, fetchedBytes_of h3, hp⟩

/-- The first and the last byte of memory are code. -/
def firstAndLast (b : Byte) : State × State :=
  (({ mem := [(0, [b])] } : Setting).state,
    ({ regs := [(ipIdx, 0xFFFF)], mem := [(0xFFFF, [b])] } : Setting).state)

theorem test_witness_IllegalOpcodeByteFaults :
    ∃ s, s.run = .running ∧ s.reg ipIdx = 0xFFFF ∧ CodeAt s [0x01] ∧
      s.params.opcodeMap.lookup 0x01 = none :=
  ⟨(firstAndLast 0x01).2, by decide +kernel, by decide +kernel,
    codeAt_of _ _ (wholeRam 0x10000) 0x10000 (ramOf (firstAndLast 0x01).2) (by decide +kernel)
      (by decide +kernel) (by decide +kernel), by decide +kernel⟩

theorem test_witness_StepRunsDecodedInstruction :
    ∃ s bs i, s.run = .running ∧ (s.reg ipIdx).toNat + bs.length = 65536 ∧ CodeAt s bs ∧
      decodeWith s.params.opcodeMap bs = .ok (i, []) := by
  let s := ({ regs := [(ipIdx, 0xFFFC)],
              mem := [(0xFFFC, [0x10, 0x12, 0x34, 0x02])] } : Setting).state
  exact ⟨s, [0x10, 0x12, 0x34, 0x02], .movLitReg 0x1234 2, by decide +kernel, by decide +kernel,
    codeAt_of _ _ (wholeRam 0x10000) 0x10000 (ramOf s) (by decide +kernel) (by decide +kernel)
      (by decide +kernel), by decide +kernel⟩

/-- Two RAMs of 256 bytes at the two ends of the address space, or the upper one alone, with
`MOV_LIT_REG 0x1234, r1` from 0xFFFD on. -/
def twoEnds (both : Bool) : State :=
  let upper := Mapper.empty.map { device := 1, start := 0xFF00, last := 0xFFFF, remap := true }
  let mapper :=
    if both then upper.map { device := 0, start := 0, last := 0xFF, remap := true } else upper
  (hostCreate [.ram 0x100 [(0, 0x02)], .ram 0x100 [(0xFD, 0x10), (0xFE, 0x12), (0xFF, 0x34)]]
    mapper Params.reference).setReg ipIdx 0xFFFD

/-- An instruction whose bytes lie in two regions and pass 0xFFFF. -/
theorem test_witness_StepRunsDecodedInstruction_accesses :
    let s := twoEnds true
    s.run = .running ∧ s.params.opcodeMap.lookup 0x10 = some .movLitReg ∧
    decodeWith s.params.opcodeMap [0x10, 0x12, 0x34, 0x02] = .ok (.movLitReg 0x1234 2, []) ∧
    ∃ t u, memRead (s.reg ipIdx).toNat .w8 s = .ok ((0x10 : Byte).setWidth 16) t ∧
      FetchedBytes Opcode.movLitReg.schema [0x12, 0x34, 0x02] (t.setReg ipIdx (s.reg ipIdx + 1)) u ∧
      (u.reg ipIdx == 0x0001) = true :=
  ⟨by decide +kernel, by decide +kernel, by decide +kernel, fetchedCode_of (by decide +kernel)⟩

theorem test_witness_RunningStepAnswersNextState : State.reset.run = .running := rfl

theorem test_witness_HltHaltsAndStoppedCoreRefusesStep :
    (State.reset.withRun .halted).run = .halted ∧
    (State.reset.withRun (.faulted (.unmappedAddress 0))).run = .faulted (.unmappedAddress 0) :=
  ⟨rfl, rfl⟩

/-- Any device: the second operand, past 0xFFFF, where nothing is mapped; and the first, of 16 bits, at
the last address. -/
theorem test_witness_FetchFaultLeavesIpAtOperand_access :
    (twoEnds false).run = .running ∧
    (twoEnds false).params.opcodeMap.lookup 0x10 = some .movLitReg ∧
    Opcode.movLitReg.schema[1]? = some .reg ∧ Opcode.movLitReg.schema[0]? = some .lit16 ∧
    (let s := twoEnds false
     ∃ t u, memRead (s.reg ipIdx).toNat .w8 s = .ok ((0x10 : Byte).setWidth 16) t ∧
      FetchedBytes (Opcode.movLitReg.schema.take 1) [0x12, 0x34]
        (t.setReg ipIdx (s.reg ipIdx + 1)) u ∧
      (!succeeds (memRead (u.reg ipIdx).toNat (operandAccess .reg) u)) = true) ∧
    let s := ({ regs := [(ipIdx, 0xFFFE)], mem := [(0xFFFE, [0x10])] } : Setting).state
    ∃ t u, memRead (s.reg ipIdx).toNat .w8 s = .ok ((0x10 : Byte).setWidth 16) t ∧
      FetchedBytes (Opcode.movLitReg.schema.take 0) [] (t.setReg ipIdx (s.reg ipIdx + 1)) u ∧
      (!succeeds (memRead (u.reg ipIdx).toNat (operandAccess .lit16) u)) = true :=
  ⟨by decide +kernel, by decide +kernel, by decide +kernel, by decide +kernel,
    fetchedCode_of (p := fun u => !succeeds (memRead (u.reg ipIdx).toNat (operandAccess .reg) u))
      (by decide +kernel),
    fetchedCode_of (p := fun u => !succeeds (memRead (u.reg ipIdx).toNat (operandAccess .lit16) u))
      (by decide +kernel)⟩

/-- RAM written out: Y9, whose second operand is unmapped, and Y10, whose literal straddles the end. -/
theorem test_witness_FetchFaultLeavesIpAtOperand_ram :
    (let s := ({ size := 0x200, regs := [(ipIdx, 0x1FD)],
                 mem := [(0x1FD, [0x10, 0x12, 0x34])] } : Setting).state
     s.run = .running ∧ s.params.opcodeMap.wf ∧
      CodeAt s (s.params.opcodeMap.code .movLitReg :: [0x12, 0x34]) ∧
      Opcode.movLitReg.schema[1]? = some .reg ∧
      decodeOperands (Opcode.movLitReg.schema.take 1) [0x12, 0x34] = .ok ([0x1234], []) ∧
      s.accessFault (s.reg ipIdx + 1 + BitVec.ofNat 16 2).toNat (operandAccess .reg) =
        some (.unmappedAddress 0x200)) ∧
    let s := ({ size := 0x200, regs := [(ipIdx, 0x1FE)], mem := [(0x1FE, [0x10])] } : Setting).state
    CodeAt s (s.params.opcodeMap.code .movLitReg :: []) ∧
      decodeOperands (Opcode.movLitReg.schema.take 0) [] = .ok ([], []) ∧
      s.accessFault (s.reg ipIdx + 1 + BitVec.ofNat 16 0).toNat (operandAccess .lit16) =
        some (.outOfRange 0x1FF 2 0x200) := by
  refine ⟨⟨by decide +kernel, by decide +kernel, ?_, by decide +kernel, by decide +kernel,
    by decide +kernel⟩, ?_, by decide +kernel, by decide +kernel⟩
  · exact codeAt_of _ _ (wholeRam 0x200) 0x200 [(0x1FD, 0x10), (0x1FE, 0x12), (0x1FF, 0x34)]
      (by decide +kernel) (by decide +kernel) (by decide +kernel)
  · exact codeAt_of _ _ (wholeRam 0x200) 0x200 [(0x1FE, 0x10)]
      (by decide +kernel) (by decide +kernel) (by decide +kernel)

/-- The last byte of a device. -/
theorem test_witness_FetchFaultLeavesIpAtOperand_lastByte :
    (machine 0x200).resolve 0x1FF = some (0, 0x1FF) ∧
    (machine 0x200).device 0 = .ram 0x200 [] ∧ 0x1FF + 1 = 0x200 := by
  decide +kernel

/-- No region, and a region whose device does not reach the address. -/
theorem test_witness_UnmappedOpcodeFetchChangesNothing :
    let s := ({ size := 0x200, regs := [(ipIdx, 0x200)] } : Setting).state
    let t := (oneRam 0x100 [] 0x2000 0x20FF false).setReg ipIdx 0x2000
    (s.run = .running ∧ s.mapper.find (s.reg ipIdx).toNat = none) ∧
    t.run = .running ∧ ∃ f u, memRead (t.reg ipIdx).toNat .w8 t = .error f u :=
  ⟨by decide +kernel, by decide +kernel, exists_error (by decide +kernel)⟩

theorem test_witness_RegisterByteIsReducedModulo12 :
    (∃ s t, fetch8 s = .ok 0xFF t) ∧
    ∃ s f t, fetch8 s = .error f t :=
  ⟨⟨(firstAndLast 0xFF).1, _, rfl⟩, ⟨(machine 0).setReg ipIdx 0, _, _, rfl⟩⟩

theorem test_witness_RegisterFileValidatesIndex : 11 < 12 ∧ 12 ≤ 12 := by decide

theorem test_witness_NameAccessKnowsTwelveNames :
    registerNames[11]? = some "fp" ∧ "r9" ∉ registerNames := by
  decide +kernel

theorem test_witness_ResetSetsRegistersFromParameters :
    State.reset.params.initGpr[8]? = some 0 := by
  decide +kernel

theorem test_witness_ByteLengthIsHighestMappedPlusOne :
    (Mapper.mk [] 0).regions = [] ∧ shadowed.mapper.regions ≠ [] ∧
    ∀ r ∈ shadowed.mapper.regions, r.wf = true := by
  decide +kernel

theorem test_witness_FirstCoveringRegionWins :
    shadowed.mapper.find 0x30FF =
      some { device := 1, start := 0x3000, last := 0x30FF, remap := true } ∧
    ∀ x ∈ shadowed.mapper.regions, ¬ (x.start ≤ 0x10000 ∧ 0x10000 ≤ x.last) := by
  decide +kernel

theorem test_witness_TokenRemovesExactlyItsRegion :
    let s := shadowed.withRun .halted
    (s.run ≠ .running ∧ (∀ x ∈ s.mapper.mappings, x.token < s.mapper.nextToken)) ∧
    ((wholeRam 0x10000).start ≤ 0xFFFF ∧ 0xFFFF ≤ (wholeRam 0x10000).last) ∧
    shadowed.run = .running := by
  decide +kernel

/-- Inside at the last address that holds a word, outside at the next. -/
theorem test_witness_RamAccessTranslatesThenChecksBounds :
    State.reset.mapper.find 0xFFFE = some (wholeRam 0x10000) ∧
    State.reset.mapper.find 0xFFFF = some (wholeRam 0x10000) ∧
    State.reset.device (wholeRam 0x10000).device = .ram 0x10000 [] ∧
    0xFFFE + Width.w16.bytes ≤ 0x10000 ∧ 0x10000 < 0xFFFF + Width.w16.bytes := by
  decide +kernel

/-- The reference configuration with a peripheral in place of the RAM. -/
def withPeripheral : State := { State.reset with devices := [.peripheral] }

theorem test_witness_PeripheralAccessIsAnsweredOutside :
    withPeripheral.resolve 0xFFFF = some (0, 0xFFFF) ∧ withPeripheral.device 0 = .peripheral := by
  decide +kernel

theorem test_witness_WriteThenReadRoundTrip :
    ∃ t, memWrite 0xFFFE .w16 0x1234 State.reset = .ok () t ∧
      ∀ d a, State.reset.resolve 0xFFFE = some (d, a) → State.reset.device d ≠ .peripheral := by
  refine ⟨_, rfl, fun d a h => ?_⟩
  have h0 : State.reset.resolve 0xFFFE = some (0, 0xFFFE) := by decide +kernel
  obtain ⟨rfl, -⟩ := Prod.mk.inj (Option.some.inj (h0.symm.trans h))
  decide +kernel

/-- The last byte and the last word. -/
theorem test_witness_RamStoreIsBigEndian :
    State.reset.resolve 0xFFFF = some (0, 0xFFFF) ∧ State.reset.ramAccess 0xFFFF .w8 = true ∧
    State.reset.resolve 0xFFFE = some (0, 0xFFFE) ∧ State.reset.ramAccess 0xFFFE .w16 = true := by
  decide +kernel

/-- A device as long as its region and one byte longer. -/
theorem test_witness_WordAccessAtRegionEnd :
    let s := oneRam 0x100 [] 0x4000 0x40FF true
    let t := oneRam 0x101 [] 0x4000 0x40FF true
    let r : Region := { device := 0, start := 0x4000, last := 0x40FF, remap := true }
    s.mapper.find r.last = some r ∧ s.device r.device = .ram 0x100 [] ∧
    0x100 = r.last - r.start + 1 ∧
    t.mapper.find r.last = some r ∧ t.device r.device = .ram 0x101 [] ∧
    r.last - r.start + 1 < 0x101 := by
  decide +kernel

theorem test_witness_FlatRam : State.reset.FlatRam :=
  flatRam_of _ rfl (by decide +kernel)

/-- The operands, any two registers, the last and the first among them, and a map that separates the
opcodes, of the statements `AddWritesWrappedSumToAcc`, `SubWritesFirstMinusSecondToAcc`,
`MulWritesLowProductToAcc`, `LogicWritesBitwiseResultToAcc`, `IncDecWrapInPlace`,
`EqualityJumpsCompareWithAcc`, `LessAndNotLessJumpsAreUnsigned`,
`GreaterAndNotGreaterJumpsAreUnsigned` and `RegisterMovesCopyTheValue`; the map is also the witness of
the layouts that other statements name. -/
theorem test_witness_registers : 11 < 12 ∧ 0 < 12 ∧ OpcodeMap.reference.wf := by
  decide +kernel

/-- Counts of 16, as a literal and in a register. -/
theorem test_witness_ShiftsWriteBackToFirstRegister :
    16 ≤ (0x10 : Byte).toNat ∧ 16 ≤ (State.reset.setReg 11 16 |>.reg 11).toNat ∧ 11 < 12 := by
  decide +kernel

/-- The last word is an access, the word at 0xFFFF and one outside memory fault; a register form. -/
theorem test_witness_WordMovesStoreOrFault :
    State.reset.ramAccess (0xFFFE : Word).toNat .w16 = true ∧
    State.reset.accessFault (0xFFFF : Word).toNat .w16 = some (.outOfRange 0xFFFF 2 0x10000) ∧
    (machine 0x200).accessFault (0x200 : Word).toNat .w16 = some (.unmappedAddress 0x200) ∧
    (∃ t, memWrite (0xFFFE : Word).toNat .w16 1 State.reset = .ok () t) ∧
    (∃ f t, memWrite (0xFFFF : Word).toNat .w16 1 State.reset = .error f t) ∧
    ∃ r, r < 12 ∧ Instr.movRegMem 10 0xFFFE = .movRegMem r 0xFFFE ∧
      (0xFFFE : Word) = State.reset.reg r :=
  ⟨by decide +kernel, by decide +kernel, by decide +kernel, ⟨_, rfl⟩, ⟨_, _, rfl⟩,
    10, by decide, rfl, by decide +kernel⟩

/-- The byte at the last address, and a byte outside memory; a register form. -/
theorem test_witness_ByteMovesUseLowByteOrFault :
    State.reset.ramAccess (0xFFFF : Word).toNat .w8 = true ∧
    State.reset.byteAt (0xFFFF : Word).toNat = some 0 ∧
    (machine 0x200).accessFault (0x200 : Word).toNat .w8 = some (.unmappedAddress 0x200) ∧
    (∃ t, memWrite (0xFFFF : Word).toNat .w8 1 State.reset = .ok () t) ∧
    (∃ f t, memWrite (0x200 : Word).toNat .w8 1 (machine 0x200) = .error f t) ∧
    (∃ v t, memRead (0xFFFF : Word).toNat .w8 State.reset = .ok v t) ∧
    (∃ f t, memRead (0x200 : Word).toNat .w8 (machine 0x200) = .error f t) ∧
    ∃ r, r < 12 ∧ Instr.mov8RegMem 10 0xFFFF = .mov8RegMem r 0xFFFF ∧
      (0xFE : Byte) = (State.reset.reg r).setWidth 8 :=
  ⟨by decide +kernel, by decide +kernel, by decide +kernel, ⟨_, rfl⟩, ⟨_, _, rfl⟩, ⟨_, _, rfl⟩,
    ⟨_, _, rfl⟩, 10, by decide, rfl, by decide +kernel⟩

/-- The last word, the word at 0xFFFF, and both forms of the instruction. -/
theorem test_witness_LoadsReadTheAddressOrFault :
    (Instr.movMemReg 0xFFFE 11 = .movMemReg 0xFFFE 11) ∧
    (∃ p, p < 12 ∧ Instr.movRegPtrReg 10 11 = .movRegPtrReg p 11 ∧
      (0xFFFE : Word) = State.reset.reg p) ∧
    State.reset.readAt (0xFFFE : Word).toNat .w16 = some 0 ∧
    State.reset.accessFault (0xFFFF : Word).toNat .w16 = some (.outOfRange 0xFFFF 2 0x10000) ∧
    (∃ v t, memRead (0xFFFE : Word).toNat .w16 State.reset = .ok v t) ∧
    ∃ f t, memRead (0xFFFF : Word).toNat .w16 State.reset = .error f t :=
  ⟨rfl, ⟨10, by decide, rfl, by decide +kernel⟩, by decide +kernel, by decide +kernel,
    ⟨_, _, rfl⟩, ⟨_, _, rfl⟩⟩

/-- A sum of 0xFFFE, of 0xFFFF and of 0x10000. -/
theorem test_witness_OffsetLoadReadsUnwrappedSum :
    let s := State.reset.setReg 11 0xFFFE
    s.readAt ((0 : Word).toNat + (s.reg 11).toNat) .w16 = some 0 ∧
    s.accessFault ((1 : Word).toNat + (s.reg 11).toNat) .w16 =
      some (.outOfRange 0xFFFF 2 0x10000) ∧
    ((∀ r ∈ s.mapper.regions, r.wf = true) ∧ 0xFFFF < (2 : Word).toNat + (s.reg 11).toNat) ∧
    (∃ v t, memRead ((0 : Word).toNat + (s.reg 11).toNat) .w16 s = .ok v t) ∧
    ∃ f t, memRead ((1 : Word).toNat + (s.reg 11).toNat) .w16 s = .error f t :=
  ⟨by decide +kernel, by decide +kernel, by decide +kernel, ⟨_, _, rfl⟩, ⟨_, _, rfl⟩⟩

theorem test_witness_PushStoresThenMovesSp :
    let s := State.reset.setReg spIdx 0xFFFF
    State.reset.ramAccess (State.reset.reg spIdx).toNat .w16 = true ∧
    s.accessFault (s.reg spIdx).toNat .w16 = some (.outOfRange 0xFFFF 2 0x10000) ∧
    (∃ t, memWrite (State.reset.reg spIdx).toNat .w16 1 State.reset = .ok () t) ∧
    (∃ f t, memWrite (s.reg spIdx).toNat .w16 1 s = .error f t) ∧
    (Instr.pshReg 11 = .pshLit 0 ∨ ∃ r, r < 12 ∧ Instr.pshReg 11 = .pshReg r ∧
      State.reset.reg 11 = State.reset.reg r) :=
  ⟨by decide +kernel, by decide +kernel, ⟨_, rfl⟩, ⟨_, _, rfl⟩, .inr ⟨11, by decide, rfl, rfl⟩⟩

theorem test_witness_PopMovesSpThenReads :
    let s := State.reset.setReg spIdx 0xFFFD
    let m (s : State) := (s.setReg spIdx (s.reg spIdx + 2)).withCfb (s.cfb - 2)
    State.reset.readAt (State.reset.reg spIdx + 2).toNat .w16 = some 0 ∧
    s.accessFault (s.reg spIdx + 2).toNat .w16 = some (.outOfRange 0xFFFF 2 0x10000) ∧
    (∃ v t, memRead (State.reset.reg spIdx + 2).toNat .w16 (m State.reset) = .ok v t) ∧
    ∃ f t, memRead (s.reg spIdx + 2).toNat .w16 (m s) = .error f t :=
  ⟨by decide +kernel, by decide +kernel, ⟨_, _, rfl⟩, ⟨_, _, rfl⟩⟩

/-- A call that completes, and calls whose first, whose third and whose last push faults. -/
theorem test_witness_CallPushesTenWordsOrFaults :
    let pushes (s : State) (n : Nat) : Bool := (List.range n).all (fun k =>
      s.ramAccess (s.reg spIdx - BitVec.ofNat 16 (2 * k)).toNat .w16)
    let faults (s : State) (n : Nat) : Bool :=
      (s.accessFault (s.reg spIdx - BitVec.ofNat 16 (2 * n)).toNat .w16).isSome
    let at_ (sp : Word) : State := (machine 0x200).setReg spIdx sp
    pushes State.reset 10 = true ∧ faults (at_ 0x200) 0 = true ∧
    (pushes (at_ 0x0002) 2 = true ∧ faults (at_ 0x0002) 2 = true) ∧
    (pushes (at_ 0x0010) 9 = true ∧ faults (at_ 0x0010) 9 = true) := by
  decide +kernel

/-- The same of the pushes as the machine makes them. -/
theorem test_witness_CallPushesTenWordsOrFaults_anyDevice :
    let s := (machine 0x200).setReg spIdx 2
    (∃ u, pushWords State.reset.frameWords State.reset = .ok () u) ∧
    ∃ f u, pushWords s.frameWords s = .error f u := by
  obtain ⟨⟨⟩, h⟩ := exists_ok
    (show succeeds (pushWords State.reset.frameWords State.reset) = true by decide +kernel)
  exact ⟨h, exists_error (by decide +kernel)⟩

theorem test_witness_CallLeavesFrameInMemory :
    State.reset.FlatRam ∧
    (Instr.calReg 11 = .calLit 0xFFFE ∨ ∃ r, r < 12 ∧ Instr.calReg 11 = .calReg r ∧
      (0xFFFE : Word) = State.reset.reg r) ∧
    ∀ k, k < 10 → State.reset.reg spIdx - BitVec.ofNat 16 (2 * k) ≠ 0xFFFF :=
  ⟨test_witness_FlatRam, .inr ⟨11, by decide, rfl, by decide +kernel⟩, by decide +kernel⟩

/-- A frame at 0x8000 with two arguments. -/
def frame : State :=
  ({ regs := [(fpIdx, 0x8000)],
     mem := [(0x8002, [0x00, 0x1A, 0x30, 0x00]), (0x8016, [0x00, 0x02])] } : Setting).state

/-- The words of `frame` above `fp`. -/
def frameWord (k : Nat) : Word :=
  match k with
  | 0 => 0x1A
  | 1 => 0x3000
  | 10 => 2
  | _ => 0

theorem test_witness_ReturnPopsFrameAndArguments :
    (∀ k, k < 11 →
      frame.readAt (frame.reg fpIdx + BitVec.ofNat 16 (2 + 2 * k)).toNat .w16 = some (frameWord k)) ∧
    ∀ k, k < (frameWord 10).toNat →
      frame.ramAccess (frame.reg fpIdx + BitVec.ofNat 16 (24 + 2 * k)).toNat .w16 = true := by
  decide +kernel

/-- The pops of a return: the eleven of the frame, and then those of `m` arguments. -/
def framePops (m : Nat) : Exec (List Word × List Word) := do
  let ws ← popWords 11
  let args ← popWords m
  pure (ws, args)

theorem framePops_of {m : Nat} {s : State} {ws args : List Word} {p : State → Bool}
    (h : (leaves (ws, args) (framePops m (s.setReg spIdx (s.reg fpIdx)))).any p = true) :
    ∃ t u, popWords 11 (s.setReg spIdx (s.reg fpIdx)) = .ok ws t ∧ popWords m t = .ok args u ∧
      p u = true := by
  obtain ⟨u, h1, hp⟩ := (Option.any_eq_true _ _).mp h
  obtain ⟨ws', t, h2, h3⟩ := bind_eq_ok (eq_of_leaves h1)
  obtain ⟨args', v, h4, h5⟩ := bind_eq_ok h3
  obtain ⟨e, rfl⟩ := EStateM.Result.ok.inj h5
  obtain ⟨rfl, rfl⟩ := Prod.mk.inj e
  exact ⟨t, _, h2, h4, hp⟩

/-- The same frame, popped as the machine pops it. -/
theorem test_witness_ReturnPopsFrameAndArguments_anyDevice :
    ∃ t u, popWords 11 (frame.setReg spIdx (frame.reg fpIdx)) =
        .ok [0x1A, 0x3000, 0, 0, 0, 0, 0, 0, 0, 0, 2] t ∧
      popWords (2 : Word).toNat t = .ok [0, 0] u ∧ (u.reg spIdx == 0x801A) = true :=
  framePops_of (p := fun u => u.reg spIdx == 0x801A) (by decide +kernel)

/-- A frame in a memory of 0x200 bytes. -/
def smallFrame (fp : Word) (mem : List (Nat × List Byte)) : State :=
  ({ size := 0x200, regs := [(fpIdx, fp)], mem } : Setting).state

/-- The address of pop number `k` of a return. -/
def popAddr (s : State) (k : Nat) : Nat := (s.reg fpIdx + BitVec.ofNat 16 (2 + 2 * k)).toNat

/-- Returns whose first pop and whose last frame pop fault. -/
theorem test_witness_ReturnFaultKeepsEarlierPops_frame :
    (smallFrame 0x1FE []).accessFault (popAddr (smallFrame 0x1FE []) 0) .w16 =
      some (.unmappedAddress 0x200) ∧
    (∀ k, k < 10 →
      (smallFrame 0x1EA []).readAt (popAddr (smallFrame 0x1EA []) k) .w16 = some 0) ∧
    (smallFrame 0x1EA []).accessFault (popAddr (smallFrame 0x1EA []) 10) .w16 =
      some (.unmappedAddress 0x200) := by
  decide +kernel

/-- A return whose pop of the second of two arguments faults. -/
theorem test_witness_ReturnFaultKeepsEarlierPops_argument :
    let t := smallFrame 0x1E6 [(0x1FC, [0x00, 0x02])]
    (∀ k, k < 11 → t.readAt (popAddr t k) .w16 = some (if k = 10 then 2 else 0)) ∧
    (∀ k, k < 1 →
      t.ramAccess (t.reg fpIdx + BitVec.ofNat 16 (24 + 2 * k)).toNat .w16 = true) ∧
    t.accessFault (t.reg fpIdx + BitVec.ofNat 16 (24 + 2 * 1)).toNat .w16 =
      some (.unmappedAddress 0x200) := by
  decide +kernel

/-- The same pops as the machine makes them: the first, the last of the frame, and that of the second
argument. -/
theorem test_witness_ReturnFaultKeepsEarlierPops_anyDevice :
    (let s := smallFrame 0x1FE []
     popWords 0 (s.setReg spIdx (s.reg fpIdx)) = .ok [] (s.setReg spIdx (s.reg fpIdx)) ∧
      ∃ f v, pop (s.setReg spIdx (s.reg fpIdx)) = .error f v) ∧
    (let s := smallFrame 0x1EA []
     ∃ u, popWords 10 (s.setReg spIdx (s.reg fpIdx)) = .ok [0, 0, 0, 0, 0, 0, 0, 0, 0, 0] u ∧
      ∃ f v, pop u = .error f v) ∧
    let s := smallFrame 0x1E6 [(0x1FC, [0x00, 0x02])]
    [(0 : Word), 0, 0, 0, 0, 0, 0, 0, 0, 2][9]? = some 2 ∧ 1 < (2 : Word).toNat ∧
      ∃ t u, popWords 11 (s.setReg spIdx (s.reg fpIdx)) = .ok [0, 0, 0, 0, 0, 0, 0, 0, 0, 0, 2] t ∧
        popWords 1 t = .ok [0] u ∧ (!succeeds (pop u)) = true := by
  refine ⟨⟨rfl, exists_error (by decide +kernel)⟩, ?_, by decide, by decide,
    framePops_of (p := fun u => !succeeds (pop u)) (by decide +kernel)⟩
  have h : (leaves [0, 0, 0, 0, 0, 0, 0, 0, 0, 0] (popWords 10
      ((smallFrame 0x1EA []).setReg spIdx ((smallFrame 0x1EA []).reg fpIdx)))).any
        (fun u => !succeeds (pop u)) = true := by decide +kernel
  obtain ⟨u, h1, h2⟩ := (Option.any_eq_true _ _).mp h
  exact ⟨u, eq_of_leaves h1, exists_error (by simpa using h2)⟩

/-- An outcome is a next state. -/
def answers : Result → Bool
  | .next _ => true
  | .fault _ => false
  | .refused _ => false

/-- The next state of an outcome, or a given state. -/
def nextOr (d : State) : Result → State
  | .next t => t
  | .fault _ => d
  | .refused _ => d

theorem eq_next {r : Result} (d : State) (h : answers r = true) : r = .next (nextOr d r) := by
  cases r
  · rfl
  · cases h
  · cases h

theorem exists_next {r : Result} (h : answers r = true) : ∃ t, r = .next t :=
  ⟨_, eq_next State.reset h⟩

/-- A caller that has pushed one argument and the count. -/
def caller : State :=
  ({ regs := [(spIdx, 0xFFFA)], cfb := 4, mem := [(0xFFFC, [0x00, 0x01])] } : Setting).state

/-- The callee may be one that returns at once: the state after the call is one full RAM too. -/
theorem test_witness_CallEpisodeRestoresCaller :
    caller.FlatRam ∧ (0xFFFE : Word).toNat % 2 = 0 ∧ caller.reg spIdx = 0xFFFE - 2 * 1 - 2 ∧
      caller.cfb = 0 + 2 * 1 + 2 ∧ caller.readAt ((0xFFFE : Word) - 2 * 1).toNat .w16 = some 1 ∧
      ∃ c, exec (.calLit 0x3000) caller = .next c ∧ c.FlatRam :=
  ⟨flatRam_of _ (by decide +kernel) (by decide +kernel), by decide, by decide +kernel,
    by decide +kernel, by decide +kernel, _, eq_next caller (by decide +kernel),
    flatRam_of _ (by decide +kernel) (by decide +kernel)⟩

theorem test_witness_PushesThenPopsRestoreRegisters :
    State.reset.FlatRam ∧ (State.reset.reg spIdx).toNat % 2 = 0 ∧
    [1, 2, 9, fpIdx].length ≤ 32768 ∧
    ∀ r ∈ [1, 2, 9, fpIdx], r < 12 ∧ r ≠ spIdx ∧ r ≠ ipIdx :=
  ⟨test_witness_FlatRam, by decide +kernel, by decide, by decide⟩

theorem test_witness_StackWrapIsNotDetected :
    (State.reset.setReg spIdx 0).FlatRam ∧ (State.reset.setReg spIdx 0).reg spIdx = 0 ∧
    let s := (machine 0x200).setReg spIdx 0
    s.mapper.regions = [{ device := 0, start := 0, last := 0x1FF, remap := true }] ∧
    s.device 0 = .ram 0x200 [] ∧ s.reg spIdx = 0 :=
  ⟨flatRam_of _ rfl (by decide +kernel), by decide +kernel, by decide +kernel⟩

theorem test_witness_NopChangesNothing :
    ∃ s, s.run = .running ∧ s.params.opcodeMap.wf ∧ s.reg ipIdx = 0xFFFF ∧
      CodeAt s [s.params.opcodeMap.code .nop] :=
  ⟨(firstAndLast 0x00).2, by decide +kernel, by decide +kernel, by decide +kernel,
    codeAt_of _ _ (wholeRam 0x10000) 0x10000 (ramOf (firstAndLast 0x00).2) (by decide +kernel)
      (by decide +kernel) (by decide +kernel)⟩

/-! The frames and invariants: instructions that answer a next state -/

theorem test_witness_OtherRegistersAreUnchanged :
    ∃ t, exec (.pop 2) State.reset = .next t ∧ fpIdx ∉ mayWrite (.pop 2) :=
  ⟨_, rfl, by decide⟩

theorem test_witness_OnlyStackInstructionsMoveCfb :
    ∃ t, movesCfb (.movLitMem 1 0xFFFF) = false ∧
      exec (.movLitMem 1 0xFFFF) State.reset = .next t :=
  ⟨_, rfl, rfl⟩

theorem test_witness_NonStoringInstructionsLeaveMemory :
    ∃ t, storesToMemory (.pop 2) = false ∧ exec (.pop 2) State.reset = .next t :=
  ⟨_, rfl, rfl⟩

theorem test_witness_StoresChangeOnlyTheirBytes :
    (∃ t, exec (.movRegMem 10 0xFFFE) State.reset = .next t) ∧
    (∃ t, exec (.movLitMem 1 0xFFFE) State.reset = .next t) ∧
    (∃ t, exec (.mov8LitMem 1 0xFFFF) State.reset = .next t) ∧
    (∃ t, exec (.mov8RegMem 10 0xFFFF) State.reset = .next t) ∧
    (∃ t, exec (.pshLit 1) State.reset = .next t) ∧
    ∃ t, exec (.pshReg 10) State.reset = .next t :=
  ⟨exists_next (by decide +kernel), exists_next (by decide +kernel), exists_next (by decide +kernel),
    exists_next (by decide +kernel), exists_next (by decide +kernel), exists_next (by decide +kernel)⟩

theorem test_witness_CallsChangeOnlyTheFrameBytes :
    (∃ t, exec (.calLit 0x3000) State.reset = .next t) ∧
    ∃ t, exec (.calReg 10) State.reset = .next t :=
  ⟨exists_next (by decide +kernel), exists_next (by decide +kernel)⟩

theorem test_witness_StepKeepsStateWellFormed :
    (machine 0x200).Wf ∧ ∃ t, step (machine 0x200) = .next t :=
  ⟨⟨by decide +kernel, by decide +kernel, by decide +kernel, by decide +kernel⟩, _, rfl⟩

theorem test_witness_RamOnlyMachineRaisesNoDeviceFault :
    State.reset.ramOnly ∧ State.reset.run = .running ∧ ∃ t, step State.reset = .next t :=
  ⟨fun d hd => by simp [State.reset, Device.emptyRam] at hd; simp [hd], rfl, _, rfl⟩

/-- Also the witness of `StepKeepsConfiguration` and of `StepNeverRaisesRegisterFaults`. -/
theorem test_witness_RunRepeatsStepUntilStopped :
    State.reset.run = .running ∧ (State.reset.withRun .halted).run ≠ .running ∧
    ∃ t, step State.reset = .next t :=
  ⟨rfl, nofun, _, rfl⟩

theorem test_witness_FailedHostAccessChangesNothing :
    (hostReadMem 0x10000 .w8 State.reset).1 = .error (.unmappedAddress 0x10000) ∧
    (hostWriteMem 0xFFFF .w16 1 State.reset).1 = .error (.outOfRange 0xFFFF 2 0x10000) := by
  decide +kernel

/-- An image that ends at the last address. -/
theorem test_witness_LoadedImageStandsAtIp :
    State.reset.FlatRam ∧ (0xFFFE : Word).toNat + [(0x1A : Byte), 0x02].length ≤ 65536 :=
  ⟨test_witness_FlatRam, by decide⟩

end Sys2Proof.Tests
end

section
/-! The state (10_state): the register file as the host reaches it, what reset leaves, and two frames
over every instruction, `cfb` and the configuration. -/

namespace Sys2Proof.Machine

/-! ## The configuration -/

/-- New contents of a RAM leave the kinds and lengths of the devices (20_memory R31). A place with no
device reads as a RAM too (log entry 9), and there the write is none. -/
theorem State.shapes_setRam {s : State} {d n : Nat} {m : Memory} (h : s.device d = .ram n m)
    (mem : Memory) :
    (s.setRam d n mem).devices.map Device.shape = s.devices.map Device.shape := by
  rw [State.setRam_devices, List.map_set]
  by_cases hd : d < s.devices.length
  · have hs : s.devices[d] = .ram n m := by
      simpa only [State.device, List.getElem?_eq_getElem hd, Option.getD_some] using h
    have hshape : Device.shape (.ram n mem) = (s.devices.map Device.shape)[d]'(by simpa using hd) := by
      rw [List.getElem_map, hs]
      rfl
    rw [hshape, List.set_getElem_self]
  · exact List.set_eq_of_length_le (by simpa using hd)

/-- Only a store looks at the devices, and it keeps their shapes; the other updates do not touch the
configuration. -/
theorem sameConfig_updates : Updates SameConfig where
  refl _ := ⟨rfl, rfl, rfl⟩
  trans _ _ _ h₁ h₂ :=
    ⟨h₂.mapper.trans h₁.mapper, h₂.params.trans h₁.params, h₂.shapes.trans h₁.shapes⟩
  setReg _ _ _ := ⟨rfl, rfl, rfl⟩
  withCfb _ _ := ⟨rfl, rfl, rfl⟩
  withRun _ _ := ⟨rfl, rfl, rfl⟩
  countAccess _ := ⟨rfl, rfl, rfl⟩
  logEvent _ _ := ⟨rfl, rfl, rfl⟩
  setRam _ _ _ _ _ _ _ hd _ := ⟨rfl, rfl, State.shapes_setRam hd _⟩

/-- Settles O55: every update of a state keeps the configuration, so the step does. -/
theorem stepKeepsConfiguration : Obligations.StepKeepsConfiguration :=
  fun _ _ h => Keeps.step sameConfig_updates h

/-! ## What the operations that meanings share keep

For a relation that some update breaks, `cfb` here: each operation keeps what its own parts keep. -/

namespace Keeps

variable {R : State → State → Prop} (c : Chain R)
include c

theorem regRead_of_chain (i : Nat) : Keeps R (Machine.regRead i) := by
  intro s t
  unfold Machine.regRead
  split <;> constructor <;> intro _ h <;> cases h <;> exact c.refl s

theorem finish_of_takeFault (hf : ∀ f s, R s (takeFault f s)) {m : Exec Unit} (hm : Keeps R m)
    {s t : State} (h : Machine.finish m s = .next t) : R s t := by
  rcases finish_cases m s with ⟨u, hu, e⟩ | ⟨f, u, hu, e⟩ <;> rw [e] at h <;> cases h
  · exact (hm s t).1 () hu
  · exact c.trans _ _ _ ((hm s u).2 f hu) (hf f u)

theorem moveTo {d : Nat} {x : Exec Word} (hx : Keeps R x)
    (hw : ∀ v, Keeps R (Machine.regWrite d v)) : Keeps R (Machine.moveTo d x) :=
  .bind c hx hw

theorem moveToMem {addr : Nat} {w : Width} {x : Exec Word} (hx : Keeps R x)
    (hw : ∀ v, Keeps R (Machine.memWrite addr w v)) : Keeps R (Machine.moveToMem addr w x) :=
  .bind c hx hw

theorem binaryToAcc {f : Word → Word → Word} {x y : Exec Word} (hx : Keeps R x) (hy : Keeps R y)
    (hw : ∀ v, Keeps R (Machine.regWrite accIdx v)) : Keeps R (Machine.binaryToAcc f x y) :=
  .bind c hx fun _ => .bind c hy fun _ => hw _

theorem shiftInPlace {f : Word → Nat → Word} {r : Nat} {n : Exec Nat} (hn : Keeps R n)
    (hw : ∀ v, Keeps R (Machine.regWrite r v)) : Keeps R (Machine.shiftInPlace f r n) :=
  .bind c (regRead_of_chain c r) fun _ => .bind c hn fun _ => hw _

theorem updateReg {f : Word → Word} {r : Nat} (hw : ∀ v, Keeps R (Machine.regWrite r v)) :
    Keeps R (Machine.updateReg r f) :=
  .bind c (regRead_of_chain c r) fun _ => hw _

theorem jumpIf_of_regWrite {rel : Relation} {x : Exec Word} {target : Word} (hx : Keeps R x)
    (hw : Keeps R (Machine.regWrite ipIdx target)) : Keeps R (Machine.jumpIf rel x target) :=
  .bind c hx fun _ => .bind c (regRead_of_chain c accIdx) fun _ => by
    split
    · exact hw
    · exact .pure c ()

end Keeps

/-! ## The frame of `cfb` (10_state R18) -/

/-- `cfb` is the same in both states. -/
def SameCfb (s t : State) : Prop := t.cfb = s.cfb

theorem sameCfb_chain : Chain SameCfb where
  refl _ := rfl
  trans _ _ _ h₁ h₂ := Eq.trans h₂ h₁

theorem regRead_keeps_cfb (i : Nat) : Keeps SameCfb (regRead i) :=
  .regRead_of_chain sameCfb_chain i

theorem regWrite_keeps_cfb (i : Nat) (v : Word) : Keeps SameCfb (regWrite i v) := by
  intro s t
  unfold regWrite
  split <;> constructor <;> intro _ h <;> cases h <;> rfl

theorem setRun_keeps_cfb (v : RunState) : Keeps SameCfb (setRun v) := by
  intro s t
  constructor <;> intro _ h <;> cases h
  rfl

theorem memRead_keeps_cfb (addr : Nat) (w : Width) : Keeps SameCfb (memRead addr w) := by
  intro s t
  constructor <;> intro _ h
  · obtain ⟨-, hcfb, -⟩ := memRead_ok_keeps h
    exact hcfb
  · obtain ⟨-, hcfb, -⟩ := memRead_error_keeps h
    exact hcfb

theorem memWrite_keeps_cfb (addr : Nat) (w : Width) (v : Word) :
    Keeps SameCfb (memWrite addr w v) := by
  intro s t
  constructor <;> intro _ h
  · obtain ⟨-, hcfb, -⟩ := memWrite_ok_keeps h
    exact hcfb
  · rcases memWrite_error_cases h with ⟨rfl, -⟩ | ⟨_, _, _, _, rfl, -⟩ | ⟨_, _, rfl, -⟩ <;> rfl

theorem finish_keeps_cfb {m : Exec Unit} (hm : Keeps SameCfb m) {s t : State}
    (h : finish m s = .next t) : t.cfb = s.cfb :=
  Keeps.finish_of_takeFault sameCfb_chain (fun _ _ => rfl) hm h

/-- Settles O49, by family: outside the stack a meaning is made of reads and writes of registers and
memory, and none of these moves `cfb`. -/
theorem onlyStackInstructionsMoveCfb : Obligations.OnlyStackInstructionsMoveCfb := by
  intro i s t hi h
  have c := sameCfb_chain
  have pureK {α : Type} (a : α) : Keeps SameCfb (pure a : Exec α) := .pure c a
  have readK := regRead_keeps_cfb
  have writeK := regWrite_keeps_cfb
  have loadK := memRead_keeps_cfb
  have storeK := memWrite_keeps_cfb
  cases i with
  | pshLit | pshReg | pop | calLit | calReg | ret => exact nomatch hi
  | nop => exact finish_keeps_cfb (pureK ()) h
  | hlt => exact finish_keeps_cfb (setRun_keeps_cfb _) h
  | movLitReg => exact finish_keeps_cfb (.moveTo c (pureK _) (writeK _)) h
  | movRegReg => exact finish_keeps_cfb (.moveTo c (readK _) (writeK _)) h
  | movMemReg | mov8MemReg => exact finish_keeps_cfb (.moveTo c (loadK _ _) (writeK _)) h
  | movRegPtrReg | movLitOffReg =>
    exact finish_keeps_cfb (.moveTo c (.bind c (readK _) fun _ => loadK _ _) (writeK _)) h
  | movRegMem => exact finish_keeps_cfb (.moveToMem c (readK _) (storeK _ _)) h
  | movLitMem | mov8LitMem => exact finish_keeps_cfb (.moveToMem c (pureK _) (storeK _ _)) h
  | mov8RegMem =>
    exact finish_keeps_cfb (.moveToMem c (.bind c (readK _) fun _ => pureK _) (storeK _ _)) h
  | addRegReg | subRegReg | mulRegReg | andRegReg | orRegReg | xorRegReg =>
    exact finish_keeps_cfb (.binaryToAcc c (readK _) (readK _) (writeK _)) h
  | addLitReg | subLitReg | mulLitReg =>
    exact finish_keeps_cfb (.binaryToAcc c (pureK _) (readK _) (writeK _)) h
  | subRegLit | andRegLit | orRegLit | xorRegLit =>
    exact finish_keeps_cfb (.binaryToAcc c (readK _) (pureK _) (writeK _)) h
  | notReg => exact finish_keeps_cfb (.bind c (readK _) fun _ => writeK _ _) h
  | lshRegLit | rshRegLit => exact finish_keeps_cfb (.shiftInPlace c (pureK _) (writeK _)) h
  | lshRegReg | rshRegReg =>
    exact finish_keeps_cfb
      (.shiftInPlace c (.bind c (readK _) fun _ => pureK _) (writeK _)) h
  | incReg | decReg => exact finish_keeps_cfb (.updateReg c (writeK _)) h
  | jmpNotEq | jeqLit | jltLit | jgtLit | jleLit | jgeLit =>
    exact finish_keeps_cfb (.jumpIf_of_regWrite c (pureK _) (writeK _ _)) h
  | jeqReg | jneReg | jltReg | jgtReg | jleReg | jgeReg =>
    exact finish_keeps_cfb (.jumpIf_of_regWrite c (readK _) (writeK _ _)) h

/-! ## The host's access to the registers (10_state R10, R11) -/

theorem hostAccess_ok {α : Type} {m : Exec α} {s t : State} {a : α} (h : m s = .ok a t) :
    hostAccess m s = (.ok a, t) := by
  rw [hostAccess, h]

theorem hostAccess_error {α : Type} {m : Exec α} {s t : State} {f : Fault}
    (h : m s = .error f t) : hostAccess m s = (.error f, t) := by
  rw [hostAccess, h]

/-- Settles O12: the two sides of the register file's index check. -/
theorem registerFileValidatesIndex : Obligations.RegisterFileValidatesIndex := by
  intro s i v
  refine ⟨fun hi => ⟨hostAccess_ok (regRead_ok hi s), s.setReg i (trunc16 v),
    hostAccess_ok (regWrite_ok hi _ s), ?_, ?_, rfl⟩, fun hi => ?_⟩
  · rw [State.reg_setReg_self s i _ hi, toNat_trunc16]
  · exact fun j hj => State.reg_setReg_ne s i j _ hj.symm
  · have hi' : ¬ i < 12 := by omega
    exact ⟨hostAccess_error (regRead_invalid hi' s), hostAccess_error (regWrite_invalid hi' _ s)⟩

theorem registerNames_nodup : registerNames.Nodup := by decide

/-- No two registers share a name, so a name's index is its place in the listing (D4). -/
theorem registerIndex_of_getElem? {name : String} {i : Nat} (h : registerNames[i]? = some name) :
    registerIndex name = some i := by
  obtain ⟨hi, rfl⟩ := List.getElem?_eq_some_iff.mp h
  rw [registerIndex, List.findIdx?_eq_some_iff_getElem]
  refine ⟨hi, beq_self_eq_true _, fun j hj e => ?_⟩
  have : j = i := (registerNames_nodup.getElem_inj_iff).mp (eq_of_beq e)
  omega

theorem registerIndex_of_notMem {name : String} (h : name ∉ registerNames) :
    registerIndex name = none := by
  rw [registerIndex, List.findIdx?_eq_none_iff]
  exact fun n hn => beq_false_of_ne fun e => h (e ▸ hn)

theorem regByName_ok {name : String} {i : Nat} (h : registerIndex name = some i) :
    regByName name = pure i := by
  rw [regByName, h]

theorem regByName_unknown {name : String} (h : registerIndex name = none) :
    regByName name = raise (.unknownRegisterName name) := by
  rw [regByName, h]

/-- Settles O13: by-name access is the lookup of the index and then the access by index. -/
theorem nameAccessKnowsTwelveNames : Obligations.NameAccessKnowsTwelveNames := by
  intro s name v
  constructor
  · intro i hi
    have hn := regByName_ok (registerIndex_of_getElem? hi)
    simp only [hostReadRegByName, hostWriteRegByName, hn, pure_bind, hostReadReg, hostWriteReg,
      and_self]
  · intro hname
    have hn : regByName name s = .error (.unknownRegisterName name) s := by
      rw [regByName_unknown (registerIndex_of_notMem hname), raise_apply]
    exact ⟨hostAccess_error (bind_error hn), hostAccess_error (bind_error hn)⟩

/-! ## The state after reset (10_state R26) -/

/-- Every address of the reference map leads to the byte of that number of the one RAM. -/
theorem reset_resolve {addr : Nat} (h : addr < 65536) :
    State.reset.resolve addr = some (0, addr) := by
  have hcov : addr ≤ 65535 := by omega
  simp [State.resolve, State.reset, Mapper.find, Mapper.regions, Mapper.reference, Mapper.map,
    Mapper.empty, referenceMemSize, Region.covers, Region.localAddr, hcov]

theorem reset_byteAt {addr : Nat} (h : addr < 65536) : State.reset.byteAt addr = some 0 := by
  have hd : State.reset.device 0 = .ram 0x10000 [] := rfl
  simp only [State.byteAt, reset_resolve h, State.deviceByte, hd, h, if_true]
  rfl

theorem reset_flatRam : State.reset.FlatRam := ⟨0, [], rfl, rfl⟩

/-- Settles O15: the registers are literals of the reference parameters, memory is one empty RAM. -/
theorem referenceResetState : Obligations.ReferenceResetState :=
  ⟨by decide, by decide, by decide, rfl, rfl, reset_flatRam, fun _ => reset_byteAt, rfl⟩

theorem opcodeMap_reference_wf : OpcodeMap.reference.wf := by decide

/-- Settles O54: the default map separates the opcodes, and the one region spans the one RAM. -/
theorem resetStateIsWellFormed : Obligations.ResetStateIsWellFormed where
  opcodeMap := opcodeMap_reference_wf
  devices := by decide
  regions := by decide
  tokens := by decide

end Sys2Proof.Machine
end

section
/-! Memory (20_memory): the region list and its byte length, what an access of a RAM and of a peripheral
does, which bytes an instruction changes, and the well-formed states, which every step keeps. -/

namespace Sys2Proof.Machine

/-! ## The region list (20_memory R35 to R37, R41) -/

theorem Region.covers_iff {r : Region} {addr : Nat} :
    r.covers addr = true ↔ r.start ≤ addr ∧ addr ≤ r.last := by
  simp only [Region.covers, Bool.and_eq_true, decide_eq_true_eq]

theorem Mapper.find_eq_some_iff {m : Mapper} {addr : Nat} {r : Region} :
    m.find addr = some r ↔ ∃ before after, m.regions = before ++ r :: after ∧
      (r.start ≤ addr ∧ addr ≤ r.last) ∧ ∀ x ∈ before, ¬ (x.start ≤ addr ∧ addr ≤ x.last) := by
  simp only [Mapper.find, List.find?_eq_some_iff_append, Bool.not_eq_true', ← Bool.not_eq_true,
    Region.covers_iff]
  constructor
  · rintro ⟨hr, before, after, hsplit, hbefore⟩
    exact ⟨before, after, hsplit, hr, hbefore⟩
  · rintro ⟨before, after, hsplit, hr, hbefore⟩
    exact ⟨hr, before, after, hsplit, hbefore⟩

theorem Mapper.find_eq_none_iff {m : Mapper} {addr : Nat} :
    m.find addr = none ↔ ∀ x ∈ m.regions, ¬ (x.start ≤ addr ∧ addr ≤ x.last) := by
  simp only [Mapper.find, List.find?_eq_none, Region.covers_iff]

theorem findRegion_some {s : State} {addr : Nat} {r : Region} (h : s.mapper.find addr = some r) :
    findRegion addr s = .ok r s := by
  simp only [findRegion, h]

theorem findRegion_none {s : State} {addr : Nat} (h : s.mapper.find addr = none) :
    findRegion addr s = .error (.unmappedAddress addr) s := by
  simp only [findRegion, h]

/-- Settles O17: the lookup is the search of the region list from its head. -/
theorem firstCoveringRegionWins : Obligations.FirstCoveringRegionWins :=
  fun _ _ => ⟨fun _ => Mapper.find_eq_some_iff, fun _ => findRegion_some,
    fun h => findRegion_none (Mapper.find_eq_none_iff.mpr h)⟩

/-- The byte length as the maximum of a list of ends, so that the library's facts about maxima apply. -/
theorem Mapper.byteLength_eq_foldr_max (m : Mapper) :
    m.byteLength = (m.regions.map (fun r => r.last + 1)).foldr max ⊥ := by
  simp only [Mapper.byteLength, List.foldr_map, bot_eq_zero]

theorem Mapper.last_lt_byteLength {m : Mapper} {r : Region} (h : r ∈ m.regions) :
    r.last + 1 ≤ m.byteLength := by
  rw [Mapper.byteLength_eq_foldr_max]
  exact List.le_max_of_le (List.mem_map_of_mem h) le_rfl

theorem Mapper.exists_byteLength_eq {m : Mapper} (h : m.regions ≠ []) :
    ∃ r ∈ m.regions, m.byteLength = r.last + 1 := by
  have hne : m.regions.map (fun r => r.last + 1) ≠ [] := by simpa using h
  have hmem := List.maximum_mem (List.foldr_max_of_ne_nil hne).symm
  obtain ⟨r, hr, he⟩ := List.mem_map.mp hmem
  exact ⟨r, hr, (Mapper.byteLength_eq_foldr_max m).trans he.symm⟩

theorem Mapper.byteLength_le {m : Mapper} (h : ∀ r ∈ m.regions, r.wf = true) :
    m.byteLength ≤ 0x10000 := by
  rw [Mapper.byteLength_eq_foldr_max]
  refine List.max_le_of_forall_le _ _ fun n hn => ?_
  obtain ⟨r, hr, rfl⟩ := List.mem_map.mp hn
  have hwf := h r hr
  simp only [Region.wf, Bool.and_eq_true, decide_eq_true_eq] at hwf
  omega

theorem hostReset_reg_sp (s : State) :
    (hostReset s).reg spIdx = BitVec.ofInt 16 ((s.mapper.byteLength : Int) - 2) := rfl

/-- Settles O16: the byte length bounds every region's end, and one of them reaches it. -/
theorem byteLengthIsHighestMappedPlusOne : Obligations.ByteLengthIsHighestMappedPlusOne := by
  refine ⟨fun m => ⟨fun h => ?_, fun _ => Mapper.last_lt_byteLength, Mapper.exists_byteLength_eq,
    Mapper.byteLength_le⟩, hostReset_reg_sp⟩
  rw [Mapper.byteLength, h, List.foldr_nil]

/-! ## Mapping and removing a region (20_memory R36, D26) -/

@[simp] theorem Mapper.map_regions (m : Mapper) (r : Region) : (m.map r).regions = r :: m.regions := rfl

@[simp] theorem Mapper.map_nextToken (m : Mapper) (r : Region) :
    (m.map r).nextToken = m.nextToken + 1 := rfl

/-- A region mapped now wins where it covers. -/
theorem Mapper.find_map_of_covers {m : Mapper} {r : Region} {addr : Nat}
    (h : r.covers addr = true) : (m.map r).find addr = some r := by
  rw [Mapper.find, Mapper.map_regions]
  exact List.find?_cons_of_pos h

/-- A token that no region of the list has removes nothing. -/
theorem Mapper.unmap_of_unused {m : Mapper} {token : Nat} (h : ∀ x ∈ m.mappings, x.token ≠ token) :
    m.unmap token = m := by
  have : m.mappings.filter (fun x => x.token != token) = m.mappings :=
    List.filter_eq_self.mpr fun x hx => bne_iff_ne.mpr (h x hx)
  rw [Mapper.unmap, this]

/-- A token removes the region mapped last where it is that region's, and leaves it where it is
another's. -/
theorem Mapper.regions_unmap_map (m : Mapper) (r : Region) (token : Nat) :
    ((m.map r).unmap token).regions =
      if m.nextToken = token then (m.unmap token).regions else r :: (m.unmap token).regions := by
  by_cases h : m.nextToken = token <;>
    simp [Mapper.regions, Mapper.unmap, Mapper.map, h]

theorem hostConfigure_of_not_running {α : Type} (act : Mapper → α × Mapper) {s : State}
    (h : s.run ≠ .running) :
    hostConfigure act s = (.ok (act s.mapper).1, { s with mapper := (act s.mapper).2 }) :=
  if_neg h

theorem hostConfigure_of_running {α : Type} (act : Mapper → α × Mapper) {s : State}
    (h : s.run = .running) : hostConfigure act s = (.error .duringRun, s) :=
  if_pos h

/-- Settles O18: outside a run by what a token removes from the region list, during one by the
refusal of every act on the list. -/
theorem tokenRemovesExactlyItsRegion : Obligations.TokenRemovesExactlyItsRegion := by
  constructor
  · intro s r q hrun htokens
    have hunused : s.mapper.unmap s.mapper.nextToken = s.mapper :=
      Mapper.unmap_of_unused fun x hx => (htokens x hx).ne
    have hremoved : ((s.mapper.map r).unmap s.mapper.nextToken).regions = s.mapper.regions := by
      rw [Mapper.regions_unmap_map, if_pos rfl, hunused]
    refine ⟨_, _, _, _, _, _, hostConfigure_of_not_running _ hrun,
      hostConfigure_of_not_running _ hrun, hostConfigure_of_not_running _ hrun,
      hostConfigure_of_not_running _ hrun, rfl, ?_, hremoved, ?_, rfl, rfl⟩
    · exact fun addr h1 h2 => Mapper.find_map_of_covers (Region.covers_iff.mpr ⟨h1, h2⟩)
    · have hother : (s.mapper.map r).nextToken ≠ s.mapper.nextToken := by simp
      calc (((s.mapper.map r).map q).unmap s.mapper.nextToken).regions
        _ = q :: ((s.mapper.map r).unmap s.mapper.nextToken).regions := by
          rw [Mapper.regions_unmap_map, if_neg hother]
        _ = q :: s.mapper.regions := by rw [hremoved]
  · exact fun s device start last token remap hrun =>
      ⟨hostConfigure_of_running _ hrun, hostConfigure_of_running _ hrun⟩

/-! ## An access of a RAM (20_memory R32 to R34, R38, R40) -/

theorem Width.bytes_pos (w : Width) : 0 < w.bytes := by
  cases w <;> decide

theorem State.resolve_of_find {s : State} {addr : Nat} {r : Region}
    (h : s.mapper.find addr = some r) : s.resolve addr = some (r.device, r.localAddr addr) := by
  rw [State.resolve, h, Option.map_some]

section

variable {s : State} {addr d a n : Nat} {w : Width} {mem : Memory}
  (hr : s.resolve addr = some (d, a)) (hd : s.device d = .ram n mem)
include hr hd

theorem State.readAt_inside (hb : a + w.bytes ≤ n) : s.readAt addr w = some (mem.get a w) := by
  simp only [State.readAt, hr, hd, hb, if_true]

theorem State.store_inside (hb : a + w.bytes ≤ n) (v : Word) :
    s.store addr w v = s.setRam d n (mem.set a v w) := by
  simp only [State.store, hr, hd, hb, if_true]

theorem State.accessFault_outside (hb : n < a + w.bytes) :
    s.accessFault addr w = some (.outOfRange a w.bytes n) := by
  simp only [State.accessFault, hr, hd, hb.not_ge, if_false]

end

theorem memRead_inside {s : State} {addr d a n : Nat} {w : Width} {mem : Memory}
    (hr : s.resolve addr = some (d, a)) (hd : s.device d = .ram n mem) (hb : a + w.bytes ≤ n) :
    memRead addr w s = .ok (mem.get a w) s :=
  memRead_ram (State.readAt_inside hr hd hb)

theorem memWrite_inside {s : State} {addr d a n : Nat} {w : Width} {mem : Memory}
    (hr : s.resolve addr = some (d, a)) (hd : s.device d = .ram n mem) (hb : a + w.bytes ≤ n)
    (v : Word) : memWrite addr w v s = .ok () (s.setRam d n (mem.set a v w)) := by
  rw [memWrite_ram v (State.readAt_inside hr hd hb), State.store_inside hr hd hb]

/-- Settles O19: the translated address, inside the device or outside. -/
theorem ramAccessTranslatesThenChecksBounds : Obligations.RamAccessTranslatesThenChecksBounds := by
  intro s addr w v r n mem hfind hd
  have hr := State.resolve_of_find hfind
  constructor
  · exact fun hb => ⟨memRead_inside hr hd hb, memWrite_inside hr hd hb v⟩
  · intro hb
    have hf := State.accessFault_outside hr hd hb
    exact ⟨memRead_of_accessFault hf, memWrite_of_accessFault v hf⟩

/-- The low bits of a value, as many as the width has, which is what the memory gives back. -/
theorem Memory.get_set_eq_ofNat (m : Memory) (a : Nat) (v : Word) (w : Width) :
    (m.set a v w).get a w = BitVec.ofNat 16 (v.toNat % 256 ^ w.bytes) := by
  rw [Memory.get_set]
  apply BitVec.eq_of_toNat_eq
  have := v.isLt
  cases w
  · simp only [toNat_zext16, toNat_lowByte, BitVec.toNat_ofNat, Width.bytes]
    omega
  · simp only [BitVec.toNat_ofNat, Width.bytes]
    omega

/-- Settles O21: the write went to RAM, and the read finds the same device with the stored contents. -/
theorem writeThenReadRoundTrip : Obligations.WriteThenReadRoundTrip := by
  intro s t addr w v hwrite hram
  rcases memWrite_ok_cases hwrite with ⟨d, a, n, mem, hr, hd, hb, rfl⟩ | ⟨d, a, hr, hd, -⟩
  · have hn : 0 < n := (Nat.add_pos_right a w.bytes_pos).trans_le hb
    have hdev : (s.setRam d n (mem.set a v w)).device d = .ram n (mem.set a v w) := by
      rw [State.device_setRam _ hd hn, if_pos rfl]
    rw [← Memory.get_set_eq_ofNat mem a v w]
    exact memRead_inside (by rwa [State.setRam_resolve]) hdev hb
  · exact absurd hd (hram d a hr)

theorem State.resolve_flatRam {s : State} {addr : Nat} (h : s.FlatRam) (ha : addr ≤ 0xFFFF) :
    ∃ d mem, s.resolve addr = some (d, addr) ∧ s.device d = .ram 0x10000 mem := by
  obtain ⟨d, mem, hregions, hd⟩ := h
  refine ⟨d, mem, ?_, by rw [State.device, hd, Option.getD_some]⟩
  simp [State.resolve, Mapper.find, hregions, Region.covers, Region.localAddr, ha]

/-- Settles O23: the one region found fixes the device, and the second byte is judged by that
device's length alone. -/
theorem wordAccessAtRegionEnd : Obligations.WordAccessAtRegionEnd := by
  constructor
  · intro s r n mem v hfind hd hremap
    have hr : s.resolve r.last = some (r.device, r.last - r.start) := by
      rw [State.resolve_of_find hfind, Region.localAddr, if_pos hremap]
    constructor
    · intro hn
      have hf : s.accessFault r.last .w16 = some (.outOfRange (n - 1) 2 n) := by
        have hlast : n - 1 = r.last - r.start := by omega
        rw [hlast]
        exact State.accessFault_outside hr hd (by simp only [Width.bytes]; omega)
      exact ⟨memRead_of_accessFault hf, memWrite_of_accessFault v hf⟩
    · intro hn
      rw [← joinBytes_eq_append]
      exact memRead_inside (w := .w16) hr hd (by simp only [Width.bytes]; omega)
  · intro s v hflat
    obtain ⟨d, mem, hr, hd⟩ := State.resolve_flatRam hflat (le_refl 0xFFFF)
    have hf := State.accessFault_outside (w := .w16) hr hd (by decide)
    exact ⟨memRead_of_accessFault hf, memWrite_of_accessFault v hf⟩

/-! ## An access of a peripheral (20_memory R54) -/

/-- A peripheral's answer is a value of the access's width. -/
theorem toNat_answerOf_lt (v : Word) (w : Width) : (answerOf v w).toNat < 256 ^ w.bytes := by
  cases w
  · rw [answerOf, toNat_zext16]
    exact (lowByte v).isLt
  · exact v.isLt

/-- Settles O20, by the two answers that the oracle has for each direction. -/
theorem peripheralAccessIsAnsweredOutside : Obligations.PeripheralAccessIsAnsweredOutside := by
  intro s addr w v d a hr hd
  constructor
  · simp only [memRead_apply, hr, deviceGet, hd]
    cases Config.peripheralRead s.accesses d a w.bytes with
    | some x => exact .inl ⟨_, rfl, toNat_answerOf_lt x w⟩
    | none => exact .inr rfl
  · simp only [memWrite_apply, hr, deviceSet, hd]
    cases Config.peripheralAccepts s.accesses d a w.bytes v with
    | true => exact .inl rfl
    | false => exact .inr rfl

/-! ## The bytes that a store changes (20_memory R33, R34, R42, R44) -/

/-- What every address reads follows from the region list and the devices' bytes. -/
theorem sameBytesBut_of_mapper {s t : State} {P : Nat → Nat → Prop} (hm : t.mapper = s.mapper)
    (h : ∀ d a, ¬ P d a → t.deviceByte d a = s.deviceByte d a) : SameBytesBut s t P := by
  refine ⟨h, fun addr ha => ?_⟩
  have hr : t.resolve addr = s.resolve addr := by rw [State.resolve, hm, State.resolve]
  rw [State.byteAt, State.byteAt, hr]
  cases e : s.resolve addr with
  | none => rfl
  | some p => exact h p.1 p.2 (ha p.1 p.2 e)

/-- A store changes no byte outside its access. -/
theorem State.sameBytesBut_store {s : State} {addr d a : Nat} {w : Width} {P : Nat → Nat → Prop}
    (v : Word) (hr : s.resolve addr = some (d, a)) (hram : s.ramAccess addr w = true)
    (hP : ∀ a', a ≤ a' → a' < a + w.bytes → P d a') : SameBytesBut s (s.store addr w v) P := by
  refine sameBytesBut_of_mapper (s.store_mapper addr w v) fun d' a' hn => ?_
  rw [State.deviceByte_store v hr hram, if_neg]
  rintro ⟨rfl, h1, h2⟩
  exact hn (hP a' h1 h2)

theorem State.store_eq_with_devices (s : State) (addr : Nat) (w : Width) (v : Word) :
    s.store addr w v = { s with devices := (s.store addr w v).devices } := by
  rcases s.store_cases addr w v with ⟨_, _, _, _, _, _, _, h⟩ | ⟨_, h⟩ <;> rw [h]
  rfl

/-- Settles O22: each byte of a device after the store, by the one law that gives them all. -/
theorem ramStoreIsBigEndian : Obligations.RamStoreIsBigEndian := by
  intro s addr d a v hr
  refine ⟨fun hram => ⟨memWrite_of_ramAccess v hram, ?_, ?_⟩,
    fun hram => ⟨memWrite_of_ramAccess v hram, ?_, ?_, ?_⟩, fun w => s.store_eq_with_devices addr w v⟩
  · simp [State.deviceByte_store v hr hram, Width.bytes, toNat_lowByte]
  · refine State.sameBytesBut_store v hr hram fun a' h1 h2 => ⟨rfl, ?_⟩
    simp only [Width.bytes] at h2
    omega
  · simp [State.deviceByte_store v hr hram, Width.bytes, toNat_highByte]
  · simp [State.deviceByte_store v hr hram, Width.bytes, toNat_lowByte]
  · refine State.sameBytesBut_store v hr hram fun a' h1 h2 => ⟨rfl, ?_⟩
    simp only [Width.bytes] at h2
    omega

/-- From `s` to `t` the region list stands and no byte changes but those of the access of width `w`
at `addr`. -/
structure OnlyBytesOf (addr : Nat) (w : Width) (s t : State) : Prop where
  mapper : t.mapper = s.mapper
  bytes : ∀ d a, ¬ s.touches addr w d a → t.deviceByte d a = s.deviceByte d a

namespace OnlyBytesOf

variable {addr : Nat} {w : Width} {s t : State}

theorem sameBytesBut (h : OnlyBytesOf addr w s t) : SameBytesBut s t (s.touches addr w) :=
  sameBytesBut_of_mapper h.mapper h.bytes

theorem of_devices (hm : t.mapper = s.mapper) (hd : t.devices = s.devices) :
    OnlyBytesOf addr w s t :=
  ⟨hm, fun d a _ => by simp only [State.deviceByte, State.device, hd]⟩

/-- Which bytes an access touches is the region list's matter, so the relation composes. -/
theorem chain : Chain (OnlyBytesOf addr w) where
  refl _ := of_devices rfl rfl
  trans s t u h₁ h₂ := by
    refine ⟨h₂.mapper.trans h₁.mapper, fun d a hn => ?_⟩
    have hn' : ¬ t.touches addr w d a := by
      simpa only [State.touches, State.resolve, h₁.mapper] using hn
    rw [h₂.bytes d a hn', h₁.bytes d a hn]

theorem memWrite (v : Word) : Keeps (OnlyBytesOf addr w) (Machine.memWrite addr w v) := by
  intro s t
  constructor
  · intro _ h
    rcases memWrite_ok_cases h with ⟨d, a, n, mem, hr, hd, hb, rfl⟩ | ⟨_, _, _, _, rfl⟩
    · have hram : s.ramAccess addr w = true := by
        rw [State.ramAccess, State.readAt_inside hr hd hb, Option.isSome_some]
      rw [← State.store_inside hr hd hb v]
      refine ⟨s.store_mapper addr w v, ?_⟩
      exact (State.sameBytesBut_store v hr hram fun a' h1 h2 => ⟨a, hr, h1, h2⟩).1
    · exact of_devices rfl rfl
  · intro _ h
    rcases memWrite_error_cases h with ⟨rfl, -⟩ | ⟨_, _, _, _, rfl, -⟩ | ⟨_, _, rfl, -⟩ <;>
      exact of_devices rfl rfl

theorem finish {m : Exec Unit} (hm : Keeps (OnlyBytesOf addr w) m)
    (h : Machine.finish m s = .next t) : SameBytesBut s t (s.touches addr w) :=
  (Keeps.finish_of_takeFault chain (fun _ _ => of_devices rfl rfl) hm h).sameBytesBut

theorem moveToMem {x : Exec Word} (hx : Keeps (OnlyBytesOf addr w) x)
    (h : Machine.finish (Machine.moveToMem addr w x) s = .next t) :
    SameBytesBut s t (s.touches addr w) :=
  finish (.moveToMem chain hx memWrite) h

end OnlyBytesOf

/-- A push writes at `sp` as it is before (41_stack R100); after the write only `sp` and `cfb` move. -/
theorem finish_push_sameBytesBut {s t : State} {v : Word} (h : finish (push v) s = .next t) :
    SameBytesBut s t (s.touches (s.reg spIdx).toNat .w16) := by
  apply OnlyBytesOf.sameBytesBut
  have hw := OnlyBytesOf.memWrite (addr := (s.reg spIdx).toNat) (w := .w16) v s
  have quiet {u u' : State} := @OnlyBytesOf.of_devices (s.reg spIdx).toNat .w16 u u'
  cases hm : memWrite (s.reg spIdx).toNat .w16 v s with
  | ok _ u =>
    rw [finish_ok (push_ok hm)] at h
    cases h
    exact OnlyBytesOf.chain.trans _ _ _ ((hw u).1 () hm) (quiet rfl rfl)
  | error f u =>
    rw [finish_error (push_error hm)] at h
    cases h
    exact OnlyBytesOf.chain.trans _ _ _ ((hw u).2 f hm) (quiet rfl rfl)

/-- Settles O51: the operand of the move or the push is read without a store, and the one write is at
its address. -/
theorem storesChangeOnlyTheirBytes : Obligations.StoresChangeOnlyTheirBytes := by
  intro s t r lit addr b
  have read {w : Width} : Keeps (OnlyBytesOf addr.toNat w) (regRead r) :=
    .regRead_of_chain OnlyBytesOf.chain r
  have const {w : Width} (v : Word) : Keeps (OnlyBytesOf addr.toNat w) (pure v) :=
    .pure OnlyBytesOf.chain v
  refine ⟨OnlyBytesOf.moveToMem read, OnlyBytesOf.moveToMem (const lit),
    OnlyBytesOf.moveToMem (const _),
    OnlyBytesOf.moveToMem (.bind OnlyBytesOf.chain read fun _ => const _),
    finish_push_sameBytesBut, fun h => ?_⟩
  by_cases hr : r < 12
  · refine finish_push_sameBytesBut (v := s.reg r) ?_
    rw [← h]
    simp only [exec, execPshReg, finish, bind_ok (regRead_ok hr s)]
  · rw [exec, execPshReg, finish_error (bind_error (regRead_invalid hr s))] at h
    cases h
    exact (OnlyBytesOf.of_devices rfl rfl).sameBytesBut

/-! ## Instructions that store nothing (20_memory R44, R50) -/

/-- Every update but the two that a write makes, of a RAM and of the record of events, keeps the
relation. -/
structure NonStoringUpdates (R : State → State → Prop) : Prop extends Chain R where
  setReg : ∀ s i v, R s (s.setReg i v)
  withCfb : ∀ s v, R s (s.withCfb v)
  withRun : ∀ s v, R s (s.withRun v)
  countAccess : ∀ s, R s s.countAccess

namespace NonStoringUpdates

variable {R : State → State → Prop} (p : NonStoringUpdates R)
include p

theorem regWrite (i : Nat) (v : Word) : Keeps R (Machine.regWrite i v) := by
  intro s t
  unfold Machine.regWrite
  split <;> constructor <;> intro _ h <;> cases h
  · exact p.setReg _ _ _
  · exact p.refl _

theorem memRead (addr : Nat) (w : Width) : Keeps R (Machine.memRead addr w) := by
  intro s t
  constructor <;> intro _ h
  · rcases memRead_ok_cases h with ⟨rfl, -⟩ | ⟨_, _, -, -, rfl⟩
    · exact p.refl _
    · exact p.countAccess _
  · rcases memRead_error_cases h with ⟨rfl, -⟩ | ⟨_, _, _, _, rfl, -⟩ | ⟨_, _, rfl, -⟩
    · exact p.refl _
    · exact p.refl _
    · exact p.countAccess _

theorem setRun (v : RunState) : Keeps R (Machine.setRun v) := by
  intro s t
  constructor <;> intro _ h <;> cases h
  exact p.withRun _ _

theorem setCfb (v : Word) : Keeps R (Machine.setCfb v) := by
  intro s t
  constructor <;> intro _ h <;> cases h
  exact p.withCfb _ _

/-- A pop is a read at the moved `sp` (41_stack R101). -/
theorem pop : Keeps R Machine.pop := by
  intro s t
  have moved : R s ((s.setReg spIdx (s.reg spIdx + 2)).withCfb (s.cfb - 2)) :=
    p.trans _ _ _ (p.setReg _ _ _) (p.withCfb _ _)
  rw [pop_apply]
  constructor <;> intro _ h
  · exact p.trans _ _ _ moved ((p.memRead _ _ _ t).1 _ h)
  · exact p.trans _ _ _ moved ((p.memRead _ _ _ t).2 _ h)

theorem popRegs (l : List Nat) : Keeps R (Machine.popRegs l) := by
  induction l with
  | nil => exact .pure p.toChain ()
  | cons r rs ih =>
    exact .bind p.toChain p.pop fun _ => .bind p.toChain (p.regWrite _ _) fun _ => ih

theorem popDiscard (n : Nat) : Keeps R (Machine.popDiscard n) := by
  induction n with
  | zero => exact .pure p.toChain ()
  | succ n ih => exact .bind p.toChain p.pop fun _ => ih

theorem returnSequence : Keeps R Machine.returnSequence :=
  .bind p.toChain (.regRead_of_chain p.toChain _) fun _ =>
    .bind p.toChain (p.regWrite _ _) fun _ => .bind p.toChain p.pop fun _ =>
    .bind p.toChain (p.setCfb _) fun _ => .bind p.toChain p.pop fun _ =>
    .bind p.toChain (p.regWrite _ _) fun _ => .bind p.toChain (p.popRegs _) fun _ =>
    .bind p.toChain p.pop fun _ => .bind p.toChain (p.popDiscard _) fun _ => p.regWrite _ _

theorem finish {m : Exec Unit} (hm : Keeps R m) {s t : State}
    (h : Machine.finish m s = .next t) : R s t :=
  Keeps.finish_of_takeFault p.toChain (fun _ _ => p.withRun _ _) hm h

/-- The meaning of an instruction that stores nothing, by family. -/
theorem exec {i : Instr} {s t : State} (hi : storesToMemory i = false)
    (h : Machine.exec i s = .next t) : R s t := by
  have c := p.toChain
  have pureK {α : Type} (a : α) : Keeps R (Pure.pure a : Exec α) := .pure c a
  have readK (i : Nat) : Keeps R (Machine.regRead i) := .regRead_of_chain c i
  cases i with
  | movRegMem | movLitMem | mov8LitMem | mov8RegMem | pshLit | pshReg | calLit | calReg =>
    exact nomatch hi
  | nop => exact p.finish (pureK ()) h
  | hlt => exact p.finish (p.setRun _) h
  | pop => exact p.finish (.bind c p.pop fun _ => p.regWrite _ _) h
  | ret => exact p.finish p.returnSequence h
  | movLitReg => exact p.finish (.moveTo c (pureK _) (p.regWrite _)) h
  | movRegReg => exact p.finish (.moveTo c (readK _) (p.regWrite _)) h
  | movMemReg | mov8MemReg => exact p.finish (.moveTo c (p.memRead _ _) (p.regWrite _)) h
  | movRegPtrReg | movLitOffReg =>
    exact p.finish (.moveTo c (.bind c (readK _) fun _ => p.memRead _ _) (p.regWrite _)) h
  | addRegReg | subRegReg | mulRegReg | andRegReg | orRegReg | xorRegReg =>
    exact p.finish (.binaryToAcc c (readK _) (readK _) (p.regWrite _)) h
  | addLitReg | subLitReg | mulLitReg =>
    exact p.finish (.binaryToAcc c (pureK _) (readK _) (p.regWrite _)) h
  | subRegLit | andRegLit | orRegLit | xorRegLit =>
    exact p.finish (.binaryToAcc c (readK _) (pureK _) (p.regWrite _)) h
  | notReg => exact p.finish (.bind c (readK _) fun _ => p.regWrite _ _) h
  | lshRegLit | rshRegLit => exact p.finish (.shiftInPlace c (pureK _) (p.regWrite _)) h
  | lshRegReg | rshRegReg =>
    exact p.finish (.shiftInPlace c (.bind c (readK _) fun _ => pureK _) (p.regWrite _)) h
  | incReg | decReg => exact p.finish (.updateReg c (p.regWrite _)) h
  | jmpNotEq | jeqLit | jltLit | jgtLit | jleLit | jgeLit =>
    exact p.finish (.jumpIf_of_regWrite c (pureK _) (p.regWrite _ _)) h
  | jeqReg | jneReg | jltReg | jgtReg | jleReg | jgeReg =>
    exact p.finish (.jumpIf_of_regWrite c (readK _) (p.regWrite _ _)) h

end NonStoringUpdates

/-- The region list, the contents of every device and the record of events are the same. -/
structure SameMemory (s t : State) : Prop where
  mapper : t.mapper = s.mapper
  devices : t.devices = s.devices
  events : t.events = s.events

theorem SameMemory.byteAt {s t : State} (h : SameMemory s t) (addr : Nat) :
    t.byteAt addr = s.byteAt addr := by
  simp only [State.byteAt, State.resolve, State.deviceByte, State.device, h.mapper, h.devices]

theorem sameMemory_updates : NonStoringUpdates SameMemory where
  refl _ := ⟨rfl, rfl, rfl⟩
  trans _ _ _ h₁ h₂ :=
    ⟨h₂.mapper.trans h₁.mapper, h₂.devices.trans h₁.devices, h₂.events.trans h₁.events⟩
  setReg _ _ _ := ⟨rfl, rfl, rfl⟩
  withCfb _ _ := ⟨rfl, rfl, rfl⟩
  withRun _ _ := ⟨rfl, rfl, rfl⟩
  countAccess _ := ⟨rfl, rfl, rfl⟩

/-- Settles O50: only a write changes a device or the record of events, and the meanings outside
`storesToMemory` have none. -/
theorem nonStoringInstructionsLeaveMemory : Obligations.NonStoringInstructionsLeaveMemory := by
  intro i s t hi h
  have same := sameMemory_updates.exec hi h
  exact ⟨same.devices, same.events, same.byteAt⟩

/-! ## Well-formed states (20_memory R31, R35) -/

/-- A device that has a byte is one of the list: a place with none reads as a RAM of no bytes (log
entry 9). -/
theorem State.device_mem {s : State} {d n : Nat} {mem : Memory} (h : s.device d = .ram n mem)
    (hn : 0 < n) : .ram n mem ∈ s.devices := by
  rw [State.device] at h
  cases hd : s.devices[d]? with
  | some x =>
    rw [hd, Option.getD_some] at h
    exact h ▸ List.mem_of_getElem? hd
  | none =>
    rw [hd, Option.getD_none, Device.ram.injEq] at h
    omega

/-- A store inside a well-formed RAM leaves it well formed. -/
theorem Device.wf_set {n a : Nat} {mem : Memory} (v : Word) (w : Width)
    (h : Device.wf (.ram n mem) = true) (hb : a + w.bytes ≤ n) :
    Device.wf (.ram n (mem.set a v w)) = true := by
  simp only [Device.wf, Bool.and_eq_true] at h ⊢
  exact ⟨Memory.wf_set a v w h.1, Memory.fits_set v w h.2 hb⟩

theorem State.wf_setRam {s : State} {d a n : Nat} {mem : Memory} (v : Word) (w : Width) (h : s.Wf)
    (hd : s.device d = .ram n mem) (hb : a + w.bytes ≤ n) : (s.setRam d n (mem.set a v w)).Wf where
  opcodeMap := h.opcodeMap
  devices x hx := by
    have hn : 0 < n := (Nat.add_pos_right a w.bytes_pos).trans_le hb
    rcases List.mem_or_eq_of_mem_set hx with hx | rfl
    · exact h.devices x hx
    · exact Device.wf_set v w (h.devices _ (State.device_mem hd hn)) hb
  regions r hr := by
    rw [State.setRam_devices, List.length_set]
    exact h.regions r hr
  tokens := h.tokens

/-- Well-formedness is kept. -/
def KeepsWf (s t : State) : Prop := s.Wf → t.Wf

/-- Only a store looks at what a well-formed state says of the devices. -/
theorem keepsWf_updates : Updates KeepsWf where
  refl _ := id
  trans _ _ _ h₁ h₂ h := h₂ (h₁ h)
  setReg _ _ _ h := ⟨h.opcodeMap, h.devices, h.regions, h.tokens⟩
  withCfb _ _ h := ⟨h.opcodeMap, h.devices, h.regions, h.tokens⟩
  withRun _ _ h := ⟨h.opcodeMap, h.devices, h.regions, h.tokens⟩
  countAccess _ h := ⟨h.opcodeMap, h.devices, h.regions, h.tokens⟩
  logEvent _ _ h := ⟨h.opcodeMap, h.devices, h.regions, h.tokens⟩
  setRam _ _ _ _ _ v w hd hb h := State.wf_setRam v w h hd hb

/-- Settles O53: every update of a state keeps well-formedness, so the step does. -/
theorem stepKeepsStateWellFormed : Obligations.StepKeepsStateWellFormed :=
  fun _ _ hs h => Keeps.step keepsWf_updates h hs

end Sys2Proof.Machine
end

section
/-! The encoding (30_encoding): the decoder against the encoder, the opcode table, and the bytes that
are no opcode. -/

namespace Sys2Proof

open Machine

/-! ## Operands (30_encoding R61, R63) -/

/-- The values that an operand of a kind can have: an index of the register file, a byte with the high
byte zero, any word. -/
def OperandKind.Admits : OperandKind → Word → Prop
  | .reg, v => v.toNat < 12
  | .lit8, v | .addr8, v => v.toNat < 256
  | .lit16, _ | .addr16, _ => True

theorem OperandKind.admits_reg {r : Nat} (h : r < 12) :
    OperandKind.reg.Admits (BitVec.ofNat 16 r) := by
  rw [OperandKind.Admits, BitVec.toNat_ofNat]
  omega

theorem OperandKind.admits_lit8 (b : Byte) : OperandKind.lit8.Admits (zext16 b) := by
  rw [OperandKind.Admits, toNat_zext16]
  exact b.isLt

theorem zext16_lowByte {v : Word} (h : v.toNat < 256) : zext16 (lowByte v) = v := by
  apply BitVec.eq_of_toNat_eq
  rw [toNat_zext16, toNat_lowByte, Nat.mod_eq_of_lt h]

theorem decodeOperand_encodeOperand {k : OperandKind} {v : Word} (h : k.Admits v)
    (rest : List Byte) : decodeOperand k (encodeOperand k v ++ rest) = .ok (v, rest) := by
  cases k with
  | reg =>
    have hr := regOfByte_index h
    rw [BitVec.ofNat_toNat, BitVec.setWidth_eq] at hr
    simp only [encodeOperand, List.cons_append, List.nil_append, decodeOperand, hr,
      BitVec.ofNat_toNat, BitVec.setWidth_eq]
  | lit8 | addr8 =>
    simp only [encodeOperand, List.cons_append, List.nil_append, decodeOperand, zext16_lowByte h]
  | lit16 | addr16 =>
    simp only [encodeOperand, List.cons_append, List.nil_append, decodeOperand, joinBytes_high_low]

theorem decodeOperands_encodeOperands {ks : List OperandKind} {vs : List Word}
    (h : List.Forall₂ OperandKind.Admits ks vs) (rest : List Byte) :
    decodeOperands ks (encodeOperands ks vs ++ rest) = .ok (vs, rest) := by
  induction h with
  | nil => rfl
  | cons hv _ ih =>
    simp only [encodeOperands, List.headD_cons, List.tail_cons, List.append_assoc, decodeOperands,
      decodeOperand_encodeOperand hv, ih]

/-! ## An instruction and its operand values (30_encoding R64, R66) -/

/-- The operands of a well-formed instruction are values of their kinds. -/
theorem Instr.operands_admitted {i : Instr} (h : i.wellFormed = true) :
    List.Forall₂ OperandKind.Admits i.opcode.schema i.operands := by
  have lit (v : Word) : OperandKind.lit16.Admits v := trivial
  have addr (v : Word) : OperandKind.addr16.Admits v := trivial
  cases i <;>
    simp only [Instr.wellFormed, Instr.regOperands, List.all_cons, List.all_nil, Bool.and_true,
      Bool.and_eq_true, decide_eq_true_eq] at h <;>
    simp [Instr.opcode, Opcode.schema, Opcode.format, Format.schema, Instr.operands,
      OperandKind.admits_reg, OperandKind.admits_lit8, lit, addr, h]

/-- A well-formed instruction is the one that its opcode and its operand values make. -/
theorem Instr.assemble_operands {i : Instr} (h : i.wellFormed = true) :
    i.opcode.assemble i.operands = i := by
  have index {r : Nat} (hr : r < 12) : r % 65536 = r := Nat.mod_eq_of_lt (by omega)
  cases i <;>
    simp only [Instr.wellFormed, Instr.regOperands, List.all_cons, List.all_nil, Bool.and_true,
      Bool.and_eq_true, decide_eq_true_eq] at h <;>
    simp [Instr.opcode, Opcode.assemble, Instr.operands, index, h]

/-! ## Decoding (30_encoding R60, R65, R68, R70) -/

theorem decodeWith_cons {m : OpcodeMap} {b : Byte} {op : Opcode} {bs rest : List Byte}
    {vs : List Word} (hb : m.lookup b = some op)
    (hv : decodeOperands op.schema bs = .ok (vs, rest)) :
    decodeWith m (b :: bs) = .ok (op.assemble vs, rest) := by
  simp only [decodeWith, hb, hv]

/-- Everything the decoder can accept. -/
theorem decodeWith_eq_ok {m : OpcodeMap} {bs rest : List Byte} {i : Instr}
    (h : decodeWith m bs = .ok (i, rest)) : ∃ b tail op vs, bs = b :: tail ∧
      m.lookup b = some op ∧ decodeOperands op.schema tail = .ok (vs, rest) ∧
      i = op.assemble vs := by
  cases bs with
  | nil => exact nomatch h
  | cons b tail =>
    simp only [decodeWith] at h
    cases hb : m.lookup b with
    | none => simp only [hb, reduceCtorEq] at h
    | some op =>
      cases hv : decodeOperands op.schema tail with
      | error e => simp only [hb, hv, reduceCtorEq] at h
      | ok p =>
        obtain ⟨vs, left⟩ := p
        simp only [hb, hv, Except.ok.injEq, Prod.mk.injEq] at h
        obtain ⟨rfl, rfl⟩ := h
        exact ⟨b, tail, op, vs, rfl, hb, hv, rfl⟩

/-- Settles O1: the opcode byte is looked up as its opcode, the operand bytes decode to the operands,
and these make the instruction. -/
theorem decodeInvertsEncode : Obligations.DecodeInvertsEncode := by
  intro m i rest hm hi
  have hops := decodeOperands_encodeOperands (Instr.operands_admitted hi) rest
  rw [encodeWith, List.cons_append, decodeWith_cons (m.lookup_code hm i.opcode) hops,
    Instr.assemble_operands hi]

/-- Settles O2, from what the operands that the decoder accepts are. -/
theorem decodedInstructionIsWellFormed : Obligations.DecodedInstructionIsWellFormed := by
  intro m bs rest i h
  obtain ⟨b, tail, op, vs, rfl, hb, hv, rfl⟩ := decodeWith_eq_ok h
  obtain ⟨⟨used, rfl, hlen⟩, -, hregs⟩ := decodeOperands_ok hv
  rw [Opcode.assemble_opcode]
  refine ⟨op.assemble_wellFormed vs hregs, ⟨b, _, rfl, hb⟩, b :: used, rfl, ?_⟩
  rw [List.length_cons, hlen, Opcode.size, Nat.add_comm]

/-- Settles O3, on the fifty rows of the table. -/
theorem defaultMapHasTheCodesOfTheTable : Obligations.DefaultMapHasTheCodesOfTheTable :=
  ⟨by decide, opcodeMap_reference_wf⟩

/-- Settles O4, by running the decoder on each of the nine words. -/
theorem writtenOutWordsDecode : Obligations.WrittenOutWordsDecode :=
  ⟨rfl, rfl, rfl, rfl, rfl, rfl, rfl, rfl, rfl⟩

/-! ## Bytes that are the code of no instruction (30_encoding R68) -/

theorem OpcodeMap.lookup_eq_none_iff (m : OpcodeMap) (b : Byte) :
    m.lookup b = none ↔ ∀ op, m.code op ≠ b := by
  simp [OpcodeMap.lookup, Opcode.mem_all]

/-- A byte is illegal exactly if its value stands in no row of the table. -/
theorem OpcodeMap.lookup_eq_none_iff_notMem (m : OpcodeMap) (b : Byte) :
    m.lookup b = none ↔ b.toNat ∉ Opcode.all.map (fun op => (m.code op).toNat) := by
  simp [m.lookup_eq_none_iff, BitVec.toNat_inj, Opcode.mem_all]

/-- The gaps in the codes of R67 are the values listed in R68. -/
theorem reference_lookup_eq_none_iff (b : Byte) :
    OpcodeMap.reference.lookup b = none ↔ illegalByDefault b := by
  rw [OpcodeMap.lookup_eq_none_iff_notMem, defaultMapHasTheCodesOfTheTable.1]
  have := b.isLt
  simp only [illegalByDefault, List.mem_cons, List.not_mem_nil, or_false, not_or]
  omega

end Sys2Proof
end

section
/-! Fetch (30_encoding R62, R63, R66): the step runs what the decoder reads, an illegal byte or a fault
of the fetch is taken with `ip` where the failing access stands, and a loaded image is code. -/

namespace Sys2Proof.Machine

/-! ## The step by what the fetch answers -/

theorem step_of_fetchInstr_ok {s t : State} {i : Instr} (hrun : s.run = .running)
    (h : fetchInstr s = .ok i t) : step s = exec i t := by
  simp only [step, hrun, h]

theorem step_of_fetchInstr_error {s t : State} {f : Fault} (hrun : s.run = .running)
    (h : fetchInstr s = .error f t) : step s = .next (takeFault f t) := by
  simp only [step, hrun, h]

theorem fetchInstr_opcode_error {s t : State} {f : Fault} (h : fetch8 s = .error f t) :
    fetchInstr s = .error f t := by
  rw [fetchInstr_apply, h]

theorem fetchInstr_illegal {s t : State} {b : Byte} (h : fetch8 s = .ok b t)
    (hb : t.params.opcodeMap.lookup b = none) :
    fetchInstr s = .error (.illegalOpcode b (s.reg ipIdx)) t := by
  simp only [fetchInstr_apply, h, hb]

section

variable {s t u : State} {b : Byte} {op : Opcode} (h : fetch8 s = .ok b t)
  (hb : t.params.opcodeMap.lookup b = some op)
include h hb

theorem fetchInstr_ok {vs : List Word} (hv : fetchOperands op.schema t = .ok vs u) :
    fetchInstr s = .ok (op.assemble vs) u := by
  simp only [fetchInstr_apply, h, hb, hv]

theorem fetchInstr_operand_error {f : Fault} (hv : fetchOperands op.schema t = .error f u) :
    fetchInstr s = .error f u := by
  simp only [fetchInstr_apply, h, hb, hv]

end

/-- The opcode map is the same after an opcode fetch, on any device. -/
theorem lookup_of_memRead_ok {s t : State} {b : Byte} {op : Opcode} {addr : Nat} {w : Width}
    {v x : Word} (h : memRead addr w s = .ok v t) (hb : s.params.opcodeMap.lookup b = some op) :
    (t.setReg ipIdx x).params.opcodeMap.lookup b = some op := by
  obtain ⟨-, -, -, -, hparams, -⟩ := memRead_ok_keeps h
  rwa [State.setReg_params, hparams]

/-- `ip` past the opcode byte and past the operand bytes is `ip` past them all. -/
theorem add_length_cons (a : Word) (b : Byte) (bs : List Byte) :
    a + 1 + BitVec.ofNat 16 bs.length = a + BitVec.ofNat 16 (b :: bs).length := by
  rw [List.length_cons, Nat.add_comm, BitVec.ofNat_add, ← BitVec.add_assoc]
  rfl

/-- The fetch of operands that stand as code after the opcode byte. -/
theorem fetchOperands_after_opcode {s : State} {b : Byte} {bs : List Byte}
    {ks : List OperandKind} {vs : List Word} (hcode : CodeAt s (b :: bs))
    (h : decodeOperands ks bs = .ok (vs, [])) :
    fetchOperands ks (s.setReg ipIdx (s.reg ipIdx + 1)) =
      .ok vs (s.setReg ipIdx (s.reg ipIdx + 1 + BitVec.ofNat 16 bs.length)) := by
  have hrest : CodeAt (s.setReg ipIdx (s.reg ipIdx + 1)) bs := CodeAt.drop (as := [b]) hcode
  obtain ⟨used, hused, hops⟩ := fetchOperands_code hrest h
  obtain rfl : bs = used := hused.trans (List.append_nil used)
  rwa [State.setReg_setReg, State.reg_setReg_self _ _ _ (by decide)] at hops

/-! ## Register operands (30_encoding R63) -/

/-- Settles O11: the register fetch is the byte fetch and a reduction. -/
theorem registerByteIsReducedModulo12 : Obligations.RegisterByteIsReducedModulo12 := by
  intro s
  constructor
  · exact fun b t h => ⟨bind_ok h, Nat.mod_lt _ (by decide)⟩
  · exact fun f t h => bind_error h

/-! ## Illegal opcodes and faults of the opcode fetch (30_encoding R66, R68) -/

/-- Settles O5: the byte is fetched as any opcode byte, and its lookup fails. -/
theorem illegalOpcodeByteFaults : Obligations.IllegalOpcodeByteFaults := by
  refine ⟨OpcodeMap.lookup_eq_none_iff, reference_lookup_eq_none_iff, ?_⟩
  intro s b hrun hcode hb
  exact step_of_fetchInstr_error hrun (fetchInstr_illegal (fetch8_code hcode) hb)

/-- The step where the access of the opcode byte faults. -/
theorem step_of_opcode_fault {s t : State} {f : Fault} (hrun : s.run = .running)
    (h : memRead (s.reg ipIdx).toNat .w8 s = .error f t) : step s = .next (takeFault f t) := by
  refine step_of_fetchInstr_error hrun (fetchInstr_opcode_error ?_)
  rw [fetch8_apply, h]

/-- Settles O10: the access comes before the advance of `ip`, and a failing read keeps the rest. -/
theorem unmappedOpcodeFetchChangesNothing : Obligations.UnmappedOpcodeFetchChangesNothing := by
  constructor
  · intro s hrun hfind
    exact step_of_opcode_fault hrun (bind_error (findRegion_none hfind))
  · intro s t f hrun h
    obtain ⟨hregs, hcfb, -, hdevices, -⟩ := memRead_error_keeps h
    exact ⟨step_of_opcode_fault hrun h, hregs, hcfb, hdevices⟩

/-! ## A fetched instruction (30_encoding R62, R66) -/

/-- The fetch of code: the instruction that the bytes decode to, and `ip` past the bytes. -/
theorem fetchInstr_code {s : State} {bs : List Byte} {i : Instr} (hcode : CodeAt s bs)
    (h : decodeWith s.params.opcodeMap bs = .ok (i, [])) :
    fetchInstr s = .ok i (s.setReg ipIdx (s.reg ipIdx + BitVec.ofNat 16 bs.length)) := by
  obtain ⟨b, tail, op, vs, rfl, hb, hv, rfl⟩ := decodeWith_eq_ok h
  rw [← add_length_cons]
  exact fetchInstr_ok (fetch8_code hcode) hb (fetchOperands_after_opcode hcode hv)

/-- Settles O6: in one RAM region, and by accesses of their own. -/
theorem stepRunsDecodedInstruction : Obligations.StepRunsDecodedInstruction := by
  constructor
  · intro s bs i hrun hcode hdec
    exact step_of_fetchInstr_ok hrun (fetchInstr_code hcode hdec)
  · intro s t u b bs op i hrun hread hb hbytes hdec
    obtain ⟨⟨vs, hv, hops⟩, hip, -⟩ := hbytes.fetchOperands
    rw [decodeWith_cons hb hv, Except.ok.injEq, Prod.mk.injEq] at hdec
    obtain ⟨rfl, -⟩ := hdec
    refine ⟨step_of_fetchInstr_ok hrun (fetchInstr_ok (fetch8_ok hread)
      (lookup_of_memRead_ok hread hb) hops), ?_⟩
    rw [hip, State.reg_setReg_self _ _ _ (by decide), add_length_cons]

/-! ## A fault of an operand's fetch (30_encoding R62, R66; 60_exceptions R188) -/

/-- The step where the opcode byte and the operands before number `n` are fetched and the access of
operand `n` faults. -/
theorem step_of_operand_fault {s t u v : State} {b : Byte} {op : Opcode} {n : Nat}
    {k : OperandKind} {vs : List Word} {f : Fault} (hrun : s.run = .running)
    (h8 : fetch8 s = .ok b t) (hb : t.params.opcodeMap.lookup b = some op)
    (hk : op.schema[n]? = some k) (hops : fetchOperands (op.schema.take n) t = .ok vs u)
    (hf : memRead (u.reg ipIdx).toNat (operandAccess k) u = .error f v) :
    step s = .next (takeFault f v) := by
  obtain ⟨hn, rfl⟩ := List.getElem?_eq_some_iff.mp hk
  have hsplit : op.schema.take n ++ op.schema[n] :: op.schema.drop (n + 1) = op.schema := by
    rw [← List.drop_eq_getElem_cons hn, List.take_append_drop]
  have herr := fetchOperands_error (rest := op.schema.drop (n + 1)) hops (fetchOperand_error hf)
  rw [hsplit] at herr
  exact step_of_fetchInstr_error hrun (fetchInstr_operand_error h8 hb herr)

/-- Settles O9: for any accesses, for code in one RAM, and at the last byte of a device. -/
theorem fetchFaultLeavesIpAtOperand : Obligations.FetchFaultLeavesIpAtOperand := by
  refine ⟨?_, ?_, ?_⟩
  · intro s t u v b bs op n k f hrun hread hb hk hbytes hf
    obtain ⟨⟨vs, -, hops⟩, hip, hregs, hcfb, hdevices⟩ := hbytes.fetchOperands
    obtain ⟨tregs, tcfb, -, tdevices, -⟩ := memRead_ok_keeps hread
    obtain ⟨vregs, vcfb, -, vdevices, -⟩ := memRead_error_keeps hf
    have hv (j : Nat) : v.reg j = u.reg j := by simp only [State.reg, vregs]
    refine ⟨step_of_operand_fault hrun (fetch8_ok hread) (lookup_of_memRead_ok hread hb) hk
      hops hf, ?_, fun j hj => ?_,
      vcfb.trans (hcfb.trans tcfb), vdevices.trans (hdevices.trans tdevices)⟩
    · rw [hv, hip, State.reg_setReg_self _ _ _ (by decide), add_length_cons]
    · rw [hv, hregs j hj, State.reg_setReg_ne _ _ _ _ (Ne.symm hj), State.reg, tregs, State.reg]
  · intro s bs vs op n k f hrun hm hcode hk hdec hf
    refine step_of_operand_fault hrun (fetch8_code hcode) (OpcodeMap.lookup_code hm op) hk
      (fetchOperands_after_opcode hcode hdec) (memRead_of_accessFault ?_)
    rwa [State.reg_setReg_self _ _ _ (by decide)]
  · intro s addr d a size mem hr hd hlast k
    cases k with
    | reg | lit8 | addr8 =>
      simp [State.accessFault, hr, hd, operandAccess, Width.bytes, hlast]
    | lit16 | addr16 =>
      have hout : size < a + Width.w16.bytes := by rw [← hlast]; exact Nat.lt_succ_self (a + 1)
      exact State.accessFault_outside hr hd hout

/-! ## A loaded image (30_encoding R73, 70_reset_and_hazards R213) -/

/-- The one region of a full RAM (20_memory R46). -/
abbrev wholeRegion (d : Nat) : Region := { device := d, start := 0, last := 0xFFFF, remap := true }

theorem Mapper.find_whole {m : Mapper} {d addr : Nat} (h : m.regions = [wholeRegion d]) :
    m.find addr = if addr < 0x10000 then some (wholeRegion d) else none := by
  have hcov : (wholeRegion d).covers addr = decide (addr < 0x10000) := by
    simp [Region.covers, Nat.lt_succ_iff]
  by_cases ha : addr < 0x10000 <;> simp [Mapper.find, h, hcov, ha]

/-- In a full RAM an address leads to the byte of that number, and one above the last leads nowhere. -/
theorem State.resolve_whole {s : State} {d : Nat} (h : s.mapper.regions = [wholeRegion d])
    (addr : Nat) : s.resolve addr = if addr < 0x10000 then some (d, addr) else none := by
  rw [State.resolve, Mapper.find_whole h]
  split <;> rfl

/-- The load of an image that fits in a full RAM: its bytes are the device's from the origin on, and
the device's other bytes and the rest of the state stand but for `ip`. -/
theorem hostLoad_whole {s : State} {d : Nat} {mem : Memory} {origin : Word} {image : List Byte}
    (hm : s.mapper.regions = [wholeRegion d]) (hd : s.device d = .ram 0x10000 mem)
    (hb : origin.toNat + image.length ≤ 0x10000) :
    ∃ mem' : Memory, hostLoad origin image s =
        (.ok (), (s.setRam d 0x10000 mem').setReg ipIdx origin) ∧
      (∀ k b, image[k]? = some b → mem'.read (origin.toNat + k) = b) ∧
      ∀ a, ¬ (origin.toNat ≤ a ∧ a < origin.toNat + image.length) → mem'.read a = mem.read a := by
  have hr (k : Nat) (hk : k < image.length) :
      s.resolve (origin.toNat + k) = some (d, origin.toNat + k) := by
    rw [State.resolve_whole hm, if_pos (by omega)]
  obtain ⟨mem', hstore, hread⟩ := storeImage_ram image hd (by decide) hb hr
  refine ⟨mem', hostAccess_ok ?_, fun k b hk => ?_, fun a ha => ?_⟩
  · rw [bind_ok hstore, regWrite_ip]
  · rw [hread, if_pos (Nat.le_add_right _ _), Nat.add_sub_cancel_left, hk, Option.getD_some]
  · rw [hread]
    split
    · rw [List.getElem?_eq_none (by omega), Option.getD_none]
    · rfl

/-- New contents that agree at an address leave that byte of the device, and every byte of another. -/
theorem State.deviceByte_setRam {s : State} {d n : Nat} {m mem : Memory}
    (h : s.device d = .ram n m) (hn : 0 < n) {d' a : Nat} (hread : d = d' → mem.read a = m.read a) :
    (s.setRam d n mem).deviceByte d' a = s.deviceByte d' a := by
  rw [State.deviceByte, State.device_setRam mem h hn, State.deviceByte]
  by_cases hd : d = d'
  · subst hd
    simp only [if_true, h, hread rfl]
  · rw [if_neg hd]

/-- The bytes in a full RAM from the origin on are code once `ip` is there (30_encoding R73). -/
theorem codeAt_setRam {s : State} {d : Nat} {m mem : Memory} {origin : Word} {image : List Byte}
    (hm : s.mapper.regions = [wholeRegion d]) (hd : s.device d = .ram 0x10000 m)
    (hb : origin.toNat + image.length ≤ 0x10000)
    (himage : ∀ k b, image[k]? = some b → mem.read (origin.toNat + k) = b) :
    CodeAt ((s.setRam d 0x10000 mem).setReg ipIdx origin) image := by
  have hdev := (State.device_setRam mem hd (by decide) d).trans (if_pos rfl)
  refine ⟨wholeRegion d, 0x10000, mem, hdev, ?_, fun k b hk => ?_⟩
  · rwa [State.reg_setReg_self _ _ _ (by decide)]
  · have hlen : k < image.length := (List.getElem?_eq_some_iff.mp hk).1
    have hlt : origin.toNat + k < 0x10000 := by omega
    rw [State.reg_setReg_self _ _ _ (by decide)]
    exact ⟨(Mapper.find_whole hm).trans (if_pos hlt), hlt, himage k b hk⟩

/-- Settles O60: the image's bytes are the contents that the load leaves in the one device. -/
theorem loadedImageStandsAtIp : Obligations.LoadedImageStandsAtIp := by
  intro s origin image hflat hfits
  obtain ⟨d, mem, hm, hget⟩ := hflat
  have hd : s.device d = .ram 0x10000 mem := by rw [State.device, hget, Option.getD_some]
  obtain ⟨mem', hload, himage, hother⟩ := hostLoad_whole hm hd hfits
  have hsame : SameBytesBut s ((s.setRam d 0x10000 mem').setReg ipIdx origin)
      (fun d a => ∃ k, k < image.length ∧ s.touches (origin.toNat + k) .w8 d a) := by
    refine sameBytesBut_of_mapper rfl fun d' a hn => ?_
    refine State.deviceByte_setRam hd (by decide) fun hdd => hother a fun hin => ?_
    refine hn ⟨a - origin.toNat, by omega, a, ?_, le_refl a, Nat.lt_succ_self a⟩
    rw [State.resolve_whole hm, if_pos (by omega), Nat.add_sub_cancel' hin.1, hdd]
  refine ⟨_, hload, State.reg_setReg_self _ _ _ (by decide), codeAt_setRam hm hd hfits himage,
    fun j hj => State.reg_setReg_ne _ _ _ _ (Ne.symm hj), rfl, rfl,
    ⟨rfl, rfl, State.shapes_setRam hd mem'⟩, rfl, rfl, hsame, fun addr haddr => hsame.2 addr ?_⟩
  rintro d' a hr ⟨k, hk, a0, hr0, hle, hlt⟩
  rw [State.resolve_whole hm, Option.ite_none_right_eq_some, Option.some.injEq,
    Prod.mk.injEq] at hr hr0
  simp only [Width.bytes] at hlt
  omega

end Sys2Proof.Machine
end

section
/-! Moves (40_move): the layouts of their instructions, what each move does or what fault it takes,
and the registers that an instruction of any family leaves alone. -/

namespace Sys2Proof

open Machine

/-! ## Layouts (30_encoding R61, R63, R64)

A layout is the decoder run on its bytes, so each lemma asks only for the opcode's schema and for the
instruction that its operand values make. An operand of two bytes may be a literal or an address. -/

theorem decodeOperand_reg (b : Byte) (rest : List Byte) :
    decodeOperand .reg (b :: rest) = .ok (BitVec.ofNat 16 (b.toNat % 12), rest) := rfl

theorem decodeOperand_lit8 (b : Byte) (rest : List Byte) :
    decodeOperand .lit8 (b :: rest) = .ok (zext16 b, rest) := rfl

theorem decodeOperand_word {k : OperandKind} (h : operandAccess k = .w16) (hi lo : Byte)
    (rest : List Byte) : decodeOperand k (hi :: lo :: rest) = .ok (hi ++ lo, rest) := by
  rw [← joinBytes_eq_append]
  cases k with
  | reg | lit8 | addr8 => exact nomatch h
  | lit16 | addr16 => rfl

/-- A decoded register index is not changed by its delivery as a word. -/
theorem toNat_regIndex (b : Byte) : (BitVec.ofNat 16 (b.toNat % 12)).toNat = b.toNat % 12 := by
  rw [BitVec.toNat_ofNat]
  omega

section

variable {op : Opcode} {k l : OperandKind}

theorem formatRR_of_assemble {i : Nat → Nat → Instr} (hs : op.schema = [.reg, .reg])
    (hi : ∀ v w, op.assemble [v, w] = i v.toNat w.toNat) : FormatRR op i := by
  intro m hm r1 r2 rest
  rw [← toNat_regIndex r1, ← toNat_regIndex r2, ← hi]
  apply decodeWith_cons (m.lookup_code hm op)
  simp only [hs, decodeOperands, decodeOperand_reg]

theorem formatLR_of_assemble {i : Word → Nat → Instr} (hs : op.schema = [k, .reg])
    (hk : operandAccess k = .w16) (hi : ∀ v w, op.assemble [v, w] = i v w.toNat) :
    FormatLR op i := by
  intro m hm h l r rest
  rw [← toNat_regIndex r, ← hi]
  apply decodeWith_cons (m.lookup_code hm op)
  simp only [hs, decodeOperands, decodeOperand_word hk, decodeOperand_reg]

theorem formatRL_of_assemble {i : Nat → Word → Instr} (hs : op.schema = [.reg, k])
    (hk : operandAccess k = .w16) (hi : ∀ v w, op.assemble [v, w] = i v.toNat w) :
    FormatRL op i := by
  intro m hm r h l rest
  rw [← toNat_regIndex r, ← hi]
  apply decodeWith_cons (m.lookup_code hm op)
  simp only [hs, decodeOperands, decodeOperand_word hk, decodeOperand_reg]

theorem formatLA_of_assemble {i : Word → Word → Instr} (hs : op.schema = [k, l])
    (hk : operandAccess k = .w16) (hl : operandAccess l = .w16)
    (hi : ∀ v w, op.assemble [v, w] = i v w) : FormatLA op i := by
  intro m hm h1 l1 h2 l2 rest
  rw [← hi]
  apply decodeWith_cons (m.lookup_code hm op)
  simp only [hs, decodeOperands, decodeOperand_word hk, decodeOperand_word hl]

theorem formatlA_of_assemble {i : Byte → Word → Instr} (hs : op.schema = [.lit8, k])
    (hk : operandAccess k = .w16) (hi : ∀ v w, op.assemble [v, w] = i (lowByte v) w) :
    FormatlA op i := by
  intro m hm b h l rest
  rw [← lowByte_zext16 b, ← hi, lowByte_zext16]
  apply decodeWith_cons (m.lookup_code hm op)
  simp only [hs, decodeOperands, decodeOperand_lit8, decodeOperand_word hk]

theorem formatARR_of_assemble {i : Word → Nat → Nat → Instr} (hs : op.schema = [k, .reg, .reg])
    (hk : operandAccess k = .w16) (hi : ∀ v w x, op.assemble [v, w, x] = i v w.toNat x.toNat) :
    FormatARR op i := by
  intro m hm h l r1 r2 rest
  rw [← toNat_regIndex r1, ← toNat_regIndex r2, ← hi]
  apply decodeWith_cons (m.lookup_code hm op)
  simp only [hs, decodeOperands, decodeOperand_word hk, decodeOperand_reg]

end

namespace Machine

/-! ## One access (40_move R83 to R90) -/

/-- The outcome of a move to memory, by the one write that it makes. -/
theorem finish_moveToMem {addr : Nat} {w : Width} {x : Exec Word} {s : State} {v : Word}
    (hx : x s = .ok v s) :
    (s.ramAccess addr w = true → finish (moveToMem addr w x) s = .next (s.store addr w v)) ∧
    (∀ f, s.accessFault addr w = some f → finish (moveToMem addr w x) s = .next (takeFault f s)) ∧
    (∀ t, memWrite addr w v s = .ok () t → finish (moveToMem addr w x) s = .next t) ∧
    ∀ f t, memWrite addr w v s = .error f t →
      finish (moveToMem addr w x) s = .next (takeFault f t) := by
  have hrun : moveToMem addr w x s = memWrite addr w v s := bind_ok hx
  exact ⟨moveToMem_ram hx, fun _ => moveToMem_fault hx, fun _ h => finish_ok (hrun.trans h),
    fun _ _ h => finish_error (hrun.trans h)⟩

/-- The outcome of a load, by the one read that it makes. -/
theorem finish_moveTo_memRead {addr d : Nat} {w : Width} {x : Exec Word} {s : State} (hd : d < 12)
    (hx : x s = memRead addr w s) :
    (∀ v, s.readAt addr w = some v → finish (moveTo d x) s = .next (s.setReg d v)) ∧
    (∀ f, s.accessFault addr w = some f → finish (moveTo d x) s = .next (takeFault f s)) ∧
    (∀ v t, memRead addr w s = .ok v t → finish (moveTo d x) s = .next (t.setReg d v)) ∧
    ∀ f t, memRead addr w s = .error f t → finish (moveTo d x) s = .next (takeFault f t) :=
  ⟨fun _ h => moveTo_ok hd (hx.trans (memRead_ram h)),
    fun _ h => moveTo_fault (hx.trans (memRead_of_accessFault h)),
    fun _ _ h => moveTo_ok hd (hx.trans h), fun _ _ h => moveTo_fault (hx.trans h)⟩

/-! ## Moves between registers (40_move R81, R82) -/

/-- Settles O33: the value is at hand in a literal or a register, and the write of one of the twelve
registers succeeds. -/
theorem registerMovesCopyTheValue : Obligations.RegisterMovesCopyTheValue := by
  refine ⟨formatLR_of_assemble rfl rfl fun _ _ => rfl, formatRR_of_assemble rfl fun _ _ => rfl, ?_⟩
  exact fun s src d lit hsrc hd => ⟨moveTo_ok hd (pure_apply lit s), moveTo_ok hd (regRead_ok hsrc s)⟩

/-! ## Words to and from memory (40_move R83 to R86) -/

/-- Settles O34: both moves are one write of a value that is at hand. -/
theorem wordMovesStoreOrFault : Obligations.WordMovesStoreOrFault := by
  refine ⟨formatRL_of_assemble rfl rfl fun _ _ => rfl,
    formatLA_of_assemble rfl rfl rfl fun _ _ => rfl, ?_⟩
  rintro s i v addr (rfl | ⟨r, hr, rfl, rfl⟩)
  · exact finish_moveToMem (pure_apply v s)
  · exact finish_moveToMem (regRead_ok hr s)

/-- Settles O36: both loads are one read, at an address that is at hand. -/
theorem loadsReadTheAddressOrFault : Obligations.LoadsReadTheAddressOrFault := by
  refine ⟨formatLR_of_assemble rfl rfl fun _ _ => rfl, formatRR_of_assemble rfl fun _ _ => rfl, ?_⟩
  rintro s i d addr hd (rfl | ⟨p, hp, rfl, rfl⟩)
  · exact finish_moveTo_memRead hd rfl
  · exact finish_moveTo_memRead hd (bind_ok (regRead_ok hp s))

/-! ## Bytes to and from memory (40_move R88 to R90, D19) -/

theorem zext16_eq_setWidth (b : Byte) : zext16 b = b.setWidth 16 := BitVec.ofNat_toNat 16 b

theorem lowByte_eq_setWidth (v : Word) : lowByte v = v.setWidth 8 := BitVec.ofNat_toNat 8 v

theorem State.readAt_w8 (s : State) (addr : Nat) :
    s.readAt addr .w8 = (s.byteAt addr).map zext16 := by
  rw [State.readAt_eq, State.byteAt]
  cases s.resolve addr with
  | none => rfl
  | some p => rfl

/-- A byte read gives a word with a zero high byte, from RAM and from a peripheral (20_memory R33,
R54). -/
theorem toNat_lt_of_memRead_w8 {s t : State} {addr : Nat} {v : Word}
    (h : memRead addr .w8 s = .ok v t) : v.toNat < 256 := by
  rcases memRead_ok_cases h with ⟨-, hv⟩ | ⟨d, a, hr, hd, -⟩
  · rw [State.readAt_w8, Option.map_eq_some_iff] at hv
    obtain ⟨b, -, rfl⟩ := hv
    rw [toNat_zext16]
    exact b.isLt
  · rcases (peripheralAccessIsAnsweredOutside s addr .w8 v d a hr hd).1 with ⟨x, hx, hlt⟩ | hx
    · rw [hx, EStateM.Result.ok.injEq] at h
      exact h.1 ▸ hlt
    · exact nomatch hx.symm.trans h

/-- Settles O35: the stores are one write of the low byte, the load is one read of a byte. -/
theorem byteMovesUseLowByteOrFault : Obligations.ByteMovesUseLowByteOrFault := by
  refine ⟨⟨formatlA_of_assemble rfl rfl fun _ _ => rfl, formatRL_of_assemble rfl rfl fun _ _ => rfl,
    formatLR_of_assemble rfl rfl fun _ _ => rfl⟩, ?_, ?_⟩
  · rintro s i b addr (rfl | ⟨r, hr, rfl, rfl⟩)
    · rw [← zext16_eq_setWidth]
      exact finish_moveToMem (pure_apply (zext16 b) s)
    · rw [← zext16_eq_setWidth, ← lowByte_eq_setWidth]
      exact finish_moveToMem (bind_ok (regRead_ok hr s))
  · intro s d addr hd
    obtain ⟨hram, hfault, hok, herror⟩ := finish_moveTo_memRead hd (Eq.refl (memRead addr.toNat .w8 s))
    refine ⟨fun x hx => hram _ ?_, hfault,
      fun v t h => ⟨hok v t h, toNat_lt_of_memRead_w8 h⟩, herror⟩
    rw [State.readAt_w8, hx, Option.map_some, zext16_eq_setWidth]

/-! ## A load at an unwrapped sum (40_move R87, D18) -/

/-- Regions inside the address space cover no address above it (20_memory R35, R37). -/
theorem State.accessFault_above {s : State} {addr : Nat}
    (hwf : ∀ r ∈ s.mapper.regions, r.wf = true) (h : 0xFFFF < addr) (w : Width) :
    s.accessFault addr w = some (.unmappedAddress addr) := by
  have hfind : s.mapper.find addr = none := by
    refine Mapper.find_eq_none_iff.mpr fun r hr hcov => ?_
    have hr' := hwf r hr
    simp only [Region.wf, Bool.and_eq_true, decide_eq_true_eq] at hr'
    omega
  simp only [State.accessFault, State.resolve, hfind, Option.map_none]

/-- Settles O37: one read at the sum of two naturals, which no region covers above 0xFFFF. -/
theorem offsetLoadReadsUnwrappedSum : Obligations.OffsetLoadReadsUnwrappedSum := by
  refine ⟨formatARR_of_assemble rfl rfl fun _ _ _ => rfl, fun s p d base hp hd => ?_⟩
  obtain ⟨hram, hfault, hok, herror⟩ := finish_moveTo_memRead
    (x := regRead p >>= fun o => memRead (base.toNat + o.toNat) .w16) hd (bind_ok (regRead_ok hp s))
  exact ⟨hram, hfault, hok, herror, fun hwf h => hfault _ (State.accessFault_above hwf h .w16)⟩

/-! ## The registers that an instruction leaves alone -/

/-- Every register outside the list `W` is the same in both states. -/
def SameRegsBut (W : List Nat) (s t : State) : Prop := ∀ j, j ∉ W → t.reg j = s.reg j

namespace SameRegsBut

variable {W : List Nat}

theorem of_regs {s t : State} (h : t.regs = s.regs) : SameRegsBut W s t :=
  fun j _ => by rw [State.reg, State.reg, h]

theorem chain : Chain (SameRegsBut W) where
  refl _ _ _ := rfl
  trans _ _ _ h₁ h₂ j hj := (h₂ j hj).trans (h₁ j hj)

theorem pure {α : Type} (a : α) : Keeps (SameRegsBut W) (Pure.pure a : Exec α) := .pure chain a

theorem regRead (i : Nat) : Keeps (SameRegsBut W) (Machine.regRead i) := .regRead_of_chain chain i

theorem regWrite {i : Nat} (hi : i ∈ W) (v : Word) : Keeps (SameRegsBut W) (Machine.regWrite i v) := by
  intro s t
  unfold Machine.regWrite
  split <;> constructor <;> intro _ h <;> cases h
  · exact fun j hj => State.reg_setReg_ne _ _ _ _ (ne_of_mem_of_not_mem hi hj)
  · exact of_regs rfl

theorem setCfb (v : Word) : Keeps (SameRegsBut W) (Machine.setCfb v) := by
  intro s t
  constructor <;> intro _ h <;> cases h
  exact of_regs rfl

theorem addCfb (n : Int) : Keeps (SameRegsBut W) (Machine.addCfb n) := by
  intro s t
  constructor <;> intro _ h <;> cases h
  exact of_regs rfl

theorem getCfb : Keeps (SameRegsBut W) Machine.getCfb := by
  intro s t
  constructor <;> intro _ h <;> cases h
  exact of_regs rfl

theorem setRun (v : RunState) : Keeps (SameRegsBut W) (Machine.setRun v) := by
  intro s t
  constructor <;> intro _ h <;> cases h
  exact of_regs rfl

theorem memRead (addr : Nat) (w : Width) : Keeps (SameRegsBut W) (Machine.memRead addr w) :=
  fun _ _ => ⟨fun _ h => of_regs (memRead_ok_keeps h).1, fun _ h => of_regs (memRead_error_keeps h).1⟩

theorem memWrite (addr : Nat) (w : Width) (v : Word) :
    Keeps (SameRegsBut W) (Machine.memWrite addr w v) := by
  intro s t
  constructor <;> intro _ h
  · exact fun j _ => (memWrite_ok_keeps h).1 j
  · rcases memWrite_error_cases h with ⟨rfl, -⟩ | ⟨_, _, _, _, rfl, -⟩ | ⟨_, _, rfl, -⟩ <;>
      exact of_regs rfl

/-! The stack, the calls and the return write the registers that 41_stack and 46_call_return name. -/

section

variable (hsp : spIdx ∈ W)
include hsp

theorem push (v : Word) : Keeps (SameRegsBut W) (Machine.push v) :=
  .bind chain (regRead _) fun _ => .bind chain (memWrite _ _ _) fun _ =>
    .bind chain (regWrite hsp _) fun _ => addCfb _

theorem pop : Keeps (SameRegsBut W) Machine.pop :=
  .bind chain (regRead _) fun _ => .bind chain (regWrite hsp _) fun _ =>
    .bind chain (addCfb _) fun _ => memRead _ _

theorem pushRegs (rs : List Nat) : Keeps (SameRegsBut W) (Machine.pushRegs rs) := by
  induction rs with
  | nil => exact pure ()
  | cons r rs ih =>
    exact .bind chain (regRead r) fun _ => .bind chain (push hsp _) fun _ => ih

theorem popRegs {rs : List Nat} (hrs : rs ⊆ W) : Keeps (SameRegsBut W) (Machine.popRegs rs) := by
  induction rs with
  | nil => exact pure ()
  | cons r rs ih =>
    obtain ⟨hr, hrest⟩ := List.cons_subset.mp hrs
    exact .bind chain (pop hsp) fun _ => .bind chain (regWrite hr _) fun _ => ih hrest

theorem popDiscard (n : Nat) : Keeps (SameRegsBut W) (Machine.popDiscard n) := by
  induction n with
  | zero => exact pure ()
  | succ n ih => exact .bind chain (pop hsp) fun _ => ih

variable (hfp : fpIdx ∈ W) (hip : ipIdx ∈ W)
include hfp hip

theorem callTo (target : Word) : Keeps (SameRegsBut W) (Machine.callTo target) :=
  .bind chain (pushRegs hsp _) fun _ => .bind chain (regRead _) fun _ =>
    .bind chain (push hsp _) fun _ => .bind chain getCfb fun _ =>
    .bind chain (push hsp _) fun _ => .bind chain (regRead _) fun _ =>
    .bind chain (regWrite hfp _) fun _ => .bind chain (setCfb _) fun _ => regWrite hip _

theorem returnSequence (hsaved : savedRegs.reverse ⊆ W) :
    Keeps (SameRegsBut W) Machine.returnSequence :=
  .bind chain (regRead _) fun _ => .bind chain (regWrite hsp _) fun _ =>
    .bind chain (pop hsp) fun _ => .bind chain (setCfb _) fun _ =>
    .bind chain (pop hsp) fun _ => .bind chain (regWrite hip _) fun _ =>
    .bind chain (popRegs hsp hsaved) fun _ => .bind chain (pop hsp) fun _ =>
    .bind chain (popDiscard hsp _) fun _ => regWrite hfp _

end

theorem finish {m : Exec Unit} (hm : Keeps (SameRegsBut W) m) {s t : State}
    (h : Machine.finish m s = .next t) : SameRegsBut W s t :=
  Keeps.finish_of_takeFault chain (fun _ _ => of_regs rfl) hm h

/-- The meaning of an instruction, by family: each register write is in the list of its family. -/
theorem exec {i : Instr} {s t : State} (h : Machine.exec i s = .next t) :
    SameRegsBut (mayWrite i) s t := by
  have c {W : List Nat} : Chain (SameRegsBut W) := chain
  have only {r : Nat} (v : Word) : Keeps (SameRegsBut [r]) (Machine.regWrite r v) :=
    regWrite (List.mem_singleton_self r) v
  have call (a : Word) : Keeps (SameRegsBut [spIdx, fpIdx, ipIdx]) (Machine.callTo a) :=
    callTo (by decide) (by decide) (by decide) a
  cases i with
  | nop => exact finish (pure ()) h
  | hlt => exact finish (setRun _) h
  | movLitReg => exact finish (.moveTo c (pure _) only) h
  | movRegReg => exact finish (.moveTo c (regRead _) only) h
  | movMemReg | mov8MemReg => exact finish (.moveTo c (memRead _ _) only) h
  | movRegPtrReg | movLitOffReg =>
    exact finish (.moveTo c (.bind c (regRead _) fun _ => memRead _ _) only) h
  | movRegMem => exact finish (.moveToMem c (regRead _) (memWrite _ _)) h
  | movLitMem | mov8LitMem => exact finish (.moveToMem c (pure _) (memWrite _ _)) h
  | mov8RegMem =>
    exact finish (.moveToMem c (.bind c (regRead _) fun _ => pure _) (memWrite _ _)) h
  | addRegReg | subRegReg | mulRegReg | andRegReg | orRegReg | xorRegReg =>
    exact finish (.binaryToAcc c (regRead _) (regRead _) only) h
  | addLitReg | subLitReg | mulLitReg => exact finish (.binaryToAcc c (pure _) (regRead _) only) h
  | subRegLit | andRegLit | orRegLit | xorRegLit =>
    exact finish (.binaryToAcc c (regRead _) (pure _) only) h
  | notReg => exact finish (.bind c (regRead _) fun _ => only _) h
  | lshRegLit | rshRegLit => exact finish (.shiftInPlace c (pure _) only) h
  | lshRegReg | rshRegReg =>
    exact finish (.shiftInPlace c (.bind c (regRead _) fun _ => pure _) only) h
  | incReg | decReg => exact finish (.updateReg c only) h
  | jmpNotEq | jeqLit | jltLit | jgtLit | jleLit | jgeLit =>
    exact finish (.jumpIf_of_regWrite c (pure _) (only _)) h
  | jeqReg | jneReg | jltReg | jgtReg | jleReg | jgeReg =>
    exact finish (.jumpIf_of_regWrite c (regRead _) (only _)) h
  | pshLit => exact finish (push (List.mem_singleton_self _) _) h
  | pshReg => exact finish (.bind c (regRead _) fun _ => push (List.mem_singleton_self _) _) h
  | pop =>
    exact finish (.bind c (pop (by simp [mayWrite])) fun _ => regWrite (by simp [mayWrite]) _) h
  | calLit => exact finish (call _) h
  | calReg => exact finish (.bind c (regRead _) fun _ => call _) h
  | ret => exact finish (returnSequence (by decide) (by decide) (by decide) (by decide)) h

end SameRegsBut

/-- Settles O48, by the frame of every meaning. -/
theorem otherRegistersAreUnchanged : Obligations.OtherRegistersAreUnchanged :=
  fun _ _ _ j h hj => SameRegsBut.exec h j hj

end Machine

end Sys2Proof
end

section
/-! The stack (41_stack): what one push and one pop do, or what fault they take, and the round
trip of a list of registers through the stack. -/

namespace Sys2Proof

open Machine

/-! ## Layouts of one operand (30_encoding R61, R63, R64) -/

theorem formatR_of_assemble {op : Opcode} {i : Nat → Instr} (hs : op.schema = [.reg])
    (hi : ∀ v, op.assemble [v] = i v.toNat) : FormatR op i := by
  intro m hm r rest
  rw [← toNat_regIndex r, ← hi]
  apply decodeWith_cons (m.lookup_code hm op)
  simp only [hs, decodeOperands, decodeOperand_reg]

theorem formatL_of_assemble {op : Opcode} {k : OperandKind} {i : Word → Instr}
    (hs : op.schema = [k]) (hk : operandAccess k = .w16) (hi : ∀ v, op.assemble [v] = i v) :
    FormatL op i := by
  intro m hm h l rest
  rw [← hi]
  apply decodeWith_cons (m.lookup_code hm op)
  simp only [hs, decodeOperands, decodeOperand_word hk]

namespace Machine

/-! ## One push, one pop (41_stack R100 to R104) -/

/-- The outcome of a push of a value that is at hand, by the one write that it makes. -/
theorem finish_push {x : Exec Word} {s : State} {v : Word} (hx : x s = .ok v s) :
    (s.ramAccess (s.reg spIdx).toNat .w16 = true →
      finish (x >>= push) s = .next (((s.store (s.reg spIdx).toNat .w16 v).setReg spIdx
        (s.reg spIdx - 2)).withCfb (s.cfb + 2))) ∧
    (∀ f, s.accessFault (s.reg spIdx).toNat .w16 = some f →
      finish (x >>= push) s = .next (takeFault f s)) ∧
    (∀ t, memWrite (s.reg spIdx).toNat .w16 v s = .ok () t →
      finish (x >>= push) s = .next ((t.setReg spIdx (s.reg spIdx - 2)).withCfb (s.cfb + 2))) ∧
    ∀ f t, memWrite (s.reg spIdx).toNat .w16 v s = .error f t →
      finish (x >>= push) s = .next (takeFault f t) := by
  have hrun : (x >>= push) s = push v s := bind_ok hx
  exact ⟨fun h => finish_ok (hrun.trans (push_ram v h)),
    fun _ h => finish_error (hrun.trans (push_fault v h)),
    fun _ h => finish_ok (hrun.trans (push_ok h)),
    fun _ _ h => finish_error (hrun.trans (push_error h))⟩

/-- Settles O38: both instructions push a value that is at hand. -/
theorem pushStoresThenMovesSp : Obligations.PushStoresThenMovesSp := by
  refine ⟨formatL_of_assemble rfl rfl fun _ => rfl, formatR_of_assemble rfl fun _ => rfl, ?_⟩
  rintro s i v (rfl | ⟨r, hr, rfl, rfl⟩)
  · exact finish_push (pure_apply v s)
  · exact finish_push (regRead_ok hr s)

/-- Settles O39: the instruction is a move to the register of the word that the pop answers. -/
theorem popMovesSpThenReads : Obligations.PopMovesSpThenReads := by
  refine ⟨formatR_of_assemble rfl fun _ => rfl, fun s d hd => ?_⟩
  exact ⟨fun _ h => moveTo_ok hd (pop_ram h), fun _ h => moveTo_fault (pop_fault h),
    fun _ _ h => moveTo_ok hd ((pop_apply s).trans h),
    fun _ _ h => moveTo_fault ((pop_apply s).trans h)⟩

/-! ## Instructions one after another -/

theorem execSeq_cons {i : Instr} {s t : State} (h : exec i s = .next t) (is : List Instr) :
    execSeq (i :: is) s = execSeq is t := by
  rw [execSeq, h]

/-- A list of `PSH_REG` is the pushes of its registers. -/
theorem execSeq_pshReg {rs : List Nat} {s u : State} (h : pushRegs rs s = .ok () u) :
    execSeq (rs.map Instr.pshReg) s = .next u := by
  induction rs generalizing s with
  | nil => cases h; rfl
  | cons r rs ih =>
    obtain ⟨v, s', hread, hrest⟩ := bind_eq_ok h
    obtain ⟨⟨⟩, t, hpush, htail⟩ := bind_eq_ok hrest
    have hexec : exec (.pshReg r) s = .next t := finish_ok ((bind_ok hread).trans hpush)
    rw [List.map_cons, execSeq_cons hexec, ih htail]

/-- A list of `POP` is the pops into its registers. -/
theorem execSeq_pop {rs : List Nat} {s u : State} (h : popRegs rs s = .ok () u) :
    execSeq (rs.map Instr.pop) s = .next u := by
  induction rs generalizing s with
  | nil => cases h; rfl
  | cons r rs ih =>
    obtain ⟨v, s', hpop, hrest⟩ := bind_eq_ok h
    obtain ⟨⟨⟩, t, hwrite, htail⟩ := bind_eq_ok hrest
    have hexec : exec (.pop r) s = .next t := finish_ok ((bind_ok hpop).trans hwrite)
    rw [List.map_cons, execSeq_cons hexec, ih htail]

/-! ## The bytes of a word and the stores of a list of words

Said through `State.touches`, so under every memory map. -/

@[simp] theorem State.store_touches (s : State) (addr : Nat) (w : Width) (v : Word) (b : Nat)
    (x : Width) : (s.store addr w v).touches b x = s.touches b x := by
  funext d a
  simp only [State.touches, State.store_resolve]

@[simp] theorem State.storeWords_touches (s : State) (a : Word) (vs : List Word) (b : Nat)
    (x : Width) : (s.storeWords a vs).touches b x = s.touches b x := by
  funext d y
  simp only [State.touches, State.storeWords_resolve]

@[simp] theorem State.storeWords_mapper (s : State) (a : Word) (vs : List Word) :
    (s.storeWords a vs).mapper = s.mapper := by
  induction vs generalizing s a with
  | nil => rfl
  | cons v vs ih => rw [State.storeWords, ih, State.store_mapper]

@[simp] theorem State.storeWords_run (s : State) (a : Word) (vs : List Word) :
    (s.storeWords a vs).run = s.run := by
  induction vs generalizing s a with
  | nil => rfl
  | cons v vs ih => rw [State.storeWords, ih, State.store_run]

/-- A store leaves the bytes that its access does not touch. -/
theorem State.deviceByte_store_of_not_touches {s : State} {addr d y : Nat} {w : Width} (v : Word)
    (h : ¬ s.touches addr w d y) : (s.store addr w v).deviceByte d y = s.deviceByte d y := by
  rcases s.store_cases addr w v with ⟨d', a, n, mem, hr, hd, hb, -⟩ | ⟨-, hsame⟩
  · have hram : s.ramAccess addr w = true := by
      rw [State.ramAccess, State.readAt_inside hr hd hb, Option.isSome_some]
    rw [State.deviceByte_store v hr hram, if_neg]
    rintro ⟨rfl, h1, h2⟩
    exact h ⟨a, hr, h1, h2⟩
  · rw [hsame]

/-- The slots below `a - 2` are those below `a`, one further down. -/
theorem stackSlot_succ (a : Word) (k : Nat) :
    a - 2 - BitVec.ofNat 16 (2 * k) = a - BitVec.ofNat 16 (2 * (k + 1)) := by
  bv_omega

/-- The stores of a list of words, downwards from `a`, leave the bytes that none of them touches. -/
theorem State.deviceByte_storeWords_of_not_touches {s : State} {a : Word} {vs : List Word}
    {d y : Nat}
    (h : ∀ k, k < vs.length → ¬ s.touches (a - BitVec.ofNat 16 (2 * k)).toNat .w16 d y) :
    (s.storeWords a vs).deviceByte d y = s.deviceByte d y := by
  induction vs generalizing s a with
  | nil => rfl
  | cons v vs ih =>
    have hfirst : ¬ s.touches a.toNat .w16 d y := by simpa using h 0 (by simp)
    rw [State.storeWords, ih, State.deviceByte_store_of_not_touches v hfirst]
    intro k hk
    rw [State.store_touches, stackSlot_succ]
    exact h (k + 1) (by simpa using hk)

theorem State.sameBytesBut_storeWords (s : State) (a : Word) (vs : List Word) :
    SameBytesBut s (s.storeWords a vs) fun d y => ∃ k, k < vs.length ∧
      s.touches (a - BitVec.ofNat 16 (2 * k)).toNat .w16 d y :=
  sameBytesBut_of_mapper (s.storeWords_mapper a vs) fun _ _ hn =>
    State.deviceByte_storeWords_of_not_touches fun k hk ht => hn ⟨k, hk, ht⟩

/-- What a read gives follows from the bytes that it touches. -/
theorem State.readAt_congr {s t : State} {addr : Nat} {w : Width}
    (hr : t.resolve addr = s.resolve addr)
    (h : ∀ d y, s.touches addr w d y → t.deviceByte d y = s.deviceByte d y) :
    t.readAt addr w = s.readAt addr w := by
  rw [State.readAt_eq, State.readAt_eq, hr]
  cases e : s.resolve addr with
  | none => rfl
  | some p =>
    obtain ⟨d, a⟩ := p
    have hfirst : t.deviceByte d a = s.deviceByte d a :=
      h d a ⟨a, e, Nat.le_refl a, Nat.lt_add_of_pos_right w.bytes_pos⟩
    cases w with
    | w8 => simp only [hfirst]
    | w16 =>
      have hsecond : t.deviceByte d (a + 1) = s.deviceByte d (a + 1) :=
        h d (a + 1) ⟨a, e, Nat.le_succ a, Nat.lt_succ_self (a + 1)⟩
      simp only [hfirst, hsecond]

/-- The words at two addresses share no byte. -/
def State.WordsApart (s : State) (addr addr' : Nat) : Prop :=
  ∀ d y, s.touches addr .w16 d y → ¬ s.touches addr' .w16 d y

/-- A word of a list stored downwards from `a` reads back where no later one overlaps it. -/
theorem State.readAt_storeWords {s : State} {a v : Word} {vs : List Word} {k : Nat}
    (hk : vs[k]? = some v)
    (hram : s.ramAccess (a - BitVec.ofNat 16 (2 * k)).toNat .w16 = true)
    (hlater : ∀ j, k < j → j < vs.length →
      s.WordsApart (a - BitVec.ofNat 16 (2 * k)).toNat (a - BitVec.ofNat 16 (2 * j)).toNat) :
    (s.storeWords a vs).readAt (a - BitVec.ofNat 16 (2 * k)).toNat .w16 = some v := by
  induction vs generalizing s a k with
  | nil => simp at hk
  | cons x vs ih =>
    rw [State.storeWords]
    cases k with
    | zero =>
      obtain rfl : x = v := by simpa using hk
      simp only [Nat.mul_zero, BitVec.sub_zero] at hram hlater ⊢
      rw [State.readAt_congr (s := s.store a.toNat .w16 x) (State.storeWords_resolve _ _ _ _)]
      · exact State.readAt_store_same x hram
      · intro d y hy
        refine State.deviceByte_storeWords_of_not_touches fun j hj => ?_
        rw [State.store_touches] at hy ⊢
        rw [stackSlot_succ]
        exact hlater (j + 1) (Nat.succ_pos j) (by simpa using hj) d y hy
    | succ k =>
      rw [← stackSlot_succ]
      refine ih (by simpa using hk) ?_ fun j hkj hj => ?_
      · rwa [State.ramAccess_store, stackSlot_succ]
      · simp only [State.WordsApart, State.store_touches, stackSlot_succ]
        exact hlater (j + 1) (by omega) (by simpa using hj)

/-! ## An even stack in one full RAM (20_memory R46) -/

theorem State.ramAccess_flatRam {s : State} {addr : Nat} {w : Width} (h : s.FlatRam)
    (ha : addr + w.bytes ≤ 0x10000) : s.ramAccess addr w = true := by
  have hpos := w.bytes_pos
  obtain ⟨d, mem, hr, hd⟩ := State.resolve_flatRam h (addr := addr) (by omega)
  rw [State.ramAccess, State.readAt_inside hr hd ha, Option.isSome_some]

theorem State.touches_flatRam {s : State} {addr d y : Nat} {w : Width} (h : s.FlatRam)
    (ha : addr ≤ 0xFFFF) (ht : s.touches addr w d y) : addr ≤ y ∧ y < addr + w.bytes := by
  obtain ⟨a, hr, h1, h2⟩ := ht
  obtain ⟨d', mem, hr', -⟩ := State.resolve_flatRam h ha
  obtain ⟨-, rfl⟩ := Prod.mk.inj (Option.some.inj (hr'.symm.trans hr))
  exact ⟨h1, h2⟩

theorem State.wordsApart_flatRam {s : State} {a b : Word} (h : s.FlatRam)
    (hab : a.toNat + 2 ≤ b.toNat ∨ b.toNat + 2 ≤ a.toNat) : s.WordsApart a.toNat b.toNat := by
  intro d y hy hy'
  have ha := State.touches_flatRam h (Nat.le_of_lt_succ a.isLt) hy
  have hb := State.touches_flatRam h (Nat.le_of_lt_succ b.isLt) hy'
  simp only [Width.bytes] at ha hb
  omega

/-- The slots of an even stack are even, so a word there does not pass the last address. -/
theorem even_stackSlot {a : Word} (ha : a.toNat % 2 = 0) (k : Nat) :
    (a - BitVec.ofNat 16 (2 * k)).toNat % 2 = 0 := by
  rw [BitVec.toNat_sub, BitVec.toNat_ofNat]
  omega

theorem State.ramAccess_stackSlot {s : State} {a : Word} (h : s.FlatRam) (ha : a.toNat % 2 = 0)
    (k : Nat) : s.ramAccess (a - BitVec.ofNat 16 (2 * k)).toNat .w16 = true := by
  have heven := even_stackSlot ha k
  have hlt := (a - BitVec.ofNat 16 (2 * k)).isLt
  exact State.ramAccess_flatRam h (by simp only [Width.bytes]; omega)

/-- As many slots as the address space has words are all different. -/
theorem State.wordsApart_stackSlots {s : State} {a : Word} {j k : Nat} (h : s.FlatRam)
    (ha : a.toNat % 2 = 0) (hkj : k < j) (hj : j < 32768) :
    s.WordsApart (a - BitVec.ofNat 16 (2 * k)).toNat (a - BitVec.ofNat 16 (2 * j)).toNat := by
  apply State.wordsApart_flatRam h
  have hk' := even_stackSlot ha k
  have hj' := even_stackSlot ha j
  have hne : (a - BitVec.ofNat 16 (2 * k)).toNat ≠ (a - BitVec.ofNat 16 (2 * j)).toNat := by
    bv_omega
  omega

theorem State.readAt_storeWords_stack {s : State} {a v : Word} {vs : List Word} {k : Nat}
    (h : s.FlatRam) (ha : a.toNat % 2 = 0) (hlen : vs.length ≤ 32768) (hk : vs[k]? = some v) :
    (s.storeWords a vs).readAt (a - BitVec.ofNat 16 (2 * k)).toNat .w16 = some v :=
  State.readAt_storeWords hk (State.ramAccess_stackSlot h ha k) fun _ hkj hj =>
    State.wordsApart_stackSlots h ha hkj (Nat.lt_of_lt_of_le hj hlen)

/-! ## Pops after pushes (41_stack R106) -/

theorem State.setReg_held {s : State} {i : Nat} {v : Word} (hi : i < 12) (hv : v = s.reg i) :
    s.setReg i v = s := by
  rw [hv, State.setReg_reg s i hi]

theorem State.withCfb_held {s : State} {v : Word} (hv : v = s.cfb) : s.withCfb v = s := by
  rw [hv]
  rfl

/-- Writing registers with the values that they hold changes nothing. -/
theorem State.setRegs_held {s : State} {l : List (Nat × Word)}
    (h : ∀ x ∈ l, x.1 < 12 ∧ x.2 = s.reg x.1) : s.setRegs l = s := by
  induction l with
  | nil => rfl
  | cons x l ih =>
    obtain ⟨hlt, hval⟩ := h x (by simp)
    rw [State.setRegs, State.setReg_held hlt hval, ih fun y hy => h y (by simp [hy])]

/-- As many pops as there were pushes, into registers other than `sp` and each of the value that the
register held, leave of the pushes only their stores. -/
theorem State.popped_pushed {s : State} {vs : List Word} {l : List (Nat × Word)}
    (hlen : l.length = vs.length) (h : ∀ x ∈ l, x.1 < 12 ∧ x.2 = s.reg x.1)
    (hsp : ∀ x ∈ l, x.1 ≠ spIdx) :
    (s.pushed vs).popped l = s.storeWords (s.reg spIdx) vs := by
  have hregs : (s.storeWords (s.reg spIdx) vs).setRegs l = s.storeWords (s.reg spIdx) vs :=
    State.setRegs_held (by simpa using h)
  rw [State.popped, hlen, State.pushed_sp, State.pushed_cfb, BitVec.sub_add_cancel,
    BitVec.add_sub_cancel, State.pushed, State.setRegs_withCfb, State.setRegs_setReg _ _ _ _ hsp,
    hregs, State.setReg_withCfb, State.setReg_setReg, State.withCfb_withCfb,
    State.setReg_held (by decide) (s.storeWords_reg _ _ spIdx).symm,
    State.withCfb_held (s.storeWords_cfb _ _).symm]

/-- The pops in reverse order after the pushes of registers, in one full RAM with an even stack. -/
theorem popRegs_reverse_pushed {s : State} {rs : List Nat} (h : s.FlatRam)
    (heven : (s.reg spIdx).toNat % 2 = 0) (hlen : rs.length ≤ 32768)
    (hrs : ∀ r ∈ rs, r < 12 ∧ r ≠ spIdx) :
    popRegs rs.reverse (s.pushed (rs.map s.reg)) =
      .ok () (s.storeWords (s.reg spIdx) (rs.map s.reg)) := by
  have hpops := popRegs_ram (s := s.pushed (rs.map s.reg)) (rs.reverse.map fun r => (r, s.reg r))
    (by simpa using hrs) fun k x hx => ?_
  · rw [State.popped_pushed (by simp) (by simpa using fun r hr => (hrs r hr).1)
      (by simpa using fun r hr => (hrs r hr).2)] at hpops
    simpa [Function.comp_def] using hpops
  · rw [List.getElem?_map, Option.map_eq_some_iff] at hx
    obtain ⟨r, hr, rfl⟩ := hx
    have hk : k < rs.length := by simpa using (List.getElem?_eq_some_iff.mp hr).1
    have hslot : (s.pushed (rs.map s.reg)).reg spIdx + BitVec.ofNat 16 (2 + 2 * k) =
        s.reg spIdx - BitVec.ofNat 16 (2 * (rs.length - 1 - k)) := by
      rw [State.pushed_sp, List.length_map]
      bv_omega
    rw [hslot]
    refine State.readAt_storeWords_stack h heven (by simpa using hlen) ?_
    rw [List.getElem?_reverse hk] at hr
    simp [hr]

/-- Settles O45: the pops undo the moves of `sp` and `cfb` and write every register with the value
it holds, so of the pushes only the stores are left. -/
theorem pushesThenPopsRestoreRegisters : Obligations.PushesThenPopsRestoreRegisters := by
  intro s rs hflat heven hlen hrs
  have hrs' : ∀ r ∈ rs, r < 12 ∧ r ≠ spIdx := fun r hr => ⟨(hrs r hr).1, (hrs r hr).2.1⟩
  have hpush : pushRegs rs s = .ok () (s.pushed (rs.map s.reg)) := by
    simpa [State.pushed_nil] using pushRegs_pushed (s := s) [] rs hrs' fun k _ _ =>
      State.ramAccess_stackSlot hflat heven k
  have hpop := popRegs_reverse_pushed hflat heven hlen hrs'
  refine ⟨_, _, execSeq_pshReg hpush, execSeq_pop hpop, fun j => s.storeWords_reg _ _ j,
    s.storeWords_cfb _ _, s.storeWords_run _ _, fun k r hk => ?_, ?_⟩
  · exact State.readAt_storeWords_stack hflat heven (by simpa using hlen) (by simp [hk])
  · simpa using s.sameBytesBut_storeWords (s.reg spIdx) (rs.map s.reg)

end Machine

end Sys2Proof
end

section
/-! Arithmetic (42_arithmetic): the layouts of the sums, differences and products, and the wrapped
result that each leaves in `acc`. -/

namespace Sys2Proof.Machine

/-! Both operands are at hand, in a literal or in one of the twelve registers, so only `acc` is
written; the residue of the integer result is the result on 16-bit words. -/

/-- Settles O24: both instructions write `add16` of their operands, which is the wrapped sum. -/
theorem addWritesWrappedSumToAcc : Obligations.AddWritesWrappedSumToAcc := by
  refine ⟨formatRR_of_assemble rfl fun _ _ => rfl, formatLR_of_assemble rfl rfl fun _ _ => rfl, ?_⟩
  intro s a b lit ha hb
  have readA := regRead_ok ha s
  have readB := regRead_ok hb s
  simp only [← add16_eq]
  exact ⟨binaryToAcc_ok readA readB, binaryToAcc_ok (pure_apply lit s) readB⟩

/-- Settles O25: all three instructions write `sub16` of their operands in the order of the operands
(D12), which is the wrapped difference. -/
theorem subWritesFirstMinusSecondToAcc : Obligations.SubWritesFirstMinusSecondToAcc := by
  refine ⟨formatLR_of_assemble rfl rfl fun _ _ => rfl, formatRL_of_assemble rfl rfl fun _ _ => rfl,
    formatRR_of_assemble rfl fun _ _ => rfl, ?_⟩
  intro s a b lit ha hb
  have readA := regRead_ok ha s
  have readB := regRead_ok hb s
  have literal := pure_apply lit s
  simp only [← sub16_eq]
  exact ⟨binaryToAcc_ok literal readB, binaryToAcc_ok readA literal, binaryToAcc_ok readA readB⟩

/-- Settles O26: both instructions write `mul16` of their operands, which is the low 16 bits of the
product. -/
theorem mulWritesLowProductToAcc : Obligations.MulWritesLowProductToAcc := by
  refine ⟨formatLR_of_assemble rfl rfl fun _ _ => rfl, formatRR_of_assemble rfl fun _ _ => rfl, ?_⟩
  intro s a b lit ha hb
  have readA := regRead_ok ha s
  have readB := regRead_ok hb s
  simp only [← mul16_eq]
  exact ⟨binaryToAcc_ok (pure_apply lit s) readB, binaryToAcc_ok readA readB⟩

end Sys2Proof.Machine
end

section
/-! Logic and shifts (43_logic_shift): the layouts, the bitwise result that a logic instruction leaves
in `acc`, and the logical shift that goes back into the first register. -/

namespace Sys2Proof

open Machine

/-! ## Layout of a register and a byte (30_encoding R61, R63, R64) -/

theorem formatRl_of_assemble {op : Opcode} {i : Nat → Byte → Instr} (hs : op.schema = [.reg, .lit8])
    (hi : ∀ v w, op.assemble [v, w] = i v.toNat (lowByte w)) : FormatRl op i := by
  intro m hm r b rest
  rw [← toNat_regIndex r, ← lowByte_zext16 b, ← hi, lowByte_zext16]
  apply decodeWith_cons (m.lookup_code hm op)
  simp only [hs, decodeOperands, decodeOperand_reg, decodeOperand_lit8]

namespace Machine

/-! ## Logic (43_logic_shift R121 to R127) -/

/-- Settles O27: the operands are at hand, so only `acc` is written; `0xFFFF` minus a word is its
complement. -/
theorem logicWritesBitwiseResultToAcc : Obligations.LogicWritesBitwiseResultToAcc := by
  refine ⟨⟨formatRL_of_assemble rfl rfl fun _ _ => rfl, formatRR_of_assemble rfl fun _ _ => rfl,
    formatRL_of_assemble rfl rfl fun _ _ => rfl, formatRR_of_assemble rfl fun _ _ => rfl,
    formatRL_of_assemble rfl rfl fun _ _ => rfl, formatRR_of_assemble rfl fun _ _ => rfl,
    formatR_of_assemble rfl fun _ => rfl⟩, ?_⟩
  intro s a b lit ha hb
  have readA := regRead_ok ha s
  have readB := regRead_ok hb s
  have literal := pure_apply lit s
  rw [← not16_eq]
  exact ⟨binaryToAcc_ok readA literal, binaryToAcc_ok readA readB,
    binaryToAcc_ok readA literal, binaryToAcc_ok readA readB,
    binaryToAcc_ok readA literal, binaryToAcc_ok readA readB,
    finish_ok ((bind_ok readA).trans (regWrite_acc _ s))⟩

/-! ## Shifts (43_logic_shift R128 to R132) -/

/-- A left shift, by the count that it reads; the count is not reduced (D14). -/
theorem finish_lsh {a k : Nat} {count : Exec Nat} {s : State} (ha : a < 12)
    (hcount : count s = .ok k s) :
    finish (shiftInPlace lsh16 a count) s = .next (s.setReg a (s.reg a <<< k)) := by
  rw [shiftInPlace_ok ha hcount, lsh16_eq]

/-- A right shift, by the count that it reads; it is logical (D15) and the count is not reduced
(D14). -/
theorem finish_rsh {a k : Nat} {count : Exec Nat} {s : State} (ha : a < 12)
    (hcount : count s = .ok k s) :
    finish (shiftInPlace rsh16 a count) s = .next (s.setReg a (s.reg a >>> k)) := by
  rw [shiftInPlace_ok ha hcount, rsh16_eq]

theorem finish_lsh_of_le {a k : Nat} {count : Exec Nat} {s : State} (ha : a < 12)
    (hcount : count s = .ok k s) (hk : 16 ≤ k) :
    finish (shiftInPlace lsh16 a count) s = .next (s.setReg a 0) := by
  have out : s.reg a <<< k = 0 := BitVec.shiftLeft_eq_zero hk
  rw [finish_lsh ha hcount, out]

theorem finish_rsh_of_le {a k : Nat} {count : Exec Nat} {s : State} (ha : a < 12)
    (hcount : count s = .ok k s) (hk : 16 ≤ k) :
    finish (shiftInPlace rsh16 a count) s = .next (s.setReg a 0) := by
  have out : s.reg a >>> k = 0 := BitVec.ushiftRight_eq_zero hk
  rw [finish_rsh ha hcount, out]

/-- The count of a shift by a register is the register's whole value (D13). -/
theorem regCount_ok {b : Nat} (hb : b < 12) (s : State) :
    (regRead b >>= fun n => pure n.toNat) s = .ok (s.reg b).toNat s :=
  bind_ok (regRead_ok hb s)

/-- Settles O28: both forms have their count at hand, in the literal or in the second register, and
a shift by the width of a word or more leaves no bit. -/
theorem shiftsWriteBackToFirstRegister : Obligations.ShiftsWriteBackToFirstRegister := by
  refine ⟨⟨formatRl_of_assemble rfl fun _ _ => rfl, formatRR_of_assemble rfl fun _ _ => rfl,
    formatRl_of_assemble rfl fun _ _ => rfl, formatRR_of_assemble rfl fun _ _ => rfl⟩, ?_, ?_⟩
  · intro s a b n ha hb
    have literal := pure_apply n.toNat s
    have register := regCount_ok hb s
    exact ⟨finish_lsh ha literal, finish_lsh ha register, finish_rsh ha literal,
      finish_rsh ha register⟩
  · intro s a b n ha hb
    have literal := pure_apply n.toNat s
    have register := regCount_ok hb s
    exact ⟨fun hn => ⟨finish_lsh_of_le ha literal hn, finish_rsh_of_le ha literal hn⟩,
      fun hn => ⟨finish_lsh_of_le ha register hn, finish_rsh_of_le ha register hn⟩⟩

end Machine

end Sys2Proof
end

section
/-! Increment and decrement (44_incdec): the layouts, and the wrapped result that goes back into the
named register. -/

namespace Sys2Proof.Machine

/-- `INC_REG` in one of the twelve registers (44_incdec R140). -/
theorem exec_incReg {a : Nat} (ha : a < 12) (s : State) :
    exec (.incReg a) s = .next (s.setReg a (s.reg a + 1)) := by
  rw [← add16_eq]
  exact updateReg_ok ha s

/-- `DEC_REG` in one of the twelve registers (44_incdec R141). -/
theorem exec_decReg {a : Nat} (ha : a < 12) (s : State) :
    exec (.decReg a) s = .next (s.setReg a (s.reg a - 1)) := by
  rw [← sub16_eq]
  exact updateReg_ok ha s

/-- Settles O29: each instruction updates the register that it names, by `add16` or `sub16` of 1,
which wrap. -/
theorem incDecWrapInPlace : Obligations.IncDecWrapInPlace :=
  ⟨formatR_of_assemble rfl fun _ => rfl, formatR_of_assemble rfl fun _ => rfl,
    fun s _ ha => ⟨exec_incReg ha s, exec_decReg ha s⟩⟩

end Sys2Proof.Machine
end

section
/-! Comparison jumps (45_jumps): the layouts, and the jump taken exactly where the named relation
holds between the operand and `acc`. -/

namespace Sys2Proof.Machine

/-! ## The relations (45_jumps R145) -/

theorem Relation.holds_eq_iff {v acc : Word} : Relation.eq.holds v acc = true ↔ v = acc :=
  decide_eq_true_iff.trans BitVec.toNat_inj

theorem Relation.holds_ne_iff {v acc : Word} : Relation.ne.holds v acc = true ↔ v ≠ acc :=
  decide_eq_true_iff.trans (not_congr BitVec.toNat_inj)

theorem Relation.holds_lt_iff {v acc : Word} :
    Relation.lt.holds v acc = true ↔ v.toNat < acc.toNat :=
  decide_eq_true_iff

theorem Relation.holds_gt_iff {v acc : Word} :
    Relation.gt.holds v acc = true ↔ acc.toNat < v.toNat :=
  decide_eq_true_iff

theorem Relation.holds_le_iff {v acc : Word} :
    Relation.le.holds v acc = true ↔ v.toNat ≤ acc.toNat :=
  decide_eq_true_iff

theorem Relation.holds_ge_iff {v acc : Word} :
    Relation.ge.holds v acc = true ↔ acc.toNat ≤ v.toNat :=
  decide_eq_true_iff

/-! ## The jumps (45_jumps R146 to R157) -/

/-- `jumpIf_ok` with the relation read as a proposition about the operand and `acc`. -/
theorem jumpIf_of_holds_iff {rel : Relation} {x : Exec Word} {s : State} {v t : Word} {p : Prop}
    [Decidable p] (hx : x s = .ok v s) (hp : rel.holds v (s.reg accIdx) = true ↔ p) :
    finish (jumpIf rel x t) s = .next (if p then s.setReg ipIdx t else s) := by
  simp only [jumpIf_ok t hx, hp]

/-- Settles O30: the operand is at hand, in the literal or in one of the twelve registers, and words
are equal where their unsigned values are. -/
theorem equalityJumpsCompareWithAcc : Obligations.EqualityJumpsCompareWithAcc := by
  refine ⟨⟨formatLA_of_assemble rfl rfl rfl fun _ _ => rfl,
    formatRL_of_assemble rfl rfl fun _ _ => rfl,
    formatRL_of_assemble rfl rfl fun _ _ => rfl,
    formatLA_of_assemble rfl rfl rfl fun _ _ => rfl⟩, ?_⟩
  intro s r v t hr
  have register := regRead_ok hr s
  have literal := pure_apply v s
  exact ⟨jumpIf_of_holds_iff literal Relation.holds_ne_iff,
    jumpIf_of_holds_iff register Relation.holds_ne_iff,
    jumpIf_of_holds_iff register Relation.holds_eq_iff,
    jumpIf_of_holds_iff literal Relation.holds_eq_iff⟩

/-- Settles O31: `JLT` and `JGE` compare the unsigned values (D17), the operand on the left of `acc`
(D16), in the register form and in the literal form. -/
theorem lessAndNotLessJumpsAreUnsigned : Obligations.LessAndNotLessJumpsAreUnsigned := by
  refine ⟨⟨formatRL_of_assemble rfl rfl fun _ _ => rfl,
    formatLA_of_assemble rfl rfl rfl fun _ _ => rfl,
    formatRL_of_assemble rfl rfl fun _ _ => rfl,
    formatLA_of_assemble rfl rfl rfl fun _ _ => rfl⟩, ?_⟩
  intro s r v t hr
  have register := regRead_ok hr s
  have literal := pure_apply v s
  exact ⟨jumpIf_of_holds_iff register Relation.holds_lt_iff,
    jumpIf_of_holds_iff literal Relation.holds_lt_iff,
    jumpIf_of_holds_iff register Relation.holds_ge_iff,
    jumpIf_of_holds_iff literal Relation.holds_ge_iff⟩

/-- Settles O32: `JGT` and `JLE` compare the unsigned values (D17), the operand on the left of `acc`
(D16), in the register form and in the literal form. -/
theorem greaterAndNotGreaterJumpsAreUnsigned :
    Obligations.GreaterAndNotGreaterJumpsAreUnsigned := by
  refine ⟨⟨formatRL_of_assemble rfl rfl fun _ _ => rfl,
    formatLA_of_assemble rfl rfl rfl fun _ _ => rfl,
    formatRL_of_assemble rfl rfl fun _ _ => rfl,
    formatLA_of_assemble rfl rfl rfl fun _ _ => rfl⟩, ?_⟩
  intro s r v t hr
  have register := regRead_ok hr s
  have literal := pure_apply v s
  exact ⟨jumpIf_of_holds_iff register Relation.holds_gt_iff,
    jumpIf_of_holds_iff literal Relation.holds_gt_iff,
    jumpIf_of_holds_iff register Relation.holds_le_iff,
    jumpIf_of_holds_iff literal Relation.holds_le_iff⟩

end Sys2Proof.Machine
end

section
/-! Call and return (46_call_return): the frame that a call pushes, what a return pops, what each
leaves where an access faults, and the two together. -/

namespace Sys2Proof

open Machine

/-! ## Layout without operands (30_encoding R64) -/

theorem formatN_of_assemble {op : Opcode} {i : Instr} (hs : op.schema = [])
    (hi : op.assemble [] = i) : FormatN op i := by
  intro m hm rest
  rw [← hi]
  apply decodeWith_cons (m.lookup_code hm op)
  simp only [hs, decodeOperands]

namespace Machine

/-! ## Pushes of words in RAM (41_stack R100) -/

/-- Pushes after other pushes, all in RAM. -/
theorem pushWords_pushed {s : State} (vs ws : List Word)
    (h : ∀ k, k < (vs ++ ws).length →
      s.ramAccess (s.reg spIdx - BitVec.ofNat 16 (2 * k)).toNat .w16 = true) :
    pushWords ws (s.pushed vs) = .ok () (s.pushed (vs ++ ws)) := by
  induction ws generalizing vs with
  | nil => rw [List.append_nil]; rfl
  | cons w ws ih =>
    have hpush := push_pushed vs w (h vs.length (by simp))
    rw [pushWords, bind_ok hpush, ih (vs ++ [w]) (by simpa using h), List.append_assoc,
      List.singleton_append]

theorem pushWords_ram {s : State} (vs : List Word)
    (h : ∀ k, k < vs.length →
      s.ramAccess (s.reg spIdx - BitVec.ofNat 16 (2 * k)).toNat .w16 = true) :
    pushWords vs s = .ok () (s.pushed vs) := by
  simpa [State.pushed_nil] using pushWords_pushed (s := s) [] vs h

/-- Where push number `n` faults, those before it stand. -/
theorem pushWords_fault {s : State} {vs : List Word} {n : Nat} {f : Fault} (hn : n < vs.length)
    (h : ∀ k, k < n → s.ramAccess (s.reg spIdx - BitVec.ofNat 16 (2 * k)).toNat .w16 = true)
    (hf : s.accessFault (s.reg spIdx - BitVec.ofNat 16 (2 * n)).toNat .w16 = some f) :
    pushWords vs s = .error f (s.pushed (vs.take n)) := by
  have hlen : (vs.take n).length = n := List.length_take_of_le hn.le
  have hbefore : pushWords (vs.take n) s = .ok () (s.pushed (vs.take n)) :=
    pushWords_ram _ (by rwa [hlen])
  have hfault : push vs[n] (s.pushed (vs.take n)) = .error f (s.pushed (vs.take n)) :=
    push_pushed_fault _ _ (by rwa [hlen])
  calc pushWords vs s
    _ = pushWords (vs.take n ++ vs[n] :: vs.drop (n + 1)) s := by
      rw [← List.drop_eq_getElem_cons hn, List.take_append_drop]
    _ = .error f (s.pushed (vs.take n)) := by
      rw [pushWords_append, bind_ok hbefore, pushWords, bind_error hfault]

/-! ## The call (46_call_return R166) -/

/-- What a call does after its ten pushes. -/
def enterCallee (target : Word) : Exec Unit := do
  let sp ← regRead spIdx
  regWrite fpIdx sp
  setCfb 0
  regWrite ipIdx target

theorem enterCallee_apply (target : Word) (u : State) :
    enterCallee target u =
      .ok () ((u.setRegs [(fpIdx, u.reg spIdx), (ipIdx, target)]).withCfb 0) := rfl

/-- The words of a frame are those of the registers, the return address, and the counter as the first
nine pushes leave it, plus the 2 that the last will add (46_call_return R166). -/
theorem callTo_apply (target : Word) (s : State) :
    callTo target s = (pushWords s.frameWords >>= fun _ => enterCallee target) s := by
  have hframe : s.frameWords = savedRegs.map s.reg ++ [s.reg ipIdx, s.cfb + 20] := rfl
  have hregs : pushRegs savedRegs s = pushWords (savedRegs.map s.reg) s :=
    pushRegs_eq_pushWords savedRegs (by decide) fun _ _ => rfl
  rw [callTo, hframe, bind_apply, bind_apply, pushWords_append, bind_apply, hregs]
  cases hsaved : pushWords (savedRegs.map s.reg) s with
  | error f t => rfl
  | ok _ t =>
    obtain ⟨hreg, -, hcfb⟩ := pushWords_ok_keeps hsaved
    simp only [pushWords]
    rw [bind_ok (regRead_ip t), hreg ipIdx (by decide), bind_apply, bind_apply]
    cases hret : push (s.reg ipIdx) t with
    | error f u => rfl
    | ok _ u =>
      have hsize : add16 u.cfb 2 = s.cfb + 20 := by
        obtain ⟨-, -, hcfbRet⟩ := push_ok_keeps hret
        rw [add16_eq, hcfbRet, hcfb, List.length_map]
        simp only [savedRegs, List.length_cons, List.length_nil]
        bv_omega
      simp only
      rw [bind_ok (getCfb_apply u), hsize, bind_apply, bind_apply]
      cases push (s.cfb + 20) u <;> rfl

theorem exec_calLit_ok {s u : State} (target : Word) (h : pushWords s.frameWords s = .ok () u) :
    exec (.calLit target) s =
      .next ((u.setRegs [(fpIdx, u.reg spIdx), (ipIdx, target)]).withCfb 0) :=
  finish_ok ((callTo_apply target s).trans ((bind_ok h).trans (enterCallee_apply target u)))

theorem exec_calLit_error {s u : State} {f : Fault} (target : Word)
    (h : pushWords s.frameWords s = .error f u) :
    exec (.calLit target) s = .next (takeFault f u) :=
  finish_error ((callTo_apply target s).trans (bind_error h))

/-- The target is read before the pushes (46_call_return R168, D38). -/
theorem exec_calReg {r : Nat} (hr : r < 12) (s : State) :
    exec (.calReg r) s = exec (.calLit (s.reg r)) s := by
  simp only [exec, execCalReg, execCalLit, finish, bind_ok (regRead_ok hr s)]

/-- The state after a call whose pushes all go to RAM. -/
def State.called (s : State) (target : Word) : State :=
  ((s.storeWords (s.reg spIdx) s.frameWords).setRegs
    [(spIdx, s.reg spIdx - 20), (fpIdx, s.reg spIdx - 20), (ipIdx, target)]).withCfb 0

theorem exec_calLit_ram {s : State} (target : Word)
    (h : ∀ k, k < 10 →
      s.ramAccess (s.reg spIdx - BitVec.ofNat 16 (2 * k)).toNat .w16 = true) :
    exec (.calLit target) s = .next (s.called target) := by
  have hlen : BitVec.ofNat 16 (2 * s.frameWords.length) = 20 := rfl
  rw [exec_calLit_ok target (pushWords_ram s.frameWords h), State.pushed_sp, hlen, State.pushed,
    hlen, State.setRegs_withCfb, State.withCfb_withCfb]
  simp only [State.called, State.setRegs]

/-- Settles O40: a call is its ten pushes and, where none faults, the entry into the callee. -/
theorem callPushesTenWordsOrFaults : Obligations.CallPushesTenWordsOrFaults := by
  refine ⟨formatL_of_assemble rfl rfl fun _ => rfl, fun s t => ⟨fun u h => ?_,
    fun f u h => exec_calLit_error t h, exec_calLit_ram t, fun n f hn h hf => ?_⟩⟩
  · obtain ⟨-, hsp, -⟩ := pushWords_ok_keeps h
    exact ⟨exec_calLit_ok t h, hsp⟩
  · have hlen : (s.frameWords.take n).length = n := List.length_take_of_le hn.le
    rw [exec_calLit_error t (pushWords_fault (vs := s.frameWords) hn h hf), State.pushed, hlen]

/-! ## The frame in memory (46_call_return R170) -/

@[simp] theorem State.called_cfb (s : State) (t : Word) : (s.called t).cfb = 0 := rfl

@[simp] theorem State.called_ip (s : State) (t : Word) : (s.called t).reg ipIdx = t := by
  simp [State.called, State.setRegs]

@[simp] theorem State.called_sp (s : State) (t : Word) :
    (s.called t).reg spIdx = s.reg spIdx - 20 := by
  simp [State.called, State.setRegs, State.reg_setReg_self _ _ _ (show spIdx < 12 by decide)]

@[simp] theorem State.called_fp (s : State) (t : Word) :
    (s.called t).reg fpIdx = s.reg spIdx - 20 := by
  simp [State.called, State.setRegs]

@[simp] theorem State.called_readAt (s : State) (t : Word) (addr : Nat) (w : Width) :
    (s.called t).readAt addr w =
      (s.storeWords (s.reg spIdx) s.frameWords).readAt addr w := by
  simp [State.called]

/-- In one full RAM every word is an access but the one at 0xFFFF (20_memory R40, D29). -/
theorem State.ramAccess_w16_flatRam {s : State} {a : Word} (h : s.FlatRam) (ha : a ≠ 0xFFFF) :
    s.ramAccess a.toNat .w16 = true :=
  State.ramAccess_flatRam h (by simp only [Width.bytes]; bv_omega)

/-- Slots differ by a multiple of 2, so different ones share no byte, of an odd stack too. -/
theorem State.wordsApart_slots {s : State} {a : Word} {j k : Nat} (h : s.FlatRam) (hkj : k < j)
    (hj : j < 32768) :
    s.WordsApart (a - BitVec.ofNat 16 (2 * k)).toNat (a - BitVec.ofNat 16 (2 * j)).toNat := by
  apply State.wordsApart_flatRam h
  bv_omega

/-- After the stores of a call in one full RAM the ten words read back, each at its slot. -/
theorem State.readAt_frameWords {s : State} (h : s.FlatRam)
    (hslots : ∀ k, k < 10 → s.reg spIdx - BitVec.ofNat 16 (2 * k) ≠ 0xFFFF) {k : Nat} {v : Word}
    (hk : s.frameWords[k]? = some v) :
    (s.storeWords (s.reg spIdx) s.frameWords).readAt
      (s.reg spIdx - BitVec.ofNat 16 (2 * k)).toNat .w16 = some v := by
  have hlt : k < 10 := (List.getElem?_eq_some_iff.mp hk).1
  refine State.readAt_storeWords hk (State.ramAccess_w16_flatRam h (hslots k hlt)) ?_
  intro j hkj hj
  have hj' : j < 10 := hj
  exact State.wordsApart_slots h hkj (by omega)

/-- Settles O41: both forms are the call of an address that is at hand, and in one full RAM its pushes
are stores that do not overlap. -/
theorem callLeavesFrameInMemory : Obligations.CallLeavesFrameInMemory := by
  refine ⟨formatR_of_assemble rfl fun _ => rfl, fun s r hr => exec_calReg hr s, ?_⟩
  intro s i t hflat hi hslots
  have hexec : exec i s = .next (s.called t) := by
    have hcall := exec_calLit_ram t fun k hk => State.ramAccess_w16_flatRam hflat (hslots k hk)
    rcases hi with rfl | ⟨r, hr, rfl, rfl⟩
    · exact hcall
    · exact (exec_calReg hr s).trans hcall
  refine ⟨s.called t, hexec, fun k v hk => ?_, by simp⟩
  rw [State.called_readAt]
  exact State.readAt_frameWords hflat hslots hk

/-! ## The bytes that a call changes (46_call_return R166, 60_exceptions R202) -/

/-- From `s` to `t` the region list stands and no byte changes but those of the `n` words at `sp`,
`sp - 2`, … of `s`. -/
structure OnlyStackBytes (n : Nat) (s t : State) : Prop where
  mapper : t.mapper = s.mapper
  bytes : ∀ d a, (∀ k, k < n →
      ¬ s.touches (s.reg spIdx - BitVec.ofNat 16 (2 * k)).toNat .w16 d a) →
    t.deviceByte d a = s.deviceByte d a

namespace OnlyStackBytes

theorem of_devices {n : Nat} {s t : State} (hm : t.mapper = s.mapper) (hd : t.devices = s.devices) :
    OnlyStackBytes n s t :=
  ⟨hm, fun d a _ => by simp only [State.deviceByte, State.device, hd]⟩

theorem of_first {n : Nat} {s t : State} (h : OnlyBytesOf (s.reg spIdx).toNat .w16 s t) :
    OnlyStackBytes (n + 1) s t :=
  ⟨h.mapper, fun d a hn => h.bytes d a (by simpa using hn 0 n.succ_pos)⟩

/-- The slots of the pushes after the first are the lower slots of the state before it. -/
theorem cons {n : Nat} {s t u : State} (h : OnlyBytesOf (s.reg spIdx).toNat .w16 s t)
    (hsp : t.reg spIdx = s.reg spIdx - 2) (htu : OnlyStackBytes n t u) :
    OnlyStackBytes (n + 1) s u := by
  refine ⟨htu.mapper.trans h.mapper, fun d a hn => ?_⟩
  rw [htu.bytes d a fun k hk => ?_, (of_first h).bytes d a hn]
  have hslot := hn (k + 1) (Nat.succ_lt_succ hk)
  rw [hsp, stackSlot_succ]
  simpa only [State.touches, State.resolve, h.mapper] using hslot

/-- What follows without a change of the devices, as updates of registers, `cfb` and the run state. -/
theorem trans_devices {n : Nat} {s t u : State} (h : OnlyStackBytes n s t)
    (hm : u.mapper = t.mapper) (hd : u.devices = t.devices) : OnlyStackBytes n s u :=
  ⟨hm.trans h.mapper, fun d a hn => by
    rw [← h.bytes d a hn]
    simp only [State.deviceByte, State.device, hd]⟩

theorem sameBytesBut {n : Nat} {s t : State} (h : OnlyStackBytes n s t) :
    SameBytesBut s t fun d a => ∃ k, k < n ∧
      s.touches (s.reg spIdx - BitVec.ofNat 16 (2 * k)).toNat .w16 d a :=
  sameBytesBut_of_mapper h.mapper fun d a hn => h.bytes d a fun k hk ht => hn ⟨k, hk, ht⟩

end OnlyStackBytes

/-- A push, on any device and whether it faults or not, changes no byte but those of the word at
`sp` (41_stack R100). -/
theorem push_onlyBytesOf (v : Word) (s t : State) :
    (push v s = .ok () t → OnlyBytesOf (s.reg spIdx).toNat .w16 s t) ∧
    ∀ f, push v s = .error f t → OnlyBytesOf (s.reg spIdx).toNat .w16 s t := by
  have hwrite := OnlyBytesOf.memWrite (addr := (s.reg spIdx).toNat) (w := .w16) v s
  rw [push_apply]
  cases hm : memWrite (s.reg spIdx).toNat .w16 v s with
  | ok _ u =>
    refine ⟨fun h => ?_, fun _ h => nomatch h⟩
    cases h
    exact OnlyBytesOf.chain.trans _ _ _ ((hwrite u).1 () hm) (OnlyBytesOf.of_devices rfl rfl)
  | error f u =>
    refine ⟨(nomatch ·), fun _ h => ?_⟩
    cases h
    exact (hwrite _).2 f hm

theorem pushWords_onlyStackBytes (vs : List Word) :
    Keeps (OnlyStackBytes vs.length) (pushWords vs) := by
  induction vs with
  | nil =>
    intro s t
    constructor <;> intro _ h <;> cases h
    exact .of_devices rfl rfl
  | cons v vs ih =>
    intro s t
    constructor
    · intro _ h
      obtain ⟨_, u, hpush, hrest⟩ := bind_eq_ok h
      obtain ⟨-, hsp, -⟩ := push_ok_keeps hpush
      exact .cons ((push_onlyBytesOf v s u).1 hpush) hsp ((ih u t).1 _ hrest)
    · intro f h
      rcases bind_eq_error h with hpush | ⟨_, u, hpush, hrest⟩
      · exact .of_first ((push_onlyBytesOf v s t).2 f hpush)
      · obtain ⟨-, hsp, -⟩ := push_ok_keeps hpush
        exact .cons ((push_onlyBytesOf v s u).1 hpush) hsp ((ih u t).2 f hrest)

theorem exec_calLit_onlyStackBytes {s t : State} {target : Word}
    (h : exec (.calLit target) s = .next t) : OnlyStackBytes 10 s t := by
  have hpushes := pushWords_onlyStackBytes s.frameWords s
  cases hp : pushWords s.frameWords s with
  | ok _ u =>
    rw [exec_calLit_ok target hp] at h
    cases h
    exact ((hpushes u).1 () hp).trans_devices rfl rfl
  | error f u =>
    rw [exec_calLit_error target hp] at h
    cases h
    exact ((hpushes u).2 f hp).trans_devices rfl rfl

/-- Settles O52: a call writes to memory by its ten pushes only, and the slot of each follows from
`sp` before the first. -/
theorem callsChangeOnlyTheFrameBytes : Obligations.CallsChangeOnlyTheFrameBytes := by
  rintro s t i (⟨target, rfl⟩ | ⟨r, rfl⟩) h
  · exact (exec_calLit_onlyStackBytes h).sameBytesBut
  · by_cases hr : r < 12
    · rw [exec_calReg hr] at h
      exact (exec_calLit_onlyStackBytes h).sameBytesBut
    · rw [exec, execCalReg, finish_error (bind_error (regRead_invalid hr s))] at h
      cases h
      exact (OnlyStackBytes.of_devices rfl rfl).sameBytesBut

end Machine

end Sys2Proof
end

section
/-! The return (46_call_return R169 to R171): its pops from any device and from RAM, where each may
fault, and one call with its return. -/

namespace Sys2Proof.Machine

/-! ## Pops from a state with other registers and another `cfb` -/

section

variable {l : List (Nat × Word)} (hl : ∀ x ∈ l, x.1 ≠ spIdx) (c : Word)
include hl

theorem pop_setRegs_withCfb_ok {s u : State} {v : Word} (h : pop s = .ok v u) :
    pop ((s.setRegs l).withCfb c) = .ok v ((u.setRegs l).withCfb (c - 2)) := by
  rw [pop_withCfb, pop_setRegs _ _ hl, h]

theorem pop_setRegs_withCfb_error {s u : State} {f : Fault} (h : pop s = .error f u) :
    pop ((s.setRegs l).withCfb c) = .error f ((u.setRegs l).withCfb (c - 2)) := by
  rw [pop_withCfb, pop_setRegs _ _ hl, h]

theorem popWords_setRegs_withCfb {n : Nat} {s u : State} {ws : List Word}
    (h : popWords n s = .ok ws u) :
    popWords n ((s.setRegs l).withCfb c) =
      .ok ws ((u.setRegs l).withCfb (c - BitVec.ofNat 16 (2 * n))) :=
  popWords_withCfb c (popWords_setRegs l hl h)

end

/-- The pops of at least one word, the first apart. -/
theorem popWords_succ_ok {n : Nat} {s t : State} {w : Word} {ws : List Word}
    (h : popWords (n + 1) s = .ok (w :: ws) t) :
    ∃ u, pop s = .ok w u ∧ popWords n u = .ok ws t := by
  rw [popWords] at h
  obtain ⟨v, u, hpop, hrest⟩ := bind_eq_ok h
  obtain ⟨vs, t', hpops, hpure⟩ := bind_eq_ok hrest
  cases hpure
  exact ⟨u, hpop, hpops⟩

/-! ## The stages of a return (46_call_return R169) -/

theorem returnTargets_writable : ∀ r ∈ returnTargets, r < 12 ∧ r ≠ spIdx := by
  decide

/-- The words popped for the return address and the registers do not go to `sp`. -/
theorem returnTargets_zip_ne_sp (ws : List Word) : ∀ x ∈ returnTargets.zip ws, x.1 ≠ spIdx :=
  fun _ hx => (returnTargets_writable _ (List.of_mem_zip hx).1).2

/-- Words beyond those of the registers are not written to any. -/
theorem returnTargets_zip_take (ws : List Word) :
    returnTargets.zip (ws.take 9) = returnTargets.zip ws :=
  calc returnTargets.zip (ws.take 9)
    _ = (returnTargets.zip ws).take 9 := by simp only [List.zip, List.take_zipWith]; rfl
    _ = returnTargets.zip ws := List.take_of_length_le (by simp [returnTargets])

/-- A return whose pops up to the last register complete has the count and the arguments left. -/
theorem returnSequence_after_registers {s t : State} {w0 : Word} {ws : List Word}
    (h : popWords 10 (s.setReg spIdx (s.reg fpIdx)) = .ok (w0 :: ws) t) :
    returnSequence s = (do
      let n ← pop
      popDiscard n.toNat
      regWrite fpIdx (add16 (s.reg fpIdx) w0) : Exec Unit)
        ((t.setRegs (returnTargets.zip ws)).withCfb (w0 - 18)) := by
  obtain ⟨s1, hsize, hpops⟩ := popWords_succ_ok h
  have hregs := popRegs_popWords returnTargets returnTargets_writable (popWords_withCfb w0 hpops)
  rw [returnSequence_after hsize, bind_ok hregs, State.setRegs_withCfb]
  rfl

/-- A return whose eleven pops of the frame complete has the arguments left. -/
theorem returnSequence_after_frame {s t : State} {w0 n : Word} {ws : List Word}
    (h : popWords 11 (s.setReg spIdx (s.reg fpIdx)) = .ok (w0 :: ws) t) (hn : ws[9]? = some n) :
    returnSequence s = (do
      popDiscard n.toNat
      regWrite fpIdx (add16 (s.reg fpIdx) w0) : Exec Unit)
        ((t.setRegs (returnTargets.zip ws)).withCfb (w0 - 20)) := by
  obtain ⟨hlen, -⟩ := popWords_ok_keeps h
  obtain ⟨t9, hregs, hcount⟩ := popWords_add 10 1 h
  have hdrop : (w0 :: ws).drop 10 = [n] := by
    obtain ⟨hlt, hget⟩ := List.getElem?_eq_some_iff.mp hn
    rw [List.drop_succ_cons, List.drop_eq_getElem_cons hlt, hget, List.drop_of_length_le]
    simp only [List.length_cons] at hlen
    omega
  rw [hdrop] at hcount
  obtain ⟨t10, hpop, hdone⟩ := popWords_succ_ok hcount
  cases hdone
  have hpop' := pop_setRegs_withCfb_ok (returnTargets_zip_ne_sp ws) (w0 - 18) hpop
  have hcfb : w0 - 18 - 2 = w0 - 20 := by bv_omega
  rw [returnSequence_after_registers hregs, returnTargets_zip_take, bind_ok hpop', hcfb]

theorem ofNat_two_mul_toNat (n : Word) : BitVec.ofNat 16 (2 * n.toNat) = 2 * n := by
  bv_omega

/-- A return whose pops all complete, from any device. -/
theorem exec_ret_ok {s t u : State} {w0 n : Word} {ws args : List Word}
    (h : popWords 11 (s.setReg spIdx (s.reg fpIdx)) = .ok (w0 :: ws) t) (hn : ws[9]? = some n)
    (hargs : popWords n.toNat t = .ok args u) :
    exec .ret s = .next (((u.setRegs (returnTargets.zip ws)).setReg fpIdx (s.reg fpIdx + w0)).withCfb
      (w0 - 20 - 2 * n)) := by
  have hdiscard := popDiscard_popWords
    (popWords_setRegs_withCfb (returnTargets_zip_ne_sp ws) (w0 - 20) hargs)
  apply finish_ok
  rw [returnSequence_after_frame h hn, bind_ok hdiscard, regWrite_fp, add16_eq, ofNat_two_mul_toNat,
    State.setReg_withCfb]

/-! ## A return that faults (46_call_return R169, 60_exceptions R188) -/

theorem returnSequence_size_error {s v : State} {f : Fault}
    (hf : pop (s.setReg spIdx (s.reg fpIdx)) = .error f v) : returnSequence s = .error f v := by
  rw [returnSequence, bind_ok (regRead_fp s), bind_ok (regWrite_sp _ _), bind_error hf]

theorem returnSequence_register_error {s u v : State} {w0 : Word} {ws : List Word} {f : Fault}
    (hlen : ws.length < returnTargets.length)
    (h : popWords (ws.length + 1) (s.setReg spIdx (s.reg fpIdx)) = .ok (w0 :: ws) u)
    (hf : pop u = .error f v) :
    returnSequence s = .error f ((v.setRegs (returnTargets.zip ws)).withCfb
      (w0 - BitVec.ofNat 16 (2 * (ws.length + 1)))) := by
  obtain ⟨s1, hsize, hpops⟩ := popWords_succ_ok h
  have htake : (returnTargets.take ws.length).length = ws.length := List.length_take_of_le hlen.le
  have hzip : (returnTargets.take ws.length).zip ws = returnTargets.zip ws := by
    rw [List.zip_eq_zip_take_min (l₁ := returnTargets), Nat.min_eq_right hlen.le, List.take_length]
  have hregs := popRegs_popWords_fault (returnTargets.take ws.length)
    returnTargets[ws.length] (returnTargets.drop (ws.length + 1))
    (fun r hr => returnTargets_writable r (List.mem_of_mem_take hr))
    (by rw [htake]; exact popWords_withCfb w0 hpops)
    (by rw [pop_withCfb, hf])
  rw [← List.drop_eq_getElem_cons hlen, List.take_append_drop, hzip] at hregs
  have hcfb : w0 - BitVec.ofNat 16 (2 * ws.length) - 2 =
      w0 - BitVec.ofNat 16 (2 * (ws.length + 1)) := by bv_omega
  rw [returnSequence_after hsize, bind_error hregs, State.setRegs_withCfb, hcfb]

theorem returnSequence_count_error {s u v : State} {w0 : Word} {ws : List Word} {f : Fault}
    (h : popWords 10 (s.setReg spIdx (s.reg fpIdx)) = .ok (w0 :: ws) u)
    (hf : pop u = .error f v) :
    returnSequence s = .error f ((v.setRegs (returnTargets.zip ws)).withCfb (w0 - 20)) := by
  have hpop := pop_setRegs_withCfb_error (returnTargets_zip_ne_sp ws) (w0 - 18) hf
  have hcfb : w0 - 18 - 2 = w0 - 20 := by bv_omega
  rw [returnSequence_after_registers h, bind_error hpop, hcfb]

/-- `cfb` after pop number `n` of a return, by the words popped before it: the pop of the frame size
counts against the `cfb` of the callee, the later ones against the frame size (D22). -/
def cfbAfterPop (cfb : Word) (n : Nat) : List Word → Word
  | [] => cfb - 2
  | w0 :: _ => w0 - BitVec.ofNat 16 (2 * n)

/-- A return whose pop number `n` of the eleven of the frame faults, on any device. -/
theorem exec_ret_frame_error {s u v : State} {n : Nat} {ws : List Word} {f : Fault} (hn : n < 11)
    (h : popWords n (s.setReg spIdx (s.reg fpIdx)) = .ok ws u) (hf : pop u = .error f v) :
    exec .ret s = .next (takeFault f ((v.setRegs (returnTargets.zip (ws.drop 1))).withCfb
      (cfbAfterPop s.cfb n ws))) := by
  apply finish_error
  obtain ⟨rfl, -⟩ := popWords_ok_keeps h
  match ws with
  | [] =>
    cases h
    obtain ⟨-, -, hcfb, -⟩ := pop_error_keeps hf
    rw [returnSequence_size_error hf]
    exact congrArg _ (State.withCfb_held hcfb.symm).symm
  | w0 :: ws =>
    rcases Nat.lt_succ_iff_lt_or_eq.mp (Nat.succ_lt_succ_iff.mp hn) with hlt | hlen
    · exact returnSequence_register_error hlt h hf
    · simp only [List.length_cons, hlen] at h ⊢
      exact returnSequence_count_error h hf

/-- A return whose pop of argument number `m` faults, on any device. -/
theorem exec_ret_argument_error {s t u v : State} {w0 n : Word} {m : Nat} {ws args : List Word}
    {f : Fault} (h : popWords 11 (s.setReg spIdx (s.reg fpIdx)) = .ok (w0 :: ws) t)
    (hn : ws[9]? = some n) (hm : m < n.toNat) (hargs : popWords m t = .ok args u)
    (hf : pop u = .error f v) :
    exec .ret s = .next (takeFault f ((v.setRegs (returnTargets.zip ws)).withCfb
      (w0 - 22 - BitVec.ofNat 16 (2 * m)))) := by
  have hl := returnTargets_zip_ne_sp ws
  have hdiscard := popDiscard_popWords_fault hm (popWords_setRegs_withCfb hl (w0 - 20) hargs)
    (pop_setRegs_withCfb_error hl _ hf)
  have hcfb : w0 - 20 - BitVec.ofNat 16 (2 * m) - 2 = w0 - 22 - BitVec.ofNat 16 (2 * m) := by
    bv_omega
  apply finish_error
  rw [returnSequence_after_frame h hn, bind_error hdiscard, hcfb]

/-! ## Pops of words in RAM (41_stack R101) -/

/-- The state after `n` words in RAM are popped and not written to any register. -/
def State.dropped (s : State) (n : Nat) : State :=
  (s.setReg spIdx (s.reg spIdx + BitVec.ofNat 16 (2 * n))).withCfb
    (s.cfb - BitVec.ofNat 16 (2 * n))

@[simp] theorem State.dropped_sp (s : State) (n : Nat) :
    (s.dropped n).reg spIdx = s.reg spIdx + BitVec.ofNat 16 (2 * n) :=
  State.reg_setReg_self _ _ _ (by decide)

@[simp] theorem State.dropped_cfb (s : State) (n : Nat) :
    (s.dropped n).cfb = s.cfb - BitVec.ofNat 16 (2 * n) := rfl

@[simp] theorem State.dropped_readAt (s : State) (n addr : Nat) (w : Width) :
    (s.dropped n).readAt addr w = s.readAt addr w := rfl

@[simp] theorem State.dropped_ramAccess (s : State) (n addr : Nat) (w : Width) :
    (s.dropped n).ramAccess addr w = s.ramAccess addr w := rfl

@[simp] theorem State.dropped_accessFault (s : State) (n addr : Nat) (w : Width) :
    (s.dropped n).accessFault addr w = s.accessFault addr w := rfl

theorem State.dropped_zero (s : State) : s.dropped 0 = s := by
  simp only [State.dropped, Nat.mul_zero, BitVec.add_zero, BitVec.sub_zero,
    State.setReg_reg s spIdx (by decide)]
  rfl

theorem State.dropped_dropped (s : State) (m n : Nat) :
    (s.dropped m).dropped n = s.dropped (m + n) := by
  have hsp : s.reg spIdx + BitVec.ofNat 16 (2 * m) + BitVec.ofNat 16 (2 * n) =
      s.reg spIdx + BitVec.ofNat 16 (2 * (m + n)) := by bv_omega
  have hcfb : s.cfb - BitVec.ofNat 16 (2 * m) - BitVec.ofNat 16 (2 * n) =
      s.cfb - BitVec.ofNat 16 (2 * (m + n)) := by bv_omega
  rw [State.dropped, State.dropped_sp, State.dropped_cfb, hsp, hcfb, State.dropped,
    State.setReg_withCfb, State.setReg_setReg, State.withCfb_withCfb, State.dropped]

/-- Words that are dropped after `sp` is set are counted from there. -/
theorem State.dropped_setReg_sp (s : State) (a : Word) (n : Nat) :
    (s.setReg spIdx a).dropped n =
      (s.setReg spIdx (a + BitVec.ofNat 16 (2 * n))).withCfb (s.cfb - BitVec.ofNat 16 (2 * n)) := by
  rw [State.dropped, State.reg_setReg_self _ _ _ (by decide), State.setReg_setReg, State.setReg_cfb]

theorem pop_ram_dropped {s : State} {v : Word} (h : s.readAt (s.reg spIdx + 2).toNat .w16 = some v) :
    pop s = .ok v (s.dropped 1) := pop_ram h

theorem pop_fault_dropped {s : State} {f : Fault}
    (h : s.accessFault (s.reg spIdx + 2).toNat .w16 = some f) :
    pop s = .error f (s.dropped 1) := pop_fault h

theorem popWords_ram {s : State} {n : Nat} {w : Nat → Word}
    (h : ∀ k, k < n →
      s.readAt (s.reg spIdx + BitVec.ofNat 16 (2 + 2 * k)).toNat .w16 = some (w k)) :
    popWords n s = .ok ((List.range n).map w) (s.dropped n) := by
  induction n generalizing s w with
  | zero => rw [State.dropped_zero]; rfl
  | succ n ih =>
    have hrest : popWords n (s.dropped 1) = .ok ((List.range n).map fun k => w (k + 1))
        ((s.dropped 1).dropped n) := ih fun k hk => by
      have hslot : s.reg spIdx + BitVec.ofNat 16 (2 * 1) + BitVec.ofNat 16 (2 + 2 * k) =
          s.reg spIdx + BitVec.ofNat 16 (2 + 2 * (k + 1)) := by bv_omega
      rw [State.dropped_sp, State.dropped_readAt, hslot]
      exact h (k + 1) (Nat.succ_lt_succ hk)
    rw [popWords, bind_ok (pop_ram_dropped (h 0 n.succ_pos)), bind_ok hrest, pure_apply,
      State.dropped_dropped, Nat.add_comm, List.range_succ_eq_map, List.map_cons, List.map_map]
    rfl

/-- Where only the accesses are known to be in RAM, the words are some. -/
theorem popWords_ramAccess {s : State} {n : Nat}
    (h : ∀ k, k < n →
      s.ramAccess (s.reg spIdx + BitVec.ofNat 16 (2 + 2 * k)).toNat .w16 = true) :
    ∃ ws, popWords n s = .ok ws (s.dropped n) :=
  ⟨_, popWords_ram (w := fun k =>
    (s.readAt (s.reg spIdx + BitVec.ofNat 16 (2 + 2 * k)).toNat .w16).getD 0) fun k hk => by
      obtain ⟨v, hv⟩ := Option.isSome_iff_exists.mp (h k hk)
      rw [hv, Option.getD_some]⟩

/-- Pops in RAM, then one that faults. -/
theorem pop_dropped_fault {s : State} {n : Nat} {f : Fault}
    (h : s.accessFault (s.reg spIdx + BitVec.ofNat 16 (2 + 2 * n)).toNat .w16 = some f) :
    pop (s.dropped n) = .error f (s.dropped (n + 1)) := by
  rw [← State.dropped_dropped]
  apply pop_fault_dropped
  have hslot : s.reg spIdx + BitVec.ofNat 16 (2 * n) + 2 =
      s.reg spIdx + BitVec.ofNat 16 (2 + 2 * n) := by bv_omega
  rwa [State.dropped_sp, State.dropped_accessFault, hslot]

/-! ## The return in RAM -/

/-- The slots of a return's pops are counted from `fp`, which `sp` is set to first. -/
theorem popWords_return_ram {s : State} {n : Nat} {w : Nat → Word}
    (h : ∀ k, k < n →
      s.readAt (s.reg fpIdx + BitVec.ofNat 16 (2 + 2 * k)).toNat .w16 = some (w k)) :
    popWords n (s.setReg spIdx (s.reg fpIdx)) =
      .ok ((List.range n).map w) ((s.setReg spIdx (s.reg fpIdx)).dropped n) :=
  popWords_ram fun k hk => by
    rw [State.reg_setReg_self _ _ _ (by decide), State.readAt_setReg]
    exact h k hk

/-- The slot of argument number `k`, from `fp` and from where the eleven pops leave `sp`. -/
theorem argumentSlot (fp : Word) (k : Nat) :
    fp + BitVec.ofNat 16 (2 * 11) + BitVec.ofNat 16 (2 + 2 * k) =
      fp + BitVec.ofNat 16 (24 + 2 * k) := by
  bv_omega

theorem popWords_arguments_ram {s : State} {m : Nat}
    (h : ∀ k, k < m →
      s.ramAccess (s.reg fpIdx + BitVec.ofNat 16 (24 + 2 * k)).toNat .w16 = true) :
    ∃ args, popWords m ((s.setReg spIdx (s.reg fpIdx)).dropped 11) =
      .ok args ((s.setReg spIdx (s.reg fpIdx)).dropped (11 + m)) := by
  rw [← State.dropped_dropped]
  apply popWords_ramAccess
  intro k hk
  rw [State.dropped_sp, State.dropped_ramAccess, State.reg_setReg_self _ _ _ (by decide),
    State.ramAccess_setReg, argumentSlot]
  exact h k hk

/-- Setting the popped registers and `cfb` of the state that a return's pops in RAM leave. -/
theorem State.setRegs_dropped_setReg_sp (s : State) (a c : Word) (n : Nat)
    {l : List (Nat × Word)} (hl : ∀ x ∈ l, x.1 ≠ spIdx) :
    (((s.setReg spIdx a).dropped n).setRegs l).withCfb c =
      ((s.setRegs l).setReg spIdx (a + BitVec.ofNat 16 (2 * n))).withCfb c := by
  rw [State.dropped_setReg_sp, State.setRegs_withCfb, State.withCfb_withCfb,
    State.setRegs_setReg _ _ _ _ hl]

/-- Settles O42: in RAM the pops are those from any device with the words that the slots hold. -/
theorem returnPopsFrameAndArguments : Obligations.ReturnPopsFrameAndArguments := by
  refine ⟨formatN_of_assemble rfl rfl, fun s w hframe hargs => ?_, ?_⟩
  · obtain ⟨args, hpops⟩ := popWords_arguments_ram hargs
    have hexec := exec_ret_ok (popWords_return_ram hframe) (n := w 10) rfl hpops
    have hsp : s.reg fpIdx + BitVec.ofNat 16 (2 * (11 + (w 10).toNat)) =
        s.reg fpIdx + 22 + 2 * w 10 := by bv_omega
    rw [← State.setReg_withCfb, State.setRegs_dropped_setReg_sp _ _ _ _ (returnTargets_zip_ne_sp _),
      hsp] at hexec
    exact hexec
  · intro s t u w0 w1 w2 w3 w4 w5 w6 w7 w8 w9 n args hframe hargs
    obtain ⟨-, -, hspFrame, -, hrunFrame, hdevFrame⟩ := popWords_ok_keeps hframe
    obtain ⟨-, -, hspArgs, -, hrunArgs, hdevArgs⟩ := popWords_ok_keeps hargs
    have hexec := exec_ret_ok hframe rfl hargs
    refine ⟨hexec, ?_, hdevArgs.trans hdevFrame, hrunArgs.trans hrunFrame⟩
    rw [hspArgs, hspFrame, State.reg_setReg_self _ _ _ (by decide), ofNat_two_mul_toNat]
    rfl

/-- Where pop number `n` after those of the return's start faults, `sp` is at the address of that pop
and no device has changed. -/
theorem pop_error_after_popWords {s u v : State} {a : Word} {n : Nat} {ws : List Word} {f : Fault}
    (h : popWords n (s.setReg spIdx a) = .ok ws u) (hf : pop u = .error f v) :
    v.reg spIdx = a + BitVec.ofNat 16 (2 + 2 * n) ∧ v.devices = s.devices := by
  obtain ⟨-, -, hsp, -, -, hdev⟩ := popWords_ok_keeps h
  obtain ⟨-, hsp', -, -, hdev'⟩ := pop_error_keeps hf
  refine ⟨?_, hdev'.trans hdev⟩
  rw [hsp', hsp, State.reg_setReg_self _ _ _ (by decide)]
  bv_omega

/-- The words of the pops before number `n`, without the frame size, by the registers they go to:
eleven lists, each computed. -/
theorem returnTargets_zip_range (w : Nat → Word) {n : Nat} (hn : n < 11) :
    returnTargets.zip (((List.range n).map w).drop 1) =
      (returnTargets.zip [w 1, w 2, w 3, w 4, w 5, w 6, w 7, w 8, w 9]).take (n - 1) := by
  interval_cases n <;> rfl

theorem cfbAfterPop_range (cfb : Word) (n : Nat) (w : Nat → Word) :
    cfbAfterPop cfb n ((List.range n).map w) =
      if n = 0 then cfb - 2 else w 0 - BitVec.ofNat 16 (2 * n) := by
  cases n with
  | zero => rfl
  | succ n => rw [List.range_succ_eq_map, List.map_cons, if_neg n.succ_ne_zero, cfbAfterPop]

/-- Settles O43: in RAM the pops are those from any device with the words that the slots hold, and
the fault is the one that the slot raises. -/
theorem returnFaultKeepsEarlierPops : Obligations.ReturnFaultKeepsEarlierPops := by
  refine ⟨fun s w f => ⟨fun n hn hread hf => ?_, fun m hm hread hram hf => ?_⟩, ?_, ?_⟩
  · have hfault : pop ((s.setReg spIdx (s.reg fpIdx)).dropped n) =
        .error f ((s.setReg spIdx (s.reg fpIdx)).dropped (n + 1)) :=
      pop_dropped_fault (by rwa [State.reg_setReg_self _ _ _ (by decide)])
    have hexec := exec_ret_frame_error hn (popWords_return_ram hread) hfault
    rw [State.setRegs_dropped_setReg_sp _ _ _ _ (returnTargets_zip_ne_sp _),
      returnTargets_zip_range w hn, cfbAfterPop_range, Nat.mul_succ, Nat.add_comm] at hexec
    exact hexec
  · have hslot : 2 + 2 * (11 + m) = 24 + 2 * m := by omega
    obtain ⟨args, hpops⟩ := popWords_arguments_ram hram
    have hfault : pop ((s.setReg spIdx (s.reg fpIdx)).dropped (11 + m)) =
        .error f ((s.setReg spIdx (s.reg fpIdx)).dropped (11 + m + 1)) :=
      pop_dropped_fault (by
        rw [State.reg_setReg_self _ _ _ (by decide), hslot]
        exact hf)
    have hexec := exec_ret_argument_error (popWords_return_ram hread) rfl hm hpops hfault
    rw [State.setRegs_dropped_setReg_sp _ _ _ _ (returnTargets_zip_ne_sp _), Nat.mul_succ,
      Nat.add_comm, hslot] at hexec
    exact hexec
  · intro s u v n ws f hn h hf
    have hexec := exec_ret_frame_error hn h hf
    refine ⟨?_, pop_error_after_popWords h hf⟩
    cases ws with
    | nil => exact hexec
    | cons w0 ws => exact hexec
  · intro s t u v w0 n m ws args f hframe hcount hm hargs hf
    refine ⟨exec_ret_argument_error hframe hcount hm hargs hf, ?_⟩
    obtain ⟨-, -, hsp, -, -, hdev⟩ := popWords_ok_keeps hframe
    obtain ⟨-, -, hsp', -, -, hdev'⟩ := popWords_ok_keeps hargs
    obtain ⟨-, hsp'', -, -, hdev''⟩ := pop_error_keeps hf
    refine ⟨?_, (hdev''.trans hdev').trans hdev⟩
    rw [hsp'', hsp', hsp, State.reg_setReg_self _ _ _ (by decide)]
    bv_omega

/-! ## A call and its return (46_call_return R170, R171) -/

/-- The word above the frame is not one of the ten that a call stores. -/
theorem State.readAt_above_frame {s : State} (h : s.FlatRam) :
    (s.storeWords (s.reg spIdx) s.frameWords).readAt (s.reg spIdx + 2).toNat .w16 =
      s.readAt (s.reg spIdx + 2).toNat .w16 := by
  refine State.readAt_congr (State.storeWords_resolve _ _ _ _) fun d y hy => ?_
  refine State.deviceByte_storeWords_of_not_touches fun k hk => ?_
  have hk' : k < 10 := hk
  have hapart := State.wordsApart_slots (a := s.reg spIdx + 2) h k.succ_pos (by omega)
  have hslot : s.reg spIdx + 2 - BitVec.ofNat 16 (2 * (k + 1)) =
      s.reg spIdx - BitVec.ofNat 16 (2 * k) := by bv_omega
  rw [Nat.mul_zero, BitVec.sub_zero, Nat.succ_eq_add_one, hslot] at hapart
  exact hapart d y hy

/-- The word that pop number `k` of the return finds after a call with `n` on top of the stack. -/
def State.returnWord (s : State) (n : Word) (k : Nat) : Word := (n :: s.frameWords).getD (10 - k) 0

/-- A return pops the count and the frame from the last word pushed to the first. -/
theorem State.called_readAt_returnWord {s : State} {n : Word} (t : Word) (h : s.FlatRam)
    (hslots : ∀ k, k < 10 → s.reg spIdx - BitVec.ofNat 16 (2 * k) ≠ 0xFFFF)
    (hn : s.readAt (s.reg spIdx + 2).toNat .w16 = some n) {k : Nat} (hk : k < 11) :
    (s.called t).readAt ((s.called t).reg fpIdx + BitVec.ofNat 16 (2 + 2 * k)).toNat .w16 =
      some (s.returnWord n k) := by
  rw [State.called_readAt, State.called_fp]
  by_cases hlast : k = 10
  · have hslot : s.reg spIdx - 20 + BitVec.ofNat 16 (2 + 2 * 10) = s.reg spIdx + 2 := by bv_omega
    rw [hlast, hslot, State.readAt_above_frame h, hn]
    rfl
  · have hslot : s.reg spIdx - 20 + BitVec.ofNat 16 (2 + 2 * k) =
        s.reg spIdx - BitVec.ofNat 16 (2 * (9 - k)) := by bv_omega
    have hlt : 9 - k < s.frameWords.length := Nat.lt_succ_of_le (Nat.sub_le 9 k)
    have hword : s.frameWords[9 - k]? = some (s.returnWord n k) := by
      have hindex : 10 - k = (9 - k) + 1 := by omega
      rw [State.returnWord, hindex, List.getD_cons_succ, List.getElem?_eq_getElem hlt,
        List.getD_eq_getElem _ _ hlt]
    rw [hslot]
    exact State.readAt_frameWords h hslots hword

/-- An even stack has no word at the last address. -/
theorem even_slot_ne {a : Word} (ha : a.toNat % 2 = 0) (k : Nat) :
    a - BitVec.ofNat 16 (2 * k) ≠ 0xFFFF := by
  have heven := even_stackSlot ha k
  intro h
  rw [h] at heven
  exact absurd heven (by decide)

theorem even_sub {a b : Word} (ha : a.toNat % 2 = 0) (hb : b.toNat % 2 = 0) :
    (a - b).toNat % 2 = 0 := by
  bv_omega

theorem even_two_mul (n : Word) : (2 * n).toNat % 2 = 0 := by
  bv_omega

/-- In one full RAM the arguments of an even stack can be popped, whatever their number. -/
theorem ramAccess_argument {u : State} {fp : Word} (h : u.FlatRam) (heven : fp.toNat % 2 = 0)
    (k : Nat) : u.ramAccess (fp + BitVec.ofNat 16 (24 + 2 * k)).toNat .w16 = true :=
  State.ramAccess_w16_flatRam h (by bv_omega)

@[simp] theorem State.setRegs_devices (s : State) (l : List (Nat × Word)) :
    (s.setRegs l).devices = s.devices := by
  induction l generalizing s with
  | nil => rfl
  | cons x l ih => rw [State.setRegs, ih, State.setReg_devices]

@[simp] theorem State.setRegs_run (s : State) (l : List (Nat × Word)) :
    (s.setRegs l).run = s.run := by
  induction l generalizing s with
  | nil => rfl
  | cons x l ih => rw [State.setRegs, ih, State.setReg_run]

/-- A register that a list of register writes names once holds what the list gives it. -/
theorem State.setRegs_reg_of_mem {s : State} {l : List (Nat × Word)} {j : Nat} {v : Word}
    (hl : (l.map Prod.fst).Nodup) (hj : j < 12) (h : (j, v) ∈ l) : (s.setRegs l).reg j = v := by
  induction l generalizing s with
  | nil => exact nomatch h
  | cons x l ih =>
    obtain ⟨hx, hl⟩ := List.nodup_cons.mp hl
    rw [State.setRegs]
    rcases List.mem_cons.mp h with rfl | h
    · rw [State.setRegs_reg_of_not_mem, State.reg_setReg_self _ _ _ hj]
      exact fun y hy e => hx (List.mem_map.mpr ⟨y, hy, e⟩)
    · exact ih hl h

/-- What the return of an episode writes: the registers that it pops, as the caller `s` had them, and
its own `sp` and `fp`. -/
def State.callerRegs (s : State) (sp fp : Word) : List (Nat × Word) :=
  (returnTargets.map fun j => (j, s.reg j)) ++ [(spIdx, sp), (fpIdx, fp)]

theorem State.callerRegs_keys (s : State) (sp fp : Word) :
    (s.callerRegs sp fp).map Prod.fst = returnTargets ++ [spIdx, fpIdx] := rfl

theorem State.setRegs_callerRegs_reg (s u : State) (sp fp : Word) {j : Nat} {v : Word} (hj : j < 12)
    (h : (j, v) ∈ s.callerRegs sp fp) : (u.setRegs (s.callerRegs sp fp)).reg j = v :=
  State.setRegs_reg_of_mem (by rw [State.callerRegs_keys]; decide) hj h

theorem State.setRegs_callerRegs_popped (s u : State) (sp fp : Word) {j : Nat}
    (h : j ∈ returnTargets) : (u.setRegs (s.callerRegs sp fp)).reg j = s.reg j :=
  State.setRegs_callerRegs_reg s u sp fp (returnTargets_writable j h).1
    (List.mem_append_left _ (List.mem_map_of_mem h))

theorem State.setRegs_callerRegs_sp (s u : State) (sp fp : Word) :
    (u.setRegs (s.callerRegs sp fp)).reg spIdx = sp :=
  State.setRegs_callerRegs_reg s u sp fp (by decide) (List.mem_append_right _ List.mem_cons_self)

theorem State.setRegs_callerRegs_fp (s u : State) (sp fp : Word) :
    (u.setRegs (s.callerRegs sp fp)).reg fpIdx = fp :=
  State.setRegs_callerRegs_reg s u sp fp (by decide)
    (List.mem_append_right _ (List.mem_cons_of_mem _ List.mem_cons_self))

theorem State.setRegs_callerRegs_acc (s u : State) (sp fp : Word) :
    (u.setRegs (s.callerRegs sp fp)).reg accIdx = u.reg accIdx := by
  refine State.setRegs_reg_of_not_mem _ _ fun x hx e => ?_
  have hkey := List.mem_map_of_mem (f := Prod.fst) hx
  rw [State.callerRegs_keys, e] at hkey
  exact absurd hkey (by decide)

/-- The return from a call, from any state with the call's `fp` and the words above it. -/
theorem exec_ret_of_returnWord {s u : State} {n : Word}
    (hframe : ∀ k, k < 11 →
      u.readAt (u.reg fpIdx + BitVec.ofNat 16 (2 + 2 * k)).toNat .w16 = some (s.returnWord n k))
    (hargs : ∀ k, k < n.toNat →
      u.ramAccess (u.reg fpIdx + BitVec.ofNat 16 (24 + 2 * k)).toNat .w16 = true) :
    exec .ret u = .next ((u.setRegs
      (s.callerRegs (u.reg fpIdx + 22 + 2 * n) (u.reg fpIdx + (s.cfb + 20)))).withCfb
        (s.cfb + 20 - 20 - 2 * n)) := by
  obtain ⟨-, hram, -⟩ := returnPopsFrameAndArguments
  exact hram u (s.returnWord n) hframe hargs

/-- Settles O44: the return pops the words that the call pushed, and the sums and differences of
`sp`, `fp` and `cfb` cancel but for the pop of the frame size, which `cfb` does not see (D22). -/
theorem callEpisodeRestoresCaller : Obligations.CallEpisodeRestoresCaller := by
  intro s S0 P n t hflat heven hsp hcfb hn
  have hbase : s.reg spIdx - 20 = S0 - 2 * n - 22 := by rw [hsp]; ring
  have hsize : s.cfb + 20 = P + 2 * n + 22 := by rw [hcfb]; ring
  have hargEven : (S0 - 2 * n).toNat % 2 = 0 := even_sub heven (even_two_mul n)
  have hspEven : (s.reg spIdx).toNat % 2 = 0 := hsp ▸ even_sub hargEven (by decide)
  have hslots (k : Nat) (_ : k < 10) : s.reg spIdx - BitVec.ofNat 16 (2 * k) ≠ 0xFFFF :=
    even_slot_ne hspEven k
  have hcount : s.readAt (s.reg spIdx + 2).toNat .w16 = some n := by
    rwa [hsp, BitVec.sub_add_cancel]
  have hwords {k : Nat} (hk : k < 11) := State.called_readAt_returnWord t hflat hslots hcount hk
  rw [State.called_fp, hbase] at hwords
  have hcall := exec_calLit_ram t fun k hk => State.ramAccess_w16_flatRam hflat (hslots k hk)
  refine ⟨s.called t, hcall, s.called_ip t, s.called_cfb t, (s.called_sp t).trans hbase,
    (s.called_fp t).trans (s.called_sp t).symm, ?_, fun u huflat hufp hsame => ?_⟩
  · have hslot : S0 - 2 * n - 22 + BitVec.ofNat 16 (2 + 2 * 0) = S0 - 2 * n - 20 := by
      change S0 - 2 * n - 22 + 2 = S0 - 2 * n - 20
      ring
    rw [← hslot, hwords (by decide), ← hsize]
    rfl
  · rw [State.called_fp, hbase] at hufp hsame
    have hret := exec_ret_of_returnWord (s := s) (n := n) (u := u)
      (fun k hk => by rw [hufp, hsame k hk, hwords hk])
      (fun k _ => ramAccess_argument huflat (hufp ▸ even_sub hargEven (by decide)) k)
    have hspBack : S0 - 2 * n - 22 + 22 + 2 * n = S0 := by ring
    have hfpBack : S0 - 2 * n - 22 + (P + 2 * n + 22) = S0 + P := by ring
    have hcfbBack : P + 2 * n + 22 - 20 - 2 * n = P + 2 := by ring
    rw [hufp, hsize, hspBack, hfpBack, hcfbBack] at hret
    have hip : ipIdx ∈ returnTargets := by decide
    have hsaved : savedRegs ⊆ returnTargets := by decide
    have hpopped {j : Nat} := State.setRegs_callerRegs_popped (j := j) s u S0 (S0 + P)
    refine ⟨_, hret, ?_⟩
    simp only [State.withCfb_reg, State.withCfb_cfb, State.withCfb_devices, State.withCfb_run]
    exact ⟨hpopped hip, fun j hj => hpopped (hsaved hj), State.setRegs_callerRegs_sp s u _ _,
      State.setRegs_callerRegs_fp s u _ _, trivial, State.setRegs_callerRegs_acc s u _ _,
      State.setRegs_devices u _, State.setRegs_run u _⟩

end Sys2Proof.Machine
end

section
/-! NOP and HLT (47_nop_halt): the layouts, what each leaves as it was, and the refusal of a stopped
core's step. -/

namespace Sys2Proof.Machine

/-! ## The two meanings -/

/-- `NOP` as a meaning (47_nop_halt R175). -/
theorem exec_nop (s : State) : exec .nop s = .next s := rfl

/-- `HLT` completes, and only the run state moves (47_nop_halt R176). -/
theorem exec_hlt (s : State) : exec .hlt s = .next (s.withRun .halted) :=
  finish_ok (setRun_apply .halted s)

/-! ## The step of a stopped core (10_state R19, D9, D10) -/

theorem step_of_halted {s : State} (hrun : s.run = .halted) : step s = .refused .halted := by
  simp only [step, hrun]

theorem step_of_faulted {s : State} {f : Fault} (hrun : s.run = .faulted f) :
    step s = .refused (.faulted f) := by
  simp only [step, hrun]

/-- Settles O8: the layout, the effect of `HLT`, and the refusal in each of the two stopped states. -/
theorem hltHaltsAndStoppedCoreRefusesStep : Obligations.HltHaltsAndStoppedCoreRefusesStep :=
  ⟨formatN_of_assemble rfl rfl,
    fun s => ⟨exec_hlt s, step_of_halted, fun _ => step_of_faulted⟩⟩

/-! ## The step over `NOP` -/

/-- Settles O47: the byte of `NOP` decodes to it with nothing left over, so the step is the fetch of
that one byte and then a meaning that answers its state. -/
theorem nopChangesNothing : Obligations.NopChangesNothing := by
  have hformat : FormatN .nop .nop := formatN_of_assemble rfl rfl
  refine ⟨hformat, exec_nop, fun s hrun hm hcode => ?_⟩
  have hfetch : fetchInstr s = .ok .nop (s.setReg ipIdx (s.reg ipIdx + 1)) :=
    fetchInstr_code hcode (hformat s.params.opcodeMap hm [])
  rw [step_of_fetchInstr_ok hrun hfetch, exec_nop]

end Sys2Proof.Machine
end

section
/-! Exceptions (60_exceptions): which faults a step can raise and which fields it leaves, the run as
the step repeated, and the host's memory access that fails. -/

namespace Sys2Proof.Machine

/-! ## Computations that keep an invariant and raise only certain faults

A relation between states, as in `Keeps`, does not see the fault that a computation stops with, and
cannot use that an instruction names registers of the twelve only. -/

/-- From a state of `I` the computation ends or stops in a state of `I`, and stops only with a fault
of `P`. -/
def Guarded (I : State → Prop) (P : Fault → Prop) {α : Type} (m : Exec α) : Prop :=
  ∀ s, I s → (∀ a t, m s = .ok a t → I t) ∧ ∀ f t, m s = .error f t → I t ∧ P f

/-- The updates and accesses that every meaning is made of are guarded. Nothing is asked of
`InvalidRegister`: no register outside the twelve is reached. -/
structure GuardedOps (I : State → Prop) (P : Fault → Prop) : Prop where
  setReg : ∀ s i v, I s → I (s.setReg i v)
  withCfb : ∀ s v, I s → I (s.withCfb v)
  memRead : ∀ addr w, Guarded I P (memRead addr w)
  memWrite : ∀ addr w v, Guarded I P (memWrite addr w v)
  illegalOpcode : ∀ b a, P (.illegalOpcode b a)

/-- The outcome is a state of `I`, or one of `I` with a fault of `P` taken. -/
def Ends (I : State → Prop) (P : Fault → Prop) (r : Result) : Prop :=
  ∃ t, I t ∧ (r = .next t ∨ ∃ f, P f ∧ r = .next (takeFault f t))

namespace Guarded

variable {I : State → Prop} {P : Fault → Prop}

theorem bind {α β : Type} {x : Exec α} {f : α → Exec β} (hx : Guarded I P x)
    (hf : ∀ a, Guarded I P (f a)) : Guarded I P (x >>= f) := by
  intro s hs
  constructor
  · intro b u h
    obtain ⟨a, t, hxa, hfa⟩ := bind_eq_ok h
    exact (hf a t ((hx s hs).1 a t hxa)).1 b u hfa
  · intro e u h
    rcases bind_eq_error h with hxe | ⟨a, t, hxa, hfa⟩
    · exact (hx s hs).2 e u hxe
    · exact (hf a t ((hx s hs).1 a t hxa)).2 e u hfa

/-- A computation that answers from every state of `I`. -/
theorem of_ok {α : Type} {m : Exec α} (h : ∀ s, I s → ∃ a t, m s = .ok a t ∧ I t) :
    Guarded I P m := by
  intro s hs
  obtain ⟨a, t, hm, ht⟩ := h s hs
  rw [hm]
  constructor <;> intro _ _ e <;> cases e
  exact ht

theorem pure {α : Type} (a : α) : Guarded I P (Pure.pure a : Exec α) :=
  of_ok fun s hs => ⟨a, s, rfl, hs⟩

theorem raise {α : Type} {f : Fault} (hf : P f) : Guarded I P (Machine.raise f : Exec α) := by
  intro s hs
  constructor <;> intro _ _ h <;> cases h
  exact ⟨hs, hf⟩

theorem regRead {i : Nat} (hi : i < 12) : Guarded I P (Machine.regRead i) :=
  of_ok fun s hs => ⟨_, s, regRead_ok hi s, hs⟩

theorem getCfb : Guarded I P Machine.getCfb :=
  .of_ok fun s hs => ⟨s.cfb, s, rfl, hs⟩

end Guarded

/-- The outcome of an instruction's statements. -/
theorem Ends.of_guarded {I : State → Prop} {P : Fault → Prop} {m : Exec Unit} (hm : Guarded I P m)
    {s : State} (hs : I s) : Ends I P (finish m s) := by
  rcases finish_cases m s with ⟨t, h, e⟩ | ⟨f, t, h, e⟩
  · exact ⟨t, (hm s hs).1 () t h, .inl e⟩
  · obtain ⟨ht, hf⟩ := (hm s hs).2 f t h
    exact ⟨t, ht, .inr ⟨f, hf, e⟩⟩

namespace GuardedOps

variable {I : State → Prop} {P : Fault → Prop} (p : GuardedOps I P)
include p

/-! The operations -/

theorem regWrite {i : Nat} (hi : i < 12) (v : Word) : Guarded I P (Machine.regWrite i v) :=
  .of_ok fun s hs => ⟨(), _, regWrite_ok hi v s, p.setReg s i v hs⟩

theorem setCfb (v : Word) : Guarded I P (Machine.setCfb v) :=
  .of_ok fun s hs => ⟨(), _, rfl, p.withCfb s v hs⟩

theorem addCfb (n : Int) : Guarded I P (Machine.addCfb n) :=
  .of_ok fun s hs => ⟨(), _, rfl, p.withCfb s _ hs⟩

theorem push (v : Word) : Guarded I P (Machine.push v) :=
  .bind (.regRead (by decide)) fun _ => .bind (p.memWrite _ _ _) fun _ =>
    .bind (p.regWrite (by decide) _) fun _ => p.addCfb _

theorem pop : Guarded I P Machine.pop :=
  .bind (.regRead (by decide)) fun _ => .bind (p.regWrite (by decide) _) fun _ =>
    .bind (p.addCfb _) fun _ => p.memRead _ _

theorem pushRegs {rs : List Nat} (hrs : ∀ r ∈ rs, r < 12) : Guarded I P (Machine.pushRegs rs) := by
  induction rs with
  | nil => exact .pure ()
  | cons r rs ih =>
    obtain ⟨hr, hrest⟩ := List.forall_mem_cons.mp hrs
    exact .bind (.regRead hr) fun _ => .bind (p.push _) fun _ => ih hrest

theorem popRegs {rs : List Nat} (hrs : ∀ r ∈ rs, r < 12) : Guarded I P (Machine.popRegs rs) := by
  induction rs with
  | nil => exact .pure ()
  | cons r rs ih =>
    obtain ⟨hr, hrest⟩ := List.forall_mem_cons.mp hrs
    exact .bind p.pop fun _ => .bind (p.regWrite hr _) fun _ => ih hrest

theorem popDiscard (n : Nat) : Guarded I P (Machine.popDiscard n) := by
  induction n with
  | zero => exact .pure ()
  | succ n ih => exact .bind p.pop fun _ => ih

/-! The parts that meanings share -/

theorem moveTo {d : Nat} {x : Exec Word} (hd : d < 12) (hx : Guarded I P x) :
    Guarded I P (Machine.moveTo d x) :=
  .bind hx fun v => p.regWrite hd v

theorem moveToMem {addr : Nat} {w : Width} {x : Exec Word} (hx : Guarded I P x) :
    Guarded I P (Machine.moveToMem addr w x) :=
  .bind hx fun v => p.memWrite addr w v

theorem binaryToAcc {f : Word → Word → Word} {x y : Exec Word} (hx : Guarded I P x)
    (hy : Guarded I P y) : Guarded I P (Machine.binaryToAcc f x y) :=
  .bind hx fun _ => .bind hy fun _ => p.regWrite (by decide) _

theorem shiftInPlace {f : Word → Nat → Word} {r : Nat} {n : Exec Nat} (hr : r < 12)
    (hn : Guarded I P n) : Guarded I P (Machine.shiftInPlace f r n) :=
  .bind (.regRead hr) fun _ => .bind hn fun _ => p.regWrite hr _

theorem updateReg {f : Word → Word} {r : Nat} (hr : r < 12) :
    Guarded I P (Machine.updateReg r f) :=
  .bind (.regRead hr) fun _ => p.regWrite hr _

theorem jumpIf {rel : Relation} {x : Exec Word} {target : Word} (hx : Guarded I P x) :
    Guarded I P (Machine.jumpIf rel x target) :=
  .bind hx fun _ => .bind (.regRead (by decide)) fun _ => by
    split
    · exact p.regWrite (by decide) _
    · exact .pure ()

theorem callTo (target : Word) : Guarded I P (Machine.callTo target) :=
  .bind (p.pushRegs (by decide)) fun _ => .bind (.regRead (by decide)) fun _ =>
    .bind (p.push _) fun _ => .bind .getCfb fun _ => .bind (p.push _) fun _ =>
    .bind (.regRead (by decide)) fun _ => .bind (p.regWrite (by decide) _) fun _ =>
    .bind (p.setCfb _) fun _ => p.regWrite (by decide) _

theorem returnSequence : Guarded I P Machine.returnSequence :=
  .bind (.regRead (by decide)) fun _ => .bind (p.regWrite (by decide) _) fun _ =>
    .bind p.pop fun _ => .bind (p.setCfb _) fun _ => .bind p.pop fun _ =>
    .bind (p.regWrite (by decide) _) fun _ => .bind (p.popRegs (by decide)) fun _ =>
    .bind p.pop fun _ => .bind (p.popDiscard _) fun _ => p.regWrite (by decide) _

/-! The fetch -/

theorem fetch8 : Guarded I P Machine.fetch8 :=
  .bind (.regRead (by decide)) fun _ => .bind (p.memRead _ _) fun _ =>
    .bind (p.regWrite (by decide) _) fun _ => .pure _

theorem fetch16 : Guarded I P Machine.fetch16 :=
  .bind (.regRead (by decide)) fun _ => .bind (p.memRead _ _) fun _ =>
    .bind (p.regWrite (by decide) _) fun _ => .pure _

theorem fetchOperand (k : OperandKind) : Guarded I P (Machine.fetchOperand k) := by
  cases k with
  | reg => exact .bind (.bind p.fetch8 fun _ => .pure _) fun _ => .pure _
  | lit8 | addr8 => exact .bind p.fetch8 fun _ => .pure _
  | lit16 | addr16 => exact p.fetch16

theorem fetchOperands (ks : List OperandKind) : Guarded I P (Machine.fetchOperands ks) := by
  induction ks with
  | nil => exact .pure []
  | cons k ks ih => exact .bind (p.fetchOperand k) fun _ => .bind ih fun _ => .pure _

theorem fetchInstr : Guarded I P Machine.fetchInstr :=
  .bind (.regRead (by decide)) fun _ => .bind p.fetch8 fun _ =>
    .bind (.of_ok fun s hs => ⟨s, s, rfl, hs⟩) fun _ => by
      split
      · exact .raise (p.illegalOpcode _ _)
      · exact .bind (p.fetchOperands _) fun _ => .pure _

/-! The meanings -/

/-- The meaning of a well-formed instruction, by family. `HLT` is apart: it alone moves the run
state without a fault. -/
theorem exec {i : Instr} (hi : i.wellFormed = true) (hne : i ≠ .hlt) {s : State} (hs : I s) :
    Ends I P (Machine.exec i s) := by
  have operand : ∀ r ∈ i.regOperands, r < 12 := by simpa [Instr.wellFormed] using hi
  have fst {r : Nat} {rs : List Nat} (h : i.regOperands = r :: rs) : r < 12 :=
    operand r (by simp [h])
  have snd {q r : Nat} {rs : List Nat} (h : i.regOperands = q :: r :: rs) : r < 12 :=
    operand r (by simp [h])
  cases i with
  | hlt => exact absurd rfl hne
  | nop => exact .of_guarded (.pure ()) hs
  | movLitReg => exact .of_guarded (p.moveTo (fst rfl) (.pure _)) hs
  | movRegReg => exact .of_guarded (p.moveTo (snd rfl) (.regRead (fst rfl))) hs
  | movMemReg | mov8MemReg => exact .of_guarded (p.moveTo (fst rfl) (p.memRead _ _)) hs
  | movRegPtrReg | movLitOffReg =>
    exact .of_guarded (p.moveTo (snd rfl) (.bind (.regRead (fst rfl)) fun _ => p.memRead _ _)) hs
  | movRegMem => exact .of_guarded (p.moveToMem (.regRead (fst rfl))) hs
  | movLitMem | mov8LitMem => exact .of_guarded (p.moveToMem (.pure _)) hs
  | mov8RegMem => exact .of_guarded (p.moveToMem (.bind (.regRead (fst rfl)) fun _ => .pure _)) hs
  | addRegReg | subRegReg | mulRegReg | andRegReg | orRegReg | xorRegReg =>
    exact .of_guarded (p.binaryToAcc (.regRead (fst rfl)) (.regRead (snd rfl))) hs
  | addLitReg | subLitReg | mulLitReg =>
    exact .of_guarded (p.binaryToAcc (.pure _) (.regRead (fst rfl))) hs
  | subRegLit | andRegLit | orRegLit | xorRegLit =>
    exact .of_guarded (p.binaryToAcc (.regRead (fst rfl)) (.pure _)) hs
  | notReg => exact .of_guarded (.bind (.regRead (fst rfl)) fun _ => p.regWrite (by decide) _) hs
  | lshRegLit | rshRegLit => exact .of_guarded (p.shiftInPlace (fst rfl) (.pure _)) hs
  | lshRegReg | rshRegReg =>
    exact .of_guarded
      (p.shiftInPlace (fst rfl) (.bind (.regRead (snd rfl)) fun _ => .pure _)) hs
  | incReg | decReg => exact .of_guarded (p.updateReg (fst rfl)) hs
  | jmpNotEq | jeqLit | jltLit | jgtLit | jleLit | jgeLit =>
    exact .of_guarded (p.jumpIf (.pure _)) hs
  | jeqReg | jneReg | jltReg | jgtReg | jleReg | jgeReg =>
    exact .of_guarded (p.jumpIf (.regRead (fst rfl))) hs
  | pshLit => exact .of_guarded (p.push _) hs
  | pshReg => exact .of_guarded (.bind (.regRead (fst rfl)) fun _ => p.push _) hs
  | pop => exact .of_guarded (.bind p.pop fun _ => p.regWrite (fst rfl) _) hs
  | calLit => exact .of_guarded (p.callTo _) hs
  | calReg => exact .of_guarded (.bind (.regRead (fst rfl)) fun _ => p.callTo _) hs
  | ret => exact .of_guarded p.returnSequence hs

end GuardedOps

/-! ## The instruction fetched (60_exceptions R183) -/

theorem regOfByte_lt (b : Byte) : regOfByte b < 12 := Nat.mod_lt _ (by decide)

/-- A register operand is fetched modulo 12 (30_encoding R63). -/
theorem fetchOperand_reg_lt {s t : State} {v : Word} (h : fetchOperand .reg s = .ok v t) :
    v.toNat < 12 := by
  obtain ⟨r, u, hr, hv⟩ := bind_eq_ok h
  obtain ⟨b, u', -, hb⟩ := bind_eq_ok hr
  cases hb
  cases hv
  rw [BitVec.toNat_ofNat]
  exact (Nat.mod_le _ _).trans_lt (regOfByte_lt b)

theorem fetchOperands_reg_lt {ks : List OperandKind} {s t : State} {vs : List Word}
    (h : fetchOperands ks s = .ok vs t) (j : Nat) (hj : ks[j]? = some .reg) :
    (vs.getD j 0).toNat < 12 := by
  induction ks generalizing s vs j with
  | nil => simp at hj
  | cons k ks ih =>
    obtain ⟨v, u, hv, hrest⟩ := bind_eq_ok h
    obtain ⟨vs', u', hvs, hcons⟩ := bind_eq_ok hrest
    cases hcons
    cases j with
    | zero =>
      obtain rfl : k = .reg := by simpa using hj
      exact fetchOperand_reg_lt hv
    | succ j => exact ih hvs j (by simpa using hj)

/-- Whatever bytes are fetched, from RAM or from peripherals, the instruction names registers of the
twelve only. -/
theorem fetchInstr_wellFormed {s t : State} {i : Instr} (h : fetchInstr s = .ok i t) :
    i.wellFormed = true := by
  rw [fetchInstr_apply] at h
  split at h
  · split at h
    · exact nomatch h
    · next op _ =>
      split at h
      · next os _ hops =>
        cases h
        exact op.assemble_wellFormed os (fetchOperands_reg_lt hops)
      · exact nomatch h
  · exact nomatch h

/-! ## What a step of a running core can do (60_exceptions R201) -/

section

variable {I : State → Prop} {P : Fault → Prop} (p : GuardedOps I P) {s : State}
  (hrun : s.run = .running) (hs : I s)
include p hrun hs

/-- Either `HLT` is fetched, or the step ends as every other meaning and every fault of the fetch
does. -/
theorem step_ends : (∃ u, I u ∧ fetchInstr s = .ok .hlt u) ∨
    ((∀ u, fetchInstr s ≠ .ok .hlt u) ∧ Ends I P (step s)) := by
  obtain ⟨hok, herror⟩ := p.fetchInstr s hs
  cases h : fetchInstr s with
  | ok i u =>
    by_cases hi : i = .hlt
    · subst hi
      exact .inl ⟨u, hok _ _ h, rfl⟩
    · refine .inr ⟨fun v hv => hi (by cases hv; rfl), ?_⟩
      rw [step_of_fetchInstr_ok hrun h]
      exact p.exec (fetchInstr_wellFormed h) hi (hok _ _ h)
  | error f u =>
    obtain ⟨hu, hf⟩ := herror _ _ h
    exact .inr ⟨nofun, u, hu, .inr ⟨f, hf, step_of_fetchInstr_error hrun h⟩⟩

theorem step_next_cases {t : State} (h : step s = .next t) :
    ∃ u, I u ∧ (t = u ∨ t = u.withRun .halted ∨ ∃ f, P f ∧ t = takeFault f u) := by
  rcases step_ends p hrun hs with ⟨u, hu, hfetch⟩ | ⟨-, u, hu, hnext | ⟨f, hf, hnext⟩⟩
  · rw [step_of_fetchInstr_ok hrun hfetch, exec_hlt] at h
    cases h
    exact ⟨_, hu, .inr (.inl rfl)⟩
  · rw [hnext] at h
    cases h
    exact ⟨_, hu, .inl rfl⟩
  · rw [hnext] at h
    cases h
    exact ⟨_, hu, .inr (.inr ⟨f, hf, rfl⟩)⟩

end

/-! ## The faults of a running core (60_exceptions R183, R184) -/

/-- The fault is neither of the two that the register file and its names raise. -/
def Fault.NotOfRegisters (f : Fault) : Prop :=
  (∀ i, f ≠ .invalidRegister i) ∧ ∀ name, f ≠ .unknownRegisterName name

/-- An access that faults leaves all but the model's count of peripheral accesses. -/
theorem memRead_error_state {s t : State} {addr : Nat} {w : Width} {f : Fault}
    (h : memRead addr w s = .error f t) : t = { s with accesses := t.accesses } := by
  rcases memRead_error_cases h with ⟨rfl, -⟩ | ⟨_, _, _, _, rfl, -⟩ | ⟨_, _, rfl, -⟩ <;> rfl

theorem memWrite_error_state {s t : State} {addr : Nat} {w : Width} {v : Word} {f : Fault}
    (h : memWrite addr w v s = .error f t) : t = { s with accesses := t.accesses } := by
  rcases memWrite_error_cases h with ⟨rfl, -⟩ | ⟨_, _, _, _, rfl, -⟩ | ⟨_, _, rfl, -⟩ <;> rfl

theorem memRead_error_notOfRegisters {s t : State} {addr : Nat} {w : Width} {f : Fault}
    (h : memRead addr w s = .error f t) : f.NotOfRegisters := by
  rcases memRead_error_cases h with ⟨-, rfl, -⟩ | ⟨_, _, _, _, -, -, -, -, rfl⟩ |
    ⟨_, _, -, -, -, rfl⟩ <;> exact ⟨nofun, nofun⟩

theorem memWrite_error_notOfRegisters {s t : State} {addr : Nat} {w : Width} {v : Word} {f : Fault}
    (h : memWrite addr w v s = .error f t) : f.NotOfRegisters := by
  rcases memWrite_error_cases h with ⟨-, rfl, -⟩ | ⟨_, _, _, _, -, -, -, -, rfl⟩ |
    ⟨_, _, -, -, -, rfl⟩ <;> exact ⟨nofun, nofun⟩

/-- Until a fault is taken the core stays `RUNNING`, and no access raises a fault of registers. -/
theorem running_guarded : GuardedOps (fun s => s.run = .running) Fault.NotOfRegisters where
  setReg _ _ _ h := h
  withCfb _ _ h := h
  memRead addr w s hs := by
    refine ⟨fun v t h => ?_, fun f t h => ⟨?_, memRead_error_notOfRegisters h⟩⟩
    · obtain ⟨-, -, hrun, -⟩ := memRead_ok_keeps h
      exact hrun.trans hs
    · rw [memRead_error_state h]
      exact hs
  memWrite addr w v s hs := by
    refine ⟨fun _ t h => ?_, fun f t h => ⟨?_, memWrite_error_notOfRegisters h⟩⟩
    · obtain ⟨-, -, hrun⟩ := memWrite_ok_keeps h
      exact hrun.trans hs
    · rw [memWrite_error_state h]
      exact hs
  illegalOpcode _ _ := ⟨nofun, nofun⟩

/-- Settles O56: the fault that a step takes is of an access or an illegal byte; the host's access
by index is O12. -/
theorem stepNeverRaisesRegisterFaults : Obligations.StepNeverRaisesRegisterFaults := by
  refine ⟨fun s t hrun h => ?_, fun s i v hi => (registerFileValidatesIndex s i v).2 hi⟩
  obtain ⟨u, hu, rfl | rfl | ⟨f, ⟨hindex, hname⟩, rfl⟩⟩ :=
    step_next_cases running_guarded hrun hrun h
  · rw [hu]
    exact ⟨nofun, nofun⟩
  · exact ⟨nofun, nofun⟩
  · exact ⟨fun i e => hindex i (RunState.faulted.inj e),
      fun name e => hname name (RunState.faulted.inj e)⟩

/-- Settles O7: `HLT` alone sets `HALTED`; any other end of a step is `RUNNING` or `FAULTED`. -/
theorem runningStepAnswersNextState : Obligations.RunningStepAnswersNextState := by
  intro s hrun
  rcases step_ends running_guarded hrun hrun with
    ⟨u, -, hfetch⟩ | ⟨hother, u, hu, hnext | ⟨f, -, hnext⟩⟩
  · exact ⟨_, (step_of_fetchInstr_ok hrun hfetch).trans (exec_hlt u),
      fun _ => ⟨u, hfetch⟩, fun _ => rfl⟩
  · refine ⟨u, hnext, fun h => ?_, fun ⟨v, hv⟩ => absurd hv (hother v)⟩
    exact nomatch hu.symm.trans h
  · exact ⟨_, hnext, nofun, fun ⟨v, hv⟩ => absurd hv (hother v)⟩

/-! ## A machine of RAM devices (60_exceptions R186, D30) -/

theorem State.ramOnly.device_ne {s : State} (h : s.ramOnly) (d : Nat) :
    s.device d ≠ .peripheral := by
  rw [State.device]
  cases hd : s.devices[d]? with
  | none => exact nofun
  | some x => exact h x (List.mem_of_getElem? hd)

theorem State.ramOnly.setRam {s : State} (h : s.ramOnly) (d n : Nat) (mem : Memory) :
    (s.setRam d n mem).ramOnly := by
  intro x hx
  rcases List.mem_or_eq_of_mem_set hx with hx | rfl
  · exact h x hx
  · exact nofun

/-- `t` is a running machine of RAM devices with the record of peripheral accesses of `s`. -/
structure RamRun (s t : State) : Prop where
  run : t.run = .running
  ramOnly : t.ramOnly
  events : t.events = s.events
  accesses : t.accesses = s.accesses

/-- The fault is no refusal of a peripheral. -/
def Fault.NotOfDevice (f : Fault) : Prop := ∀ d a w dir, f ≠ .deviceFault d a w dir

/-- An access that leads to RAM, or nowhere, meets no peripheral to count or to refuse it. -/
theorem ramRun_guarded (s₀ : State) : GuardedOps (RamRun s₀) Fault.NotOfDevice where
  setReg _ _ _ h := ⟨h.run, h.ramOnly, h.events, h.accesses⟩
  withCfb _ _ h := ⟨h.run, h.ramOnly, h.events, h.accesses⟩
  memRead addr w s hs := by
    constructor
    · intro v t h
      rcases memRead_ok_cases h with ⟨rfl, -⟩ | ⟨d, _, -, hd, -⟩
      · exact hs
      · exact absurd hd (hs.ramOnly.device_ne d)
    · intro f t h
      rcases memRead_error_cases h with ⟨rfl, rfl, -⟩ | ⟨_, _, _, _, rfl, -, -, -, rfl⟩ |
        ⟨d, _, -, -, hd, -⟩
      · exact ⟨hs, nofun⟩
      · exact ⟨hs, nofun⟩
      · exact absurd hd (hs.ramOnly.device_ne d)
  memWrite addr w v s hs := by
    constructor
    · intro _ t h
      rcases memWrite_ok_cases h with ⟨d, a, n, m, -, -, -, rfl⟩ | ⟨d, _, -, hd, -⟩
      · exact ⟨hs.run, hs.ramOnly.setRam d n _, hs.events, hs.accesses⟩
      · exact absurd hd (hs.ramOnly.device_ne d)
    · intro f t h
      rcases memWrite_error_cases h with ⟨rfl, rfl, -⟩ | ⟨_, _, _, _, rfl, -, -, -, rfl⟩ |
        ⟨d, _, -, -, hd, -⟩
      · exact ⟨hs, nofun⟩
      · exact ⟨hs, nofun⟩
      · exact absurd hd (hs.ramOnly.device_ne d)
  illegalOpcode _ _ := nofun

/-- Settles O57: the end of the step is the end of statements that meet no peripheral, but for the
run state. -/
theorem ramOnlyMachineRaisesNoDeviceFault : Obligations.RamOnlyMachineRaisesNoDeviceFault := by
  intro s t hram hrun h
  obtain ⟨u, hu, ht⟩ := step_next_cases (ramRun_guarded s) hrun ⟨hrun, hram, rfl, rfl⟩ h
  rcases ht with rfl | rfl | ⟨f, hf, rfl⟩
  · exact ⟨by rw [hu.run]; exact nofun, hu.events, hu.accesses, hu.ramOnly⟩
  · exact ⟨nofun, hu.events, hu.accesses, hu.ramOnly⟩
  · exact ⟨fun d a w dir e => hf d a w dir (RunState.faulted.inj e), hu.events, hu.accesses,
      hu.ramOnly⟩

/-! ## The run (60_exceptions R201, 70_reset_and_hazards R223) -/

theorem hostRun_succ_of_next {s t : State} (h : step s = .next t) (n : Nat) :
    hostRun (n + 1) s = hostRun n t := by
  rw [hostRun, h]

theorem hostRun_of_not_running {s : State} (h : s.run ≠ .running) (n : Nat) : hostRun n s = s := by
  cases n with
  | zero => rfl
  | succ n =>
    cases hrun : s.run with
    | running => exact absurd hrun h
    | halted => rw [hostRun, step_of_halted hrun]
    | faulted f => rw [hostRun, step_of_faulted hrun]

/-- A `RUNNING` core never refuses the step, so a run that is cut off goes on where it was. -/
theorem hostRun_add (m n : Nat) (s : State) : hostRun (m + n) s = hostRun n (hostRun m s) := by
  induction m generalizing s with
  | zero => rw [Nat.zero_add, hostRun]
  | succ m ih =>
    by_cases hrun : s.run = .running
    · obtain ⟨t, hstep, -⟩ := runningStepAnswersNextState s hrun
      rw [Nat.add_right_comm, hostRun_succ_of_next hstep, hostRun_succ_of_next hstep, ih]
    · simp only [hostRun_of_not_running hrun]

/-- Settles O58: a stopped core refuses the step, a running one answers a next state (O7). -/
theorem runRepeatsStepUntilStopped : Obligations.RunRepeatsStepUntilStopped := by
  refine fun s m n => ⟨fun h => hostRun_of_not_running h n, fun hrun => ?_, hostRun_add m n s⟩
  obtain ⟨t, hstep, -⟩ := runningStepAnswersNextState s hrun
  exact ⟨t, hstep, hostRun_succ_of_next hstep n⟩

/-! ## A host's access that fails (60_exceptions R200, D35) -/

/-- The fault that a host access reports is the one its computation stops with, in that state. -/
theorem error_of_hostAccess {α : Type} {m : Exec α} {s : State} {f : Fault}
    (h : (hostAccess m s).1 = .error f) : m s = .error f (hostAccess m s).2 := by
  cases hm : m s with
  | ok a t =>
    rw [hostAccess_ok hm] at h
    exact nomatch h
  | error e t =>
    rw [hostAccess_error hm] at h ⊢
    cases h
    rfl

/-- Settles O59: the access stopped, and then it has changed the count at most. -/
theorem failedHostAccessChangesNothing : Obligations.FailedHostAccessChangesNothing :=
  fun _ _ _ _ _ => ⟨fun h => memRead_error_state (error_of_hostAccess h),
    fun h => memWrite_error_state (error_of_hostAccess h)⟩

end Sys2Proof.Machine
end

section
/-! Reset and hazards (70_reset_and_hazards): the registers that the host's reset leaves, and pushes
that wrap `sp`. -/

namespace Sys2Proof.Machine

/-! ## Reset (70_reset_and_hazards R210, 10_state R26) -/

/-- `INIT_GPR` goes to `acc`, `r1` to `r8` in that order, which are the registers behind `ip`. -/
theorem hostReset_reg_initGpr {s : State} {k : Nat} {v : Word} (h : s.params.initGpr[k]? = some v) :
    (hostReset s).reg (k + 1) = v := by
  obtain ⟨hk, rfl⟩ := Vector.getElem?_eq_some_iff.mp h
  interval_cases k <;> rfl

/-- Settles O14: every other field is a literal of the reset. -/
theorem resetSetsRegistersFromParameters : Obligations.ResetSetsRegistersFromParameters :=
  fun s => ⟨rfl, fun _ _ => hostReset_reg_initGpr, hostReset_reg_sp s, rfl, rfl, rfl, rfl, rfl, rfl⟩

/-! ## A push at `sp = 0` (70_reset_and_hazards R216, D32) -/

/-- A push in RAM, whatever the value of `sp` is: the word stands where `sp` was, and the memory map
is as before. -/
theorem exec_pshLit_ram {s : State} {a : Word} (x : Word) (hsp : s.reg spIdx = a)
    (hram : s.ramAccess a.toNat .w16 = true) :
    ∃ t, exec (.pshLit x) s = .next t ∧ t.reg spIdx = a - 2 ∧ t.run = s.run ∧
      t.readAt a.toNat .w16 = some x ∧ (∀ addr w, t.ramAccess addr w = s.ramAccess addr w) ∧
      ∀ addr w, t.accessFault addr w = s.accessFault addr w := by
  subst hsp
  obtain ⟨-, -, hpush⟩ := pushStoresThenMovesSp
  obtain ⟨hnext, -⟩ := hpush s (.pshLit x) x (.inl rfl)
  refine ⟨_, hnext hram, ?_, by simp, ?_, by simp, by simp⟩
  · rw [State.withCfb_reg, State.reg_setReg_self _ _ _ (by decide)]
  · rw [State.readAt_withCfb, State.readAt_setReg, State.readAt_store_same x hram]

/-- A push where `sp` leads to no region faults and changes nothing else. -/
theorem exec_pshLit_fault {s : State} {a : Word} {f : Fault} (x : Word) (hsp : s.reg spIdx = a)
    (hf : s.accessFault a.toNat .w16 = some f) :
    exec (.pshLit x) s = .next (takeFault f s) := by
  subst hsp
  exact finish_error (push_fault x hf)

/-- `sp` below 0 is `0xFFFE`. -/
theorem zero_sub_two : (0 : Word) - 2 = 0xFFFE := by decide

/-- Settles O46: the wrapped `sp` is an address like any other, so the memory map decides the push
at it. -/
theorem stackWrapIsNotDetected : Obligations.StackWrapIsNotDetected := by
  constructor
  · intro s x y hflat hsp
    have hlow := State.ramAccess_flatRam (w := .w16) hflat (show 0 + 2 ≤ 0x10000 by decide)
    have hhigh := State.ramAccess_flatRam (w := .w16) hflat (show 0xFFFE + 2 ≤ 0x10000 by decide)
    obtain ⟨t, hpush, htsp, htrun, htread, htram, -⟩ := exec_pshLit_ram x hsp hlow
    rw [zero_sub_two] at htsp
    obtain ⟨u, hpush', husp, hurun, huread, -⟩ :=
      exec_pshLit_ram y htsp ((htram _ _).trans hhigh)
    exact ⟨t, u, hpush, htsp, htrun, htread, hpush', husp, hurun.trans htrun, huread⟩
  · intro s x y d mem hregions hd hsp
    have hr : s.resolve 0 = some (d, 0) := by
      simp [State.resolve, Mapper.find, hregions, Region.covers, Region.localAddr]
    have hlow : s.ramAccess 0 .w16 = true := by
      rw [State.ramAccess, State.readAt_inside hr hd (by decide), Option.isSome_some]
    have hhigh : s.accessFault 0xFFFE .w16 = some (.unmappedAddress 0xFFFE) := by
      simp [State.accessFault, State.resolve, Mapper.find, hregions, Region.covers]
    obtain ⟨t, hpush, htsp, htrun, htread, -, htfault⟩ := exec_pshLit_ram x hsp hlow
    rw [zero_sub_two] at htsp
    exact ⟨t, hpush, htsp, htrun, htread,
      exec_pshLit_fault y htsp ((htfault _ _).trans hhigh)⟩

end Sys2Proof.Machine
end
